-- ==== Sys2Proof/Word.lean ====
section
/-! DEFINITION. The words the block is made of: bytes, addresses, transaction words (00_scope R8, R12). -/

namespace Sys2Proof

/-- A byte: a register, a byte of buffer memory, a byte on the bus. -/
abbrev Byte := BitVec 8

/-- A buffer-memory address, `AW` = 16 bits (00_scope R8). -/
abbrev Addr := BitVec 16

/-- The data half of a host register transaction (30_encoding R71). -/
abbrev Word16 := BitVec 16

/-- A boolean field as the one bit it is in a register view (00_scope R12: 0 is false, 1 is true). -/
abbrev bit (b : Bool) : BitVec 1 := BitVec.ofBool b

end Sys2Proof
end

