-- ==== Sys2Proof/Config.lean ====
section
/-! DEFINITION. The parameters of the block (00_scope R8) and the one free value the spec leaves to memory (93 U1). -/

namespace Sys2Proof

/-- `EVENT_ORDER` (00_scope R8, 60_exceptions R199): which of the engine and the watchdog steps first when a status event
and the aborting tick are both enabled. -/
inductive EventOrder where
  | either
  | engineFirst
  | wdtFirst
  deriving DecidableEq, Repr

/-- `LU_MODE` (00_scope R8, 42_line_unit R150): the environment the block runs against. -/
inductive LuMode where
  | nominal
  | nominalWithFaults
  | unconstrained
  deriving DecidableEq, Repr

/-- The parameters of 00_scope R8. They are fixed for one machine: no step writes them. A statement over all states holds
for every value of them. -/
structure Config where
  /-- `WDT_PERIOD_TICKS - 1`: the value of `wdtCount` at which the next tick aborts. Held less one, so that the period is a
  positive integer for every value of the field. -/
  wdtTerminal : Nat
  eventOrder : EventOrder
  luMode : LuMode
  /-- `SYSCLK_HZ`: no rule depends on it. -/
  sysclkHz : Nat
  /-- `BUS_HZ`: no rule depends on it. -/
  busHz : Nat
  deriving DecidableEq, Repr

/-- `WDT_PERIOD_TICKS` (00_scope R8): ticks from the start of a transfer to the abort, a positive integer. -/
def Config.wdtPeriodTicks (c : Config) : Nat := c.wdtTerminal + 1

/-- The documented band of the bus frequency, 10 kHz to 100 kHz (00_scope R8, 60_exceptions R204). A contract of the caller:
nothing checks it. -/
def Config.busInBand (c : Config) : Bool := 10000 ≤ c.busHz && c.busHz ≤ 100000

/-- The parameters `State.reset` carries: `EVENT_ORDER` and `LU_MODE` at the defaults of 00_scope R8, the OPEN ones at the
values of log 4 (DESIGN CHOICE, unsafe for a claim about runs from reset that rests on them). -/
def Config.initial : Config where
  wdtTerminal := 3
  eventOrder := .either
  luMode := .nominalWithFaults
  sysclkHz := 0
  busHz := 100000

/-- What a byte of buffer memory that nothing has written holds (40_host_access R114, 93 U1: any value; log 5). A free value
of the address: it has no body, so no proof can rest on what it is. -/
opaque Config.unwrittenByte : Nat → Byte

end Sys2Proof
end

