-- ==== Sys2Proof/Syntax.lean ====
section
/-! DEFINITION. The operations of the block and its environment (30_encoding R84), the words of the six formats
(30_encoding R70), and what a decoder answers. -/

namespace Sys2Proof

/-- The acknowledge bit of a transmitted byte, as the target drives it (42_line_unit R156). -/
inductive Ack where
  | ack
  | nack
  deriving DecidableEq, Repr

/-- The statuses `LU_FAULT` may report (42_line_unit R157). -/
inductive FaultStatus where
  | arbLost
  | busError
  deriving DecidableEq, Repr

/-- The two rows of `LU_TXBYTE` in 30_encoding R75. -/
inductive TxRow where
  | addressByte
  | otherByte
  deriving DecidableEq, Repr

/-- The operations (30_encoding R84), one constructor per mnemonic of spec/opcode_table.json. Where a mnemonic has several
rows, an operand says which. Bits of a HOST or HMEM word that the operation ignores are carried, so that the words and the
operations stand one to one (log 13). -/
inductive Instr where
  /-- HRD.CTL, 40_host_access R116 -/
  | hrdCtl (wdata : Word16)
  /-- HRD.DAT, R117 -/
  | hrdDat (wdata : Word16)
  /-- HRD.TADDR, R118 -/
  | hrdTaddr (wdata : Word16)
  /-- HRD.SUBADDR, R119 -/
  | hrdSubaddr (wdata : Word16)
  /-- HRD.FLAGS, R120 -/
  | hrdFlags (wdata : Word16)
  /-- HRD.CURSOR, R121 -/
  | hrdCursor (wdata : Word16)
  /-- HRD.REMAIN, R122 -/
  | hrdRemain (wdata : Word16)
  /-- HRD.STAT, R123 -/
  | hrdStat (wdata : Word16)
  /-- HRD.COUNT, R124 -/
  | hrdCount (wdata : Word16)
  /-- HRD.RSV, R125: `reg` is 9 to 15 -/
  | hrdRsv (reg : BitVec 4) (wdata : Word16)
  /-- HWR.CTL.DISABLE, R102: `wdata[7]` = 0 -/
  | hwrCtlDisable (wdata : Word16)
  /-- HWR.CTL.ENABLE, R103: `wdata[7]` = 1, `wdata[5]` = 0 -/
  | hwrCtlEnable (wdata : Word16)
  /-- HWR.CTL.GO, R104: `wdata[7]` = 1, `wdata[5]` = 1 -/
  | hwrCtlGo (wdata : Word16)
  /-- HWR.DAT, R105 -/
  | hwrDat (wdata : Word16)
  /-- HWR.TADDR, R106 -/
  | hwrTaddr (wdata : Word16)
  /-- HWR.SUBADDR, R107 -/
  | hwrSubaddr (wdata : Word16)
  /-- HWR.FLAGS, R108 -/
  | hwrFlags (wdata : Word16)
  /-- HWR.CURSOR, R109 -/
  | hwrCursor (wdata : Word16)
  /-- HWR.REMAIN, R110 -/
  | hwrRemain (wdata : Word16)
  /-- HWR.STAT, R111 -/
  | hwrStat (wdata : Word16)
  /-- HWR.COUNT, R111 -/
  | hwrCount (wdata : Word16)
  /-- HWR.RSV, R126: `reg` is 9 to 15 -/
  | hwrRsv (reg : BitVec 4) (wdata : Word16)
  /-- MRD, R114; `data` is ignored -/
  | mrd (addr : Addr) (data : Byte)
  /-- MWR, R113 -/
  | mwr (addr : Addr) (data : Byte)
  /-- EV_START, 41_engine_events R132 -/
  | evStart
  /-- EV_TX_ACK, R133 -/
  | evTxAck
  /-- EV_TX_NACK, R134 -/
  | evTxNack
  /-- EV_RX, R135 -/
  | evRx
  /-- EV_OTHER, R136: `code` is 0b000, 0b101, 0b110 or 0b111; the engine does not tell them apart (30_encoding R74) -/
  | evOther (code : BitVec 3)
  /-- LU_ACK, 42_line_unit R152 -/
  | luAck
  /-- LU_STOP, R153 -/
  | luStop
  /-- LU_START, R154 -/
  | luStart
  /-- LU_RXBYTE, R155: `b` is the byte drawn from the target -/
  | luRxbyte (b : Byte)
  /-- LU_TXBYTE, R156: `row` is the row of 30_encoding R75 that selected it, `a` the acknowledge drawn from the target -/
  | luTxbyte (row : TxRow) (a : Ack)
  /-- LU_FAULT, R157: `f` is the status drawn -/
  | luFault (f : FaultStatus)
  /-- WDT_TICK.IDLE, 60_exceptions R195 -/
  | wdtTickIdle
  /-- WDT_TICK.COUNT, R195 -/
  | wdtTickCount
  /-- WDT_TICK.ABORT, R196 -/
  | wdtTickAbort
  /-- RESET, 70_reset_and_hazards R220 -/
  | reset
  deriving DecidableEq, Repr

/-- What the environment chooses when the line unit steps (42_line_unit R155 to R157): the draws of a nominal operation, of
which the operation selected uses at most one, or the alternative of reporting a fault. -/
inductive Draw where
  | nominal (b : Byte) (a : Ack)
  | fault (f : FaultStatus)
  deriving DecidableEq, Repr

/-- A word of one of the six formats (30_encoding R70), at the decoder of its interface. -/
inductive Code where
  /-- format HOST, 21 bits (R71) -/
  | host (w : BitVec 21)
  /-- format HMEM, 25 bits (R72) -/
  | hmem (w : BitVec 25)
  /-- format STATUS, 8 bits: the value of `CTL` (R73) -/
  | status (w : BitVec 8)
  /-- format LINE, 8 bits: the line condition word, with the environment's choice (R75) -/
  | line (w : BitVec 8) (d : Draw)
  /-- format TIMER, 2 bits: the timer condition word (R76) -/
  | timer (w : BitVec 2)
  /-- format RESET, 1 bit: the reset input (R77) -/
  | reset (w : BitVec 1)
  deriving DecidableEq, Repr

/-- Why a word selects no operation. -/
inductive NoOp where
  /-- STATUS word with `EN` = 0 or `SI` = 0 (41_engine_events R130) -/
  | engineNotEnabled
  /-- LINE word that is no row of 30_encoding R75 -/
  | lineNoOperation
  /-- reset input at 0 (30_encoding R77) -/
  | resetInputLow
  deriving DecidableEq, Repr

/-- A decoder's answer: the operation a word selects, or by name why it selects none. -/
inductive Decoded where
  | op (i : Instr)
  | none (r : NoOp)
  deriving DecidableEq, Repr

end Sys2Proof
end

