-- ==== Sys2Proof/Machine/State.lean ====
section
/-! DEFINITION. The state of the block and of its environment (10_state), as plain data, and the state after reset. -/

namespace Sys2Proof.Machine

/-- `lu.phase` (10_state R44). -/
inductive LuPhase where
  | idle
  | addr
  | tx
  | rx
  deriving DecidableEq, Repr

/-- A symbol of the wire trace (10_state R46). -/
inductive WireSym where
  /-- `S`: START from an idle line unit -/
  | start
  /-- `Sr`: repeated START -/
  | repeatedStart
  /-- `T(b,A)`, `T(b,N)`: byte `b` transmitted, acknowledged or not -/
  | tx (b : Byte) (a : Ack)
  /-- `R(b)`: byte `b` received -/
  | rx (b : Byte)
  /-- `A`: the master acknowledges the byte just received -/
  | masterAck
  /-- `N`: the master does not acknowledge it -/
  | masterNack
  /-- `P`: STOP -/
  | stop
  /-- `X`: the line unit was reset while it owned the bus -/
  | released
  deriving DecidableEq, Repr

/-- The state of the mock target EE (42_line_unit R159). -/
structure Target where
  /-- `mem[0..255]`, the bytes that differ from 0xFF, addresses strictly rising -/
  mem : List Host.Cell
  ptr : Byte
  /-- the next written byte is the pointer -/
  first : Bool
  /-- how many more address bytes to refuse -/
  nacks : Nat
  deriving DecidableEq, Repr

/-- An operation the HOST has still to issue: a word on one of its two ports, or the WAIT loop (40_host_access R127). -/
inductive HostCmd where
  | reg (w : BitVec 21)
  | mem (w : BitVec 25)
  | wait
  deriving DecidableEq, Repr

/-- Who answers the line unit's draws (42_line_unit R159): the environment, with values of its choice, or the mock target. -/
inductive Answer where
  | drawn (b : Byte) (a : Ack)
  | mock
  deriving DecidableEq, Repr

/-- Which agent is offered the next step, with its draws (00_scope R4, R5; log 1). -/
inductive Input where
  /-- the host issues its next operation -/
  | host
  /-- the engine steps, if it is enabled -/
  | engine
  /-- the line unit takes its enabled nominal operation, if any -/
  | line (t : Answer)
  /-- the line unit reports a fault, if `LU_MODE` allows it and it may step (42_line_unit R157) -/
  | lineFault (f : FaultStatus)
  /-- the unconstrained line unit steps (42_line_unit R160): `load` is the byte it puts into `DAT`, if any -/
  | lineFree (status : BitVec 3) (load : Option Byte) (clearSto : Bool)
  /-- one tick of the watchdog's time base arrives -/
  | tick
  /-- the level of the reset input -/
  | reset (w : BitVec 1)
  deriving DecidableEq, Repr

/-- What the agent whose turn it is does (log 1). -/
inductive Turn where
  /-- it presents a word to its decoder -/
  | word (c : Code)
  /-- the unconstrained line unit's one operation, which has no word (42_line_unit R160) -/
  | free (status : BitVec 3) (load : Option Byte) (clearSto : Bool)
  /-- it has nothing to do -/
  | pass
  deriving DecidableEq, Repr

/-- The bytes `Mem[base .. base + len - 1]` that a GO gave to the engine (70_reset_and_hazards R225). -/
structure BufWindow where
  /-- the cursor at GO -/
  base : Addr
  /-- the remaining count at GO -/
  len : Byte
  deriving DecidableEq, Repr

/-- What the host-side discipline of the document forbids and the hardware does not check (93 U3, U4, U6, U16). -/
inductive CallerError where
  /-- a host register write while `busy` = 1 (40_host_access R100, U3) -/
  | writeWhileBusy
  /-- a host access to a buffer that belongs to the engine: from GO until `busy` is read as 0 (70_reset_and_hazards R225, U4) -/
  | bufferOfRunningTransfer
  /-- GO with the flag combination that hangs (70_reset_and_hazards R231, U6) -/
  | hangingFlags
  /-- `HWR REMAIN` with a length above 255 (70_reset_and_hazards R235, U16) -/
  | lengthAbove255
  deriving DecidableEq, Repr

/-- Reasons for which the machine stops with a fault. There are none: the block has no fault output, no operation faults on
an operand and every address exists (20_memory R51, 41_engine_events R141, 60_exceptions R200, the end of part 1 of 93). -/
inductive Fault where
  deriving DecidableEq, Repr

/-- Reasons for which a step is refused. -/
inductive Refusal where
  /-- An operation without a meaning yet: raised by `exec`'s refused arms only. Safe: the machine stops. There is no such arm. -/
  | notModelled (mnemonic : String)
  /-- A program that breaks the host's discipline: raised by `strictStep` (Safety.lean) only, never by `exec` or `step`.
  Safe: the machine stops where the hardware goes on. -/
  | callerError (e : CallerError)
  deriving DecidableEq, Repr

/-- The whole state. Each bit of a host register view has one home here. -/
structure State where
  /-- the parameters (00_scope R8); no step writes them -/
  cfg : Config
  /-- R21 -/
  busy : Bool
  /-- R22: false = WRITE, true = READ -/
  direction : Bool
  /-- R23 -/
  targetAddress : BitVec 7
  /-- R24 -/
  subAddress : Byte
  /-- R25 -/
  sendSubAddress : Bool
  /-- R26 -/
  repeatedStartForRead : Bool
  /-- R27 -/
  ackPollOnAddressNack : Bool
  /-- R28 -/
  dataCursor : Addr
  /-- R29 -/
  bytesRemaining : Byte
  /-- R30 -/
  sendStartNext : Bool
  /-- R31 -/
  byteCount : Byte
  /-- R32 -/
  fsm : BitVec 3
  /-- R33 -/
  result : BitVec 3
  /-- `EN`, `CTL[7]`, R34 -/
  en : Bool
  /-- `SI`, `CTL[6]` -/
  si : Bool
  /-- `STA`, `CTL[5]` -/
  sta : Bool
  /-- `STO`, `CTL[4]` -/
  sto : Bool
  /-- `ACKRQ`, `CTL[3]` -/
  ackrq : Bool
  /-- `STATUS`, `CTL[2:0]` -/
  status : BitVec 3
  /-- `DAT`, R35 -/
  dat : Byte
  /-- R43 -/
  wdtCount : Nat
  /-- `lu.phase`, R44 -/
  luPhase : LuPhase
  /-- `lu.datFull`, R44 -/
  luDatFull : Bool
  /-- `lu.ackPend`, R44 -/
  luAckPend : Bool
  /-- `Mem`, R45: the bytes something has written, addresses strictly rising -/
  mem : List Host.Cell
  /-- the wire trace, R46, oldest first -/
  trace : List WireSym
  /-- the read data of the host register port (00_scope R9, 30_encoding R71), the value of the last `HRD` -/
  regRdata : Word16
  /-- the read data of the host side of the buffer-memory port, the byte of the last `MRD` -/
  memRdata : Byte
  /-- the buffers given to the engine by a GO since `busy` was last read as 0 (70_reset_and_hazards R225), latest first; the
  model's own (log 12), read by `strictStep` only -/
  windows : List BufWindow
  /-- the mock target, 42_line_unit R159 -/
  ee : Target
  /-- what the host has still to issue; the model's own (log 2) -/
  hostProg : List HostCmd
  /-- who steps next; the model's own (log 1) -/
  inputs : List Input
  deriving DecidableEq, Repr

/-- The mock target as 42_line_unit R159 starts it: every byte 0xFF, pointer 0 (`first` and `nacks`: log 8). -/
def Target.fresh : Target where
  mem := []
  ptr := 0
  first := false
  nacks := 0

/-- The machine right after reset (70_reset_and_hazards R220, R221), for given parameters. -/
def State.resetWith (c : Config) : State where
  cfg := c
  busy := false
  direction := false
  targetAddress := 0
  subAddress := 0
  sendSubAddress := false
  repeatedStartForRead := false
  ackPollOnAddressNack := false
  dataCursor := 0
  bytesRemaining := 0
  sendStartNext := false
  byteCount := 0
  fsm := 0
  result := 0
  en := false
  si := false
  sta := false
  sto := false
  ackrq := false
  status := 0
  dat := 0
  wdtCount := 0
  luPhase := .idle
  luDatFull := false
  luAckPend := false
  mem := []
  trace := []
  regRdata := 0
  memRdata := 0
  windows := []
  ee := Target.fresh
  hostProg := []
  inputs := []

/-- The machine right after reset, with the parameters of `Config.initial`. -/
def State.reset : State := State.resetWith Config.initial

end Sys2Proof.Machine
end

