-- ==== Sys2Proof/Machine/Operands.lean ====
section
/-! DEFINITION. Operand assembly: what each host write takes of `WDATA` (30_encoding R79) and the address byte (R78). -/

namespace Sys2Proof.Machine

/-- `TADDR` takes `WDATA[7:1]`. -/
def taddrOf (wdata : Word16) : BitVec 7 := wdata.extractLsb' 1 7

/-- `SUBADDR` and `REMAIN` take `WDATA[7:0]`. -/
def lowByteOf (wdata : Word16) : Byte := wdata.extractLsb' 0 8

/-- `FLAGS` bit 0, `DIR`. -/
def dirOf (wdata : Word16) : Bool := wdata.getLsbD 0

/-- `FLAGS` bit 1, `SSA`. -/
def ssaOf (wdata : Word16) : Bool := wdata.getLsbD 1

/-- `FLAGS` bit 2, `RSR`. -/
def rsrOf (wdata : Word16) : Bool := wdata.getLsbD 2

/-- `FLAGS` bit 3, `APN`. -/
def apnOf (wdata : Word16) : Bool := wdata.getLsbD 3

/-- The R/W bit of the address byte (R78): WRITE while a sub-address is due, else the transfer's direction. -/
def State.rwBit (s : State) : Bool := if s.sendSubAddress then false else s.direction

/-- The address byte (R78): the 7-bit target address, then the R/W bit. -/
def State.addrByte (s : State) : Byte := s.targetAddress ++ bit s.rwBit

/-- The code of a status `LU_FAULT` reports (42_line_unit R157). -/
def faultCode : FaultStatus → BitVec 3
  | .arbLost => 0b101#3
  | .busError => 0b110#3

/-- The status of a transmitted byte: the acknowledge is bit 0 (30_encoding R74). -/
def txStatus : Ack → BitVec 3
  | .ack => 0b010#3
  | .nack => 0b011#3

end Sys2Proof.Machine
end

