-- ==== Sys2Proof/Machine/Flags.lean ====
section
/-! DEFINITION. The host register views (10_state R34 to R42) and the condition words the engine, the line unit and the
watchdog decode (30_encoding R73, R75, R76), each computed from the flags. -/

namespace Sys2Proof.Machine

/-- `lu.phase` as two bits (10_state R44). -/
def LuPhase.bits : LuPhase → BitVec 2
  | .idle => 0b00#2
  | .addr => 0b01#2
  | .tx => 0b10#2
  | .rx => 0b11#2

/-- The phase two bits stand for. -/
def phaseOfBits (b : BitVec 2) : LuPhase :=
  if b = 0b00#2 then .idle else if b = 0b01#2 then .addr else if b = 0b10#2 then .tx else .rx

/-- `x[CTL]` (R34). -/
def State.ctlView (s : State) : Byte :=
  bit s.en ++ bit s.si ++ bit s.sta ++ bit s.sto ++ bit s.ackrq ++ s.status

/-- `x[TADDR]` (R36). -/
def State.taddrView (s : State) : Byte := s.targetAddress ++ 0#1

/-- `x[FLAGS]` (R38). -/
def State.flagsView (s : State) : Byte :=
  0#4 ++ bit s.ackPollOnAddressNack ++ bit s.repeatedStartForRead ++ bit s.sendSubAddress ++ bit s.direction

/-- `x[STAT]` (R40). -/
def State.statView (s : State) : Byte := s.result ++ s.fsm ++ bit s.sendStartNext ++ bit s.busy

/-- The line condition word `LW` (30_encoding R75). -/
def State.lineWord (s : State) : Byte :=
  bit s.en ++ bit s.si ++ bit s.luAckPend ++ bit s.sto ++ bit s.sta ++ s.luPhase.bits ++ bit s.luDatFull

/-- `last` of the timer condition word: `wdtCount + 1 = WDT_PERIOD_TICKS` (30_encoding R76). -/
def State.wdtLast (s : State) : Bool := s.wdtCount + 1 == s.cfg.wdtPeriodTicks

/-- The timer condition word `TW` (30_encoding R76). -/
def State.timerWord (s : State) : BitVec 2 := bit s.busy ++ bit s.wdtLast

/-- The engine has a step: `EN` = 1 and `SI` = 1 (41_engine_events R130). -/
def State.engineEnabled (s : State) : Bool := s.en && s.si

/-- The line unit may step: `EN` = 1 and `SI` = 0 (42_line_unit R151). -/
def State.lineMayStep (s : State) : Bool := s.en && !s.si

/-- A tick arriving now aborts the transfer: `TW` = 0b11. -/
def State.abortDue (s : State) : Bool := s.busy && s.wdtLast

end Sys2Proof.Machine
end

