-- ==== Sys2Proof/Machine/Ops.lean ====
section
/-! DEFINITION. The named operations: buffer memory (20_memory R51), the wire trace (10_state R46), the host ports, `LoadDAT`
(41_engine_events R131), the internal reset and the failure handler (60_exceptions R191, R192), completion, reset. -/

namespace Sys2Proof.Machine

/-! ### Lists of cells -/

/-- The byte listed at an address. -/
def cellAt : List Host.Cell → Nat → Option Byte
  | [], _ => none
  | (a, v) :: m, x => if a = x then some v else cellAt m x

/-- The list with the byte at an address set. -/
def setCell : List Host.Cell → Nat → Byte → List Host.Cell
  | [], x, v => [(x, v)]
  | (a, w) :: m, x, v =>
    if x < a then (x, v) :: (a, w) :: m
    else if x = a then (x, v) :: m
    else (a, w) :: setCell m x v

/-- The list without the entry at an address. -/
def dropCell : List Host.Cell → Nat → List Host.Cell
  | [], _ => []
  | (a, w) :: m, x => if a = x then m else (a, w) :: dropCell m x

/-- Addresses strictly rising, from `lo` on and below `hi`. -/
def cellsFrom (lo hi : Nat) : List Host.Cell → Bool
  | [] => true
  | (a, _) :: m => lo ≤ a && a < hi && cellsFrom (a + 1) hi m

/-! ### Buffer memory -/

/-- What an unlisted address of buffer memory reads as (93 U1, log 5): a free value of the address. -/
def unlistedByte (a : Addr) : Byte := Config.unwrittenByte a.toNat

/-- `MemRead(addr, 1)` (20_memory R51). -/
def State.memRead (s : State) (a : Addr) : Byte :=
  match cellAt s.mem a.toNat with
  | some v => v
  | none => unlistedByte a

/-- `MemWrite(addr, 1, v)` (20_memory R51). -/
def State.memWrite (s : State) (a : Addr) (v : Byte) : State := { s with mem := setCell s.mem a.toNat v }

/-- The canonical form of buffer memory: addresses strictly rising, each below 2^16. An entry is a written byte, and an
unlisted address has no byte of its own, so no entry equals what an unlisted address reads as (log 5). -/
def Memory.wf (m : List Host.Cell) : Bool := cellsFrom 0 65536 m

/-! ### The wire trace and the host ports -/

/-- `emit sym` (00_scope R13). -/
def State.emit (s : State) (sym : WireSym) : State := { s with trace := s.trace ++ [sym] }

/-- A host register write: performed only while `busy` = 0 (40_host_access R100). -/
def State.hostWrite (s : State) (f : State → State) : State := if s.busy then s else f s

/-- A host register read returns an 8-bit view zero-extended to 16 bits (30_encoding R71). -/
def State.hostRead8 (s : State) (v : Byte) : State := { s with regRdata := v.setWidth 16 }

/-- A host register read of a 16-bit view. -/
def State.hostRead16 (s : State) (v : Word16) : State := { s with regRdata := v }

/-! ### The engine's shared pieces -/

/-- `LoadDAT(v)` (41_engine_events R131). -/
def State.loadDat (s : State) (v : Byte) : State := { s with dat := v, luDatFull := true }

/-- One data byte has been moved: the cursor and the counter go up, the remaining count goes down (41_engine_events R133
branch c1, R135). -/
def State.advance (s : State) : State :=
  { s with
    dataCursor := s.dataCursor + 1
    bytesRemaining := s.bytesRemaining - 1
    byteCount := s.byteCount + 1 }

/-- The transfer is done: STOP requested, ownership back to the host, `result` = OK, `fsm` = Done (R133 branch c2, R135). -/
def State.complete (s : State) : State :=
  { s with sto := true, busy := false, wdtCount := 0, result := 1, fsm := 0 }

/-- The end of every event step (41_engine_events R137). -/
def State.eventDone (s : State) : State := { s with si := false }

/-! ### Abnormal ends (60_exceptions): the block's exceptions -/

/-- The causes of 60_exceptions R190. -/
def causeNack : BitVec 3 := 2

/-- See `causeNack`. -/
def causeBusError : BitVec 3 := 3

/-- See `causeNack`. -/
def causeTimeout : BitVec 3 := 4

/-- `if lu.phase /= IDLE then emit X` (60_exceptions R191). -/
def State.releaseBus (s : State) : State :=
  match s.luPhase with
  | .idle => s
  | .addr | .tx | .rx => s.emit .released

/-- `PeriphReset()` (60_exceptions R191). It leaves `EN` to its caller. -/
def State.periphReset (s : State) : State :=
  { s.releaseBus with
    si := false
    status := 0
    sta := false
    sto := false
    ackrq := false
    sendStartNext := false
    luPhase := .idle
    luDatFull := false
    luAckPend := false }

/-- `EN <- e`. -/
def State.setEn (s : State) (e : Bool) : State := { s with en := e }

/-- `raise Failure(cause)` (60_exceptions R192), and with `causeTimeout` the watchdog abort (R196), which is the same but for
`result`: the line that clears the request bits again changes nothing after `PeriphReset()`. Nothing is saved (R200) and
there is no return (R201). -/
def State.raiseFailure (s : State) (cause : BitVec 3) : State :=
  { ((s.setEn false).periphReset.setEn true) with
    sta := false
    sto := false
    ackrq := false
    busy := false
    wdtCount := 0
    result := cause
    fsm := 6 }

/-! ### Reset and the unconstrained line unit -/

/-- `RESET` (70_reset_and_hazards R220): every piece of the block's and the line unit's state at its reset value, `Mem`
unchanged, the trace emptied. What is outside both stays (log 9). -/
def State.hardReset (s : State) : State :=
  { s with
    busy := false
    direction := false
    targetAddress := 0
    subAddress := 0
    sendSubAddress := false
    repeatedStartForRead := false
    ackPollOnAddressNack := false
    dataCursor := 0
    bytesRemaining := 0
    sendStartNext := false
    byteCount := 0
    fsm := 0
    result := 0
    en := false
    si := false
    sta := false
    sto := false
    ackrq := false
    status := 0
    dat := 0
    wdtCount := 0
    luPhase := .idle
    luDatFull := false
    luAckPend := false
    trace := [] }

/-- The one operation of the unconstrained line unit (42_line_unit R160). -/
def State.lineUnconstrained (s : State) (status : BitVec 3) (load : Option Byte) (clearSto : Bool) : State :=
  { s with
    status := status
    si := true
    dat := load.getD s.dat
    sto := if clearSto then false else s.sto }

end Sys2Proof.Machine
end

