-- ==== Sys2Proof/Machine/HostRead.lean ====
section
/-! DEFINITION. The host register reads (40_host_access R116 to R125): each returns its view on the host port's read data and
changes nothing else, in every state. `WDATA` is ignored. -/

namespace Sys2Proof.Machine

/-- The answer type of a meaning. -/
abbrev Answered := Host.Outcome State Fault Refusal

/-- HRD.CTL (40_host_access R116). -/
def execHrdCtl (_wdata : Word16) (s : State) : Answered := .next (s.hostRead8 s.ctlView)

/-- HRD.DAT (40_host_access R117). -/
def execHrdDat (_wdata : Word16) (s : State) : Answered := .next (s.hostRead8 s.dat)

/-- HRD.TADDR (40_host_access R118). -/
def execHrdTaddr (_wdata : Word16) (s : State) : Answered := .next (s.hostRead8 s.taddrView)

/-- HRD.SUBADDR (40_host_access R119). -/
def execHrdSubaddr (_wdata : Word16) (s : State) : Answered := .next (s.hostRead8 s.subAddress)

/-- HRD.FLAGS (40_host_access R120). -/
def execHrdFlags (_wdata : Word16) (s : State) : Answered := .next (s.hostRead8 s.flagsView)

/-- HRD.CURSOR (40_host_access R121). -/
def execHrdCursor (_wdata : Word16) (s : State) : Answered := .next (s.hostRead16 s.dataCursor)

/-- HRD.REMAIN (40_host_access R122). -/
def execHrdRemain (_wdata : Word16) (s : State) : Answered := .next (s.hostRead8 s.bytesRemaining)

/-- HRD.STAT (40_host_access R123). -/
def execHrdStat (_wdata : Word16) (s : State) : Answered := .next (s.hostRead8 s.statView)

/-- HRD.COUNT (40_host_access R124). -/
def execHrdCount (_wdata : Word16) (s : State) : Answered := .next (s.hostRead8 s.byteCount)

/-- HRD.RSV (40_host_access R125): a reserved index reads as 0. -/
def execHrdRsv (_reg : BitVec 4) (_wdata : Word16) (s : State) : Answered := .next (s.hostRead16 0)

end Sys2Proof.Machine
end

