-- ==== Sys2Proof/Machine/Engine.lean ====
section
/-! DEFINITION. The engine's five event steps (41_engine_events R132 to R136). Each ends with `SI` cleared (R137). -/

namespace Sys2Proof.Machine

/-- EV_START (R132). -/
def execEvStart (s : State) : Answered :=
  .next ({ (s.loadDat s.addrByte) with
      sta := false
      byteCount := 0
      fsm := if s.fsm = 3 then 3 else 1 }).eventDone

/-- Branch (a) of EV_TX_ACK: the one-shot fires. -/
def State.txAckRestart (s : State) : State :=
  { s with sta := true, sendStartNext := false, direction := true, fsm := 3 }

/-- Branch (b): the address is acknowledged and the sub-address is due. -/
def State.txAckSubAddress (s : State) : State :=
  { (s.loadDat s.subAddress) with
    sendSubAddress := false
    sendStartNext := if s.repeatedStartForRead then true else s.sendStartNext
    fsm := 2 }

/-- Branch (c1): the next data byte. -/
def State.txAckData (s : State) : State :=
  { (s.loadDat (s.memRead s.dataCursor)).advance with fsm := 4 }

/-- Branch (d): nothing to send in a read. -/
def State.txAckRead (s : State) : State := { s with fsm := 5 }

/-- EV_TX_ACK (R133): the four tests in their order. -/
def execEvTxAck (s : State) : Answered :=
  .next (State.eventDone
    (if s.sendStartNext then s.txAckRestart
    else if s.sendSubAddress then s.txAckSubAddress
    else if s.direction then s.txAckRead
    else if 0 < s.bytesRemaining then s.txAckData
    else s.complete))

/-- EV_TX_NACK (R134): retry, or the failure handler with cause NACK. -/
def execEvTxNack (s : State) : Answered :=
  .next (State.eventDone
    (if s.ackPollOnAddressNack then { s with sta := true, fsm := 1 } else s.raiseFailure causeNack))

/-- The first half of EV_RX: store the byte while bytes are wanted. -/
def State.rxStore (s : State) : State :=
  if 0 < s.bytesRemaining then { (s.memWrite s.dataCursor s.dat).advance with ackrq := true } else s

/-- The second half, tested after the decrement: the last byte is refused and the transfer ends. -/
def State.rxFinish (s : State) : State :=
  if s.bytesRemaining = 0 then { s.complete with ackrq := false } else s

/-- EV_RX (R135). -/
def execEvRx (s : State) : Answered := .next s.rxStore.rxFinish.eventDone

/-- EV_OTHER (R136): the failure handler with cause BUS_ERROR, whatever the code. -/
def execEvOther (_code : BitVec 3) (s : State) : Answered := .next (s.raiseFailure causeBusError).eventDone

end Sys2Proof.Machine
end

