-- ==== Sys2Proof/Machine/HostMem.lean ====
section
/-! DEFINITION. The host's accesses to buffer memory (40_host_access R113, R114), performed in every state. -/

namespace Sys2Proof.Machine

/-- MRD (R114): the byte at the address goes to the read data of the host side of the memory port. -/
def execMrd (addr : Addr) (_data : Byte) (s : State) : Answered := .next { s with memRdata := s.memRead addr }

/-- MWR (R113). -/
def execMwr (addr : Addr) (data : Byte) (s : State) : Answered := .next (s.memWrite addr data)

end Sys2Proof.Machine
end

