-- ==== Sys2Proof/Machine/HostWrite.lean ====
section
/-! DEFINITION. The host register writes (40_host_access R102 to R111, R126), each behind the gate of R100. -/

namespace Sys2Proof.Machine

/-- HWR.CTL.DISABLE (R102): `EN` to 0 and the internal reset. -/
def execHwrCtlDisable (_wdata : Word16) (s : State) : Answered := .next (s.hostWrite fun s => (s.setEn false).periphReset)

/-- HWR.CTL.ENABLE (R103). -/
def execHwrCtlEnable (_wdata : Word16) (s : State) : Answered := .next (s.hostWrite fun s => s.setEn true)

/-- The start of a transfer. -/
def State.startTransfer (s : State) : State :=
  { s with
    en := true
    sta := true
    busy := true
    wdtCount := 0
    fsm := 1
    result := 0 }

/-- HWR.CTL.GO (R104). -/
def execHwrCtlGo (_wdata : Word16) (s : State) : Answered := .next (s.hostWrite State.startTransfer)

/-- HWR.DAT (R105): ignored in every state. -/
def execHwrDat (_wdata : Word16) (s : State) : Answered := .next s

/-- HWR.TADDR (R106). -/
def execHwrTaddr (wdata : Word16) (s : State) : Answered :=
  .next (s.hostWrite fun s => { s with targetAddress := taddrOf wdata })

/-- HWR.SUBADDR (R107). -/
def execHwrSubaddr (wdata : Word16) (s : State) : Answered :=
  .next (s.hostWrite fun s => { s with subAddress := lowByteOf wdata })

/-- HWR.FLAGS (R108). -/
def execHwrFlags (wdata : Word16) (s : State) : Answered :=
  .next (s.hostWrite fun s =>
    { s with
      direction := dirOf wdata
      sendSubAddress := ssaOf wdata
      repeatedStartForRead := rsrOf wdata
      ackPollOnAddressNack := apnOf wdata })

/-- HWR.CURSOR (R109). -/
def execHwrCursor (wdata : Word16) (s : State) : Answered :=
  .next (s.hostWrite fun s => { s with dataCursor := wdata })

/-- HWR.REMAIN (R110). -/
def execHwrRemain (wdata : Word16) (s : State) : Answered :=
  .next (s.hostWrite fun s => { s with bytesRemaining := lowByteOf wdata })

/-- HWR.STAT (R111): ignored in every state. -/
def execHwrStat (_wdata : Word16) (s : State) : Answered := .next s

/-- HWR.COUNT (R111): ignored in every state. -/
def execHwrCount (_wdata : Word16) (s : State) : Answered := .next s

/-- HWR.RSV (R126): ignored in every state. -/
def execHwrRsv (_reg : BitVec 4) (_wdata : Word16) (s : State) : Answered := .next s

end Sys2Proof.Machine
end

