-- ==== Sys2Proof/Machine/LineUnit.lean ====
section
/-! DEFINITION. The line unit's operations (42_line_unit R152 to R157). -/

namespace Sys2Proof.Machine

/-- The line unit latches a status: `STATUS` and `SI`. -/
def State.latch (s : State) (status : BitVec 3) : State := { s with status := status, si := true }

/-- LU_ACK (R152): the acknowledge of the byte just received. -/
def execLuAck (s : State) : Answered :=
  .next { (s.emit (if s.ackrq then .masterAck else .masterNack)) with luAckPend := false }

/-- LU_STOP (R153). -/
def execLuStop (s : State) : Answered :=
  .next { (s.emit .stop) with sto := false, luPhase := .idle, luDatFull := false }

/-- LU_START (R154): a START from an idle line unit, else a repeated START. -/
def execLuStart (s : State) : Answered :=
  .next (State.latch
    { (s.emit (if s.luPhase = .idle then .start else .repeatedStart)) with luPhase := .addr, luDatFull := false } 0b001)

/-- LU_RXBYTE (R155). -/
def execLuRxbyte (b : Byte) (s : State) : Answered :=
  .next (State.latch { (s.emit (.rx b)) with dat := b, luAckPend := true } 0b100)

/-- The phase after a transmitted byte (R156): an acknowledged read address turns the line unit into a receiver. -/
def State.phaseAfterTx (s : State) (a : Ack) : LuPhase :=
  if s.luPhase = .addr ∧ s.dat.getLsbD 0 = true ∧ a = .ack then .rx else .tx

/-- LU_TXBYTE (R156). The phase the rule tests is the line unit's own. -/
def execLuTxbyte (_row : TxRow) (a : Ack) (s : State) : Answered :=
  .next (State.latch { (s.emit (.tx s.dat a)) with luDatFull := false, luPhase := s.phaseAfterTx a } (txStatus a))

/-- LU_FAULT (R157). -/
def execLuFault (f : FaultStatus) (s : State) : Answered := .next (s.latch (faultCode f))

end Sys2Proof.Machine
end

