-- ==== Sys2Proof/Machine/Reset.lean ====
section
/-! DEFINITION. The reset operation (70_reset_and_hazards R220). -/

namespace Sys2Proof.Machine

/-- RESET (R220), in any state. -/
def execReset (s : State) : Answered := .next s.hardReset

end Sys2Proof.Machine
end

