-- ==== Sys2Proof/Machine/Watchdog.lean ====
section
/-! DEFINITION. The watchdog's ticks (60_exceptions R195, R196). -/

namespace Sys2Proof.Machine

/-- WDT_TICK.IDLE (R195): nothing counts. -/
def execWdtTickIdle (s : State) : Answered := .next s

/-- WDT_TICK.COUNT (R195). -/
def execWdtTickCount (s : State) : Answered := .next { s with wdtCount := s.wdtCount + 1 }

/-- WDT_TICK.ABORT (R196). -/
def execWdtTickAbort (s : State) : Answered := .next (s.raiseFailure causeTimeout)

end Sys2Proof.Machine
end

