-- ==== Sys2Proof/Machine/Dispatch.lean ====
section
/-! DEFINITION. The meaning of each operation: one arm per constructor of `Instr`. An operation's enabling condition is the
word that selects it, which `fetch` reads from the state; `exec` does not test it again (log 3). -/

namespace Sys2Proof.Machine

def exec (i : Instr) (s : State) : Host.Outcome State Fault Refusal :=
  match i with
  -- Host register reads (R116 to R125)
  | .hrdCtl wdata => Sys2Proof.Machine.execHrdCtl wdata s
  | .hrdDat wdata => Sys2Proof.Machine.execHrdDat wdata s
  | .hrdTaddr wdata => Sys2Proof.Machine.execHrdTaddr wdata s
  | .hrdSubaddr wdata => Sys2Proof.Machine.execHrdSubaddr wdata s
  | .hrdFlags wdata => Sys2Proof.Machine.execHrdFlags wdata s
  | .hrdCursor wdata => Sys2Proof.Machine.execHrdCursor wdata s
  | .hrdRemain wdata => Sys2Proof.Machine.execHrdRemain wdata s
  | .hrdStat wdata => Sys2Proof.Machine.execHrdStat wdata s
  | .hrdCount wdata => Sys2Proof.Machine.execHrdCount wdata s
  | .hrdRsv reg wdata => Sys2Proof.Machine.execHrdRsv reg wdata s
  -- Host register writes (R102 to R111, R126)
  | .hwrCtlDisable wdata => Sys2Proof.Machine.execHwrCtlDisable wdata s
  | .hwrCtlEnable wdata => Sys2Proof.Machine.execHwrCtlEnable wdata s
  | .hwrCtlGo wdata => Sys2Proof.Machine.execHwrCtlGo wdata s
  | .hwrDat wdata => Sys2Proof.Machine.execHwrDat wdata s
  | .hwrTaddr wdata => Sys2Proof.Machine.execHwrTaddr wdata s
  | .hwrSubaddr wdata => Sys2Proof.Machine.execHwrSubaddr wdata s
  | .hwrFlags wdata => Sys2Proof.Machine.execHwrFlags wdata s
  | .hwrCursor wdata => Sys2Proof.Machine.execHwrCursor wdata s
  | .hwrRemain wdata => Sys2Proof.Machine.execHwrRemain wdata s
  | .hwrStat wdata => Sys2Proof.Machine.execHwrStat wdata s
  | .hwrCount wdata => Sys2Proof.Machine.execHwrCount wdata s
  | .hwrRsv reg wdata => Sys2Proof.Machine.execHwrRsv reg wdata s
  -- Buffer memory (R113, R114)
  | .mrd addr data => Sys2Proof.Machine.execMrd addr data s
  | .mwr addr data => Sys2Proof.Machine.execMwr addr data s
  -- Engine events (R132 to R136)
  | .evStart => Sys2Proof.Machine.execEvStart s
  | .evTxAck => Sys2Proof.Machine.execEvTxAck s
  | .evTxNack => Sys2Proof.Machine.execEvTxNack s
  | .evRx => Sys2Proof.Machine.execEvRx s
  | .evOther code => Sys2Proof.Machine.execEvOther code s
  -- Line unit (R152 to R157)
  | .luAck => Sys2Proof.Machine.execLuAck s
  | .luStop => Sys2Proof.Machine.execLuStop s
  | .luStart => Sys2Proof.Machine.execLuStart s
  | .luRxbyte b => Sys2Proof.Machine.execLuRxbyte b s
  | .luTxbyte row a => Sys2Proof.Machine.execLuTxbyte row a s
  | .luFault f => Sys2Proof.Machine.execLuFault f s
  -- Watchdog (R195, R196) and reset (R220)
  | .wdtTickIdle => Sys2Proof.Machine.execWdtTickIdle s
  | .wdtTickCount => Sys2Proof.Machine.execWdtTickCount s
  | .wdtTickAbort => Sys2Proof.Machine.execWdtTickAbort s
  | .reset => Sys2Proof.Machine.execReset s

end Sys2Proof.Machine
end

