-- ==== Sys2Proof/WellFormed.lean ====
section
/-! DEFINITION. Which operation terms stand for a word of the encoding (30_encoding R71, R74). -/

namespace Sys2Proof

/-- A reserved register index, 9 to 15 (10_state R42). -/
def reservedReg (reg : BitVec 4) : Bool := 9#4 ≤ reg

/-- A `STATUS` code of the `EV_OTHER` row (30_encoding R74). -/
def otherStatus (code : BitVec 3) : Bool :=
  code == 0b000#3 || code == 0b101#3 || code == 0b110#3 || code == 0b111#3

/-- The operands are ones the encoding of the operation admits: the bits of `WDATA` that select among the writes of `CTL`
(R71), the reserved register indices (R42), the status codes of `EV_OTHER` (R74). -/
def Instr.wellFormed : Instr → Bool
  | .hrdCtl _ => true
  | .hrdDat _ => true
  | .hrdTaddr _ => true
  | .hrdSubaddr _ => true
  | .hrdFlags _ => true
  | .hrdCursor _ => true
  | .hrdRemain _ => true
  | .hrdStat _ => true
  | .hrdCount _ => true
  | .hrdRsv reg _ => reservedReg reg
  | .hwrCtlDisable wdata => !wdata.getLsbD 7
  | .hwrCtlEnable wdata => wdata.getLsbD 7 && !wdata.getLsbD 5
  | .hwrCtlGo wdata => wdata.getLsbD 7 && wdata.getLsbD 5
  | .hwrDat _ => true
  | .hwrTaddr _ => true
  | .hwrSubaddr _ => true
  | .hwrFlags _ => true
  | .hwrCursor _ => true
  | .hwrRemain _ => true
  | .hwrStat _ => true
  | .hwrCount _ => true
  | .hwrRsv reg _ => reservedReg reg
  | .mrd _ _ => true
  | .mwr _ _ => true
  | .evStart => true
  | .evTxAck => true
  | .evTxNack => true
  | .evRx => true
  | .evOther code => otherStatus code
  | .luAck => true
  | .luStop => true
  | .luStart => true
  | .luRxbyte _ => true
  | .luTxbyte _ _ => true
  | .luFault _ => true
  | .wdtTickIdle => true
  | .wdtTickCount => true
  | .wdtTickAbort => true
  | .reset => true

end Sys2Proof
end

