-- ==== Sys2Proof/Decode.lean ====
section
/-! DEFINITION. The six decoders of 30_encoding R70, one per agent interface and one for reset, and the encoder. -/

namespace Sys2Proof

/-! ### Format HOST (30_encoding R71) -/

/-- `WE`, bit 20. -/
def hostWe (w : BitVec 21) : Bool := w.getLsbD 20

/-- `REG`, bits 19:16. -/
def hostReg (w : BitVec 21) : BitVec 4 := w.extractLsb' 16 4

/-- `WDATA`, bits 15:0. -/
def hostWdata (w : BitVec 21) : Word16 := w.extractLsb' 0 16

/-- The HOST word with the given fields. -/
def hostWord (we : Bool) (reg : BitVec 4) (wdata : Word16) : BitVec 21 := bit we ++ reg ++ wdata

/-- The read selected by `REG` (10_state R42). -/
def decodeHostRead (reg : BitVec 4) (wdata : Word16) : Instr :=
  match reg.toNat with
  | 0 => .hrdCtl wdata
  | 1 => .hrdDat wdata
  | 2 => .hrdTaddr wdata
  | 3 => .hrdSubaddr wdata
  | 4 => .hrdFlags wdata
  | 5 => .hrdCursor wdata
  | 6 => .hrdRemain wdata
  | 7 => .hrdStat wdata
  | 8 => .hrdCount wdata
  | _ => .hrdRsv reg wdata

/-- The write of `CTL` selected by `WDATA[7]` and `WDATA[5]`. -/
def decodeCtlWrite (wdata : Word16) : Instr :=
  if wdata.getLsbD 7 then
    if wdata.getLsbD 5 then .hwrCtlGo wdata else .hwrCtlEnable wdata
  else .hwrCtlDisable wdata

/-- The write selected by `REG`. -/
def decodeHostWrite (reg : BitVec 4) (wdata : Word16) : Instr :=
  match reg.toNat with
  | 0 => decodeCtlWrite wdata
  | 1 => .hwrDat wdata
  | 2 => .hwrTaddr wdata
  | 3 => .hwrSubaddr wdata
  | 4 => .hwrFlags wdata
  | 5 => .hwrCursor wdata
  | 6 => .hwrRemain wdata
  | 7 => .hwrStat wdata
  | 8 => .hwrCount wdata
  | _ => .hwrRsv reg wdata

/-- The host register port's decoder: every word selects one operation. -/
def decodeHost (w : BitVec 21) : Instr :=
  if hostWe w then decodeHostWrite (hostReg w) (hostWdata w) else decodeHostRead (hostReg w) (hostWdata w)

/-! ### Format HMEM (30_encoding R72) -/

/-- `WE`, bit 24. -/
def hmemWe (w : BitVec 25) : Bool := w.getLsbD 24

/-- `ADDR`, bits 23:8. -/
def hmemAddr (w : BitVec 25) : Addr := w.extractLsb' 8 16

/-- `DATA`, bits 7:0. -/
def hmemData (w : BitVec 25) : Byte := w.extractLsb' 0 8

/-- The HMEM word with the given fields. -/
def hmemWord (we : Bool) (addr : Addr) (data : Byte) : BitVec 25 := bit we ++ addr ++ data

/-- The decoder of the host side of the buffer-memory port: every word selects one operation. -/
def decodeHmem (w : BitVec 25) : Instr :=
  if hmemWe w then .mwr (hmemAddr w) (hmemData w) else .mrd (hmemAddr w) (hmemData w)

/-! ### Format STATUS (30_encoding R73, R74; 41_engine_events R130) -/

/-- The event step a `STATUS` code selects. -/
def decodeStatusCode (code : BitVec 3) : Instr :=
  match code.toNat with
  | 1 => .evStart
  | 2 => .evTxAck
  | 3 => .evTxNack
  | 4 => .evRx
  | _ => .evOther code

/-- The engine's arbiter: a step exactly when `CTL & 0xC0 = 0xC0`, chosen by the three low bits. -/
def decodeStatus (w : BitVec 8) : Decoded :=
  if w &&& 0xC0#8 = 0xC0#8 then .op (decodeStatusCode (w.extractLsb' 0 3)) else .none .engineNotEnabled

/-! ### Format LINE (30_encoding R75) -/

/-- The nominal line unit's operation: the matching row of R75, each given by its match and mask. -/
def decodeLineNominal (w : BitVec 8) (b : Byte) (a : Ack) : Decoded :=
  if w &&& 0xE0#8 = 0xA0#8 then .op .luAck
  else if w &&& 0xF0#8 = 0x90#8 then .op .luStop
  else if w &&& 0xF8#8 = 0x88#8 then .op .luStart
  else if w &&& 0xFE#8 = 0x86#8 then .op (.luRxbyte b)
  else if w = 0x83#8 then .op (.luTxbyte .addressByte a)
  else if w = 0x85#8 then .op (.luTxbyte .otherByte a)
  else .none .lineNoOperation

/-- The line unit's operation: a nominal row, or `LU_FAULT` where the environment takes that alternative. -/
def decodeLine (w : BitVec 8) : Draw → Decoded
  | .nominal b a => decodeLineNominal w b a
  | .fault f => if w &&& 0xC0#8 = 0x80#8 then .op (.luFault f) else .none .lineNoOperation

/-! ### Formats TIMER and RESET (30_encoding R76, R77) -/

/-- The watchdog's decoder: bit 1 is `busy`, bit 0 is `last`. -/
def decodeTimer (w : BitVec 2) : Instr :=
  if w.getLsbD 1 then
    if w.getLsbD 0 then .wdtTickAbort else .wdtTickCount
  else .wdtTickIdle

/-- The reset input's decoder. -/
def decodeReset (w : BitVec 1) : Decoded :=
  if w = 1#1 then .op .reset else .none .resetInputLow

/-! ### All six -/

/-- The operation a word selects at its interface (30_encoding R70), total on the words of every format. -/
def decode : Code → Decoded
  | .host w => .op (decodeHost w)
  | .hmem w => .op (decodeHmem w)
  | .status w => decodeStatus w
  | .line w d => decodeLine w d
  | .timer w => .op (decodeTimer w)
  | .reset w => decodeReset w

/-- A draw in which nothing is read. -/
def noDraw : Draw := .nominal 0#8 .ack

/-- The word of an operation, from the tables of 30_encoding R71 to R77. Where several words select the operation and its
operands do not tell them apart (the request bits of a STATUS word, the don't-care bits of a LINE word), the table's
`match` is taken. -/
def encode : Instr → Code
  | .hrdCtl wdata => .host (hostWord false 0 wdata)
  | .hrdDat wdata => .host (hostWord false 1 wdata)
  | .hrdTaddr wdata => .host (hostWord false 2 wdata)
  | .hrdSubaddr wdata => .host (hostWord false 3 wdata)
  | .hrdFlags wdata => .host (hostWord false 4 wdata)
  | .hrdCursor wdata => .host (hostWord false 5 wdata)
  | .hrdRemain wdata => .host (hostWord false 6 wdata)
  | .hrdStat wdata => .host (hostWord false 7 wdata)
  | .hrdCount wdata => .host (hostWord false 8 wdata)
  | .hrdRsv reg wdata => .host (hostWord false reg wdata)
  | .hwrCtlDisable wdata => .host (hostWord true 0 wdata)
  | .hwrCtlEnable wdata => .host (hostWord true 0 wdata)
  | .hwrCtlGo wdata => .host (hostWord true 0 wdata)
  | .hwrDat wdata => .host (hostWord true 1 wdata)
  | .hwrTaddr wdata => .host (hostWord true 2 wdata)
  | .hwrSubaddr wdata => .host (hostWord true 3 wdata)
  | .hwrFlags wdata => .host (hostWord true 4 wdata)
  | .hwrCursor wdata => .host (hostWord true 5 wdata)
  | .hwrRemain wdata => .host (hostWord true 6 wdata)
  | .hwrStat wdata => .host (hostWord true 7 wdata)
  | .hwrCount wdata => .host (hostWord true 8 wdata)
  | .hwrRsv reg wdata => .host (hostWord true reg wdata)
  | .mrd addr data => .hmem (hmemWord false addr data)
  | .mwr addr data => .hmem (hmemWord true addr data)
  | .evStart => .status 0xC1
  | .evTxAck => .status 0xC2
  | .evTxNack => .status 0xC3
  | .evRx => .status 0xC4
  | .evOther code => .status (0b11000#5 ++ code)
  | .luAck => .line 0xA0 noDraw
  | .luStop => .line 0x90 noDraw
  | .luStart => .line 0x88 noDraw
  | .luRxbyte b => .line 0x86 (.nominal b .ack)
  | .luTxbyte .addressByte a => .line 0x83 (.nominal 0#8 a)
  | .luTxbyte .otherByte a => .line 0x85 (.nominal 0#8 a)
  | .luFault f => .line 0x80 (.fault f)
  | .wdtTickIdle => .timer 0b00
  | .wdtTickCount => .timer 0b10
  | .wdtTickAbort => .timer 0b11
  | .reset => .reset 1

/-! ### The opcode table's words (log 14) -/

/-- The choice taken with a bare LINE word: zero draws, and `LU_FAULT` (ARB_LOST) where no nominal row matches. -/
def tableDraw (w : BitVec 8) : Draw :=
  match decodeLineNominal w 0#8 .ack with
  | .op _ => noDraw
  | .none _ => .fault .arbLost

/-- An 8-bit word of the opcode table: the formats STATUS (top bits 11), LINE (top bits 10), TIMER and RESET share the
width in whole bytes and are told apart by their words; 1 is read as the reset input. -/
def tableCode8 (w : Nat) : Option Code :=
  if 0xC0 ≤ w then some (.status (BitVec.ofNat 8 w))
  else if 0x80 ≤ w then some (.line (BitVec.ofNat 8 w) (tableDraw (BitVec.ofNat 8 w)))
  else if w = 1 then some (.reset 1)
  else if w < 4 then some (.timer (BitVec.ofNat 2 w))
  else none

/-- The word of the opcode table with `nbits` bits, at the decoder its width belongs to. -/
def tableCode (nbits w : Nat) : Option Code :=
  match nbits with
  | 21 | 24 => if w < 2 ^ 21 then some (.host (BitVec.ofNat 21 w)) else none
  | 25 | 32 => if w < 2 ^ 25 then some (.hmem (BitVec.ofNat 25 w)) else none
  | 8 => if w < 2 ^ 8 then tableCode8 w else none
  | 2 => if w < 4 then some (.timer (BitVec.ofNat 2 w)) else none
  | 1 => if w < 2 then some (.reset (BitVec.ofNat 1 w)) else none
  | _ => none

/-- The operation the decoder reads from a word of the opcode table. -/
def decodeTableWord (nbits w : Nat) : Option Instr :=
  match tableCode nbits w with
  | some c =>
    match decode c with
    | .op i => some i
    | .none _ => none
  | none => none

end Sys2Proof
end

