-- ==== Sys2Proof/Machine/Target.lean ====
section
/-! DEFINITION. The mock target EE (42_line_unit R159): one device that may stand behind the line unit and answer its draws.
The block does not depend on it. -/

namespace Sys2Proof.Machine

/-- The target's own address (R159): 0xA0 without its low bit. -/
def Target.ownAddress : BitVec 7 := 0x50

/-- `mem[p]`: an unlisted byte is 0xFF. -/
def Target.read (t : Target) (p : Byte) : Byte := (cellAt t.mem p.toNat).getD 0xFF

/-- `mem[p] <- b`, keeping the list free of 0xFF. -/
def Target.write (t : Target) (p : Byte) (b : Byte) : Target :=
  { t with mem := if b = 0xFF then dropCell t.mem p.toNat else setCell t.mem p.toNat b }

/-- The canonical form of the target's memory: addresses strictly rising below 256, no 0xFF listed. -/
def Target.wf (t : Target) : Bool := cellsFrom 0 256 t.mem && t.mem.all fun c => c.2 != 0xFF

/-- `T(b, ?)` in phase ADDR: the acknowledge of an address byte. -/
def Target.onAddress (t : Target) (b : Byte) : Ack × Target :=
  if b.extractLsb' 1 7 ≠ Target.ownAddress then (.nack, t)
  else if 0 < t.nacks then (.nack, { t with nacks := t.nacks - 1 })
  else (.ack, if b.getLsbD 0 then t else { t with first := true })

/-- `T(b, ?)` in phase TX: the pointer, then data bytes; always acknowledged. -/
def Target.onByte (t : Target) (b : Byte) : Ack × Target :=
  if t.first then (.ack, { t with ptr := b, first := false })
  else (.ack, { t.write t.ptr b with ptr := t.ptr + 1 })

/-- `R(?)`: the byte at the pointer. -/
def Target.onRead (t : Target) : Byte × Target := (t.read t.ptr, { t with ptr := t.ptr + 1 })

/-- The draw the mock target answers the line unit's enabled operation with, and its own next state. Only a transmitted and a
received byte reach it. -/
def State.mockAnswer (s : State) : Draw × Target :=
  match decodeLineNominal s.lineWord 0 .ack with
  | .op (.luTxbyte .addressByte _) => (.nominal 0 (s.ee.onAddress s.dat).1, (s.ee.onAddress s.dat).2)
  | .op (.luTxbyte .otherByte _) => (.nominal 0 (s.ee.onByte s.dat).1, (s.ee.onByte s.dat).2)
  | .op (.luRxbyte _) => (.nominal s.ee.onRead.1 .ack, s.ee.onRead.2)
  | _ => (noDraw, s.ee)

end Sys2Proof.Machine
end

