-- ==== Sys2Proof/Machine/Fetch.lean ====
section
/-! DEFINITION. Which operation comes next: the agent the schedule offers the step to, and the word it presents to its decoder
(00_scope R4, R5; 30_encoding R70). What a word of the opcode table is placed as. -/

namespace Sys2Proof.Machine

/-- The HOST word of a read of `STAT`, which WAIT repeats (40_host_access R127). -/
def readStatWord : BitVec 21 := hostWord false 7 0

/-- WAIT goes on until the `STAT` value read has bit 0 (`BUSY`) = 0 (30_encoding R83, 40_host_access R127). -/
def State.waitOver (s : State) : Bool := !s.statView.getLsbD 0

/-- Which buffers belong to the engine once the host has issued a register word (70_reset_and_hazards R225, log 12): a GO that
starts a transfer gives it one more, and reading `busy` as 0 takes them all back. -/
def State.windowsAfter (s : State) (w : BitVec 21) : List BufWindow :=
  match decodeHost w with
  | .hwrCtlGo _ => if s.busy then s.windows else ⟨s.dataCursor, s.bytesRemaining⟩ :: s.windows
  | .hrdStat _ => if s.busy then s.windows else []
  | _ => s.windows

/-- The host issues a register word, with `prog` still to come. -/
def State.issue (s : State) (w : BitVec 21) (prog : List HostCmd) : Turn × State :=
  (.word (.host w), { s with hostProg := prog, windows := s.windowsAfter w })

/-- The host's turn: the first operation of its program; WAIT stays first until it is over. -/
def State.hostTurn (s : State) : Turn × State :=
  match s.hostProg with
  | [] => (.pass, s)
  | .reg w :: rest => s.issue w rest
  | .mem w :: rest => (.word (.hmem w), { s with hostProg := rest })
  | .wait :: rest => s.issue readStatWord (if s.waitOver then rest else .wait :: rest)

/-- A status event and the aborting tick are both enabled (60_exceptions R199): `EN` = 1, `SI` = 1 and `TW` = 0b11. -/
def State.bothEnabled (s : State) : Bool := s.engineEnabled && s.abortDue

/-- Under `wdt_first` the engine does not step while the abort is enabled too (R199, log 7). -/
def State.engineYields (s : State) : Bool := s.cfg.eventOrder == .wdtFirst && s.bothEnabled

/-- The engine's turn: the value of `CTL` goes to its arbiter, unless the abort comes first. -/
def State.engineTurn (s : State) : Turn × State :=
  if s.engineYields then (.pass, s) else (.word (.status s.ctlView), s)

/-- The nominal line unit's turn (42_line_unit R150): under `unconstrained` it has none. -/
def State.lineTurn (s : State) (t : Answer) : Turn × State :=
  if s.cfg.luMode = .unconstrained then (.pass, s)
  else
    match t with
    | .drawn b a => (.word (.line s.lineWord (.nominal b a)), s)
    | .mock => (.word (.line s.lineWord s.mockAnswer.1), { s with ee := s.mockAnswer.2 })

/-- The line unit reports a fault: only under `nominal_with_faults` (42_line_unit R150, R157). -/
def State.faultTurn (s : State) (f : FaultStatus) : Turn × State :=
  if s.cfg.luMode = .nominalWithFaults then (.word (.line s.lineWord (.fault f)), s) else (.pass, s)

/-- The unconstrained line unit's turn (42_line_unit R160). -/
def State.freeTurn (s : State) (status : BitVec 3) (load : Option Byte) (clearSto : Bool) : Turn × State :=
  if s.cfg.luMode = .unconstrained ∧ s.lineMayStep then (.free status load clearSto, s) else (.pass, s)

/-- Under `engine_first` a pending status is handled before an aborting tick (R199, log 7). -/
def State.tickYields (s : State) : Bool := s.cfg.eventOrder == .engineFirst && s.bothEnabled

/-- A tick has arrived: the timer condition word goes to the watchdog. `pending` is the state in which the tick has not been
taken. -/
def State.tickTurn (s pending : State) : Turn × State :=
  if s.tickYields then (.word (.status s.ctlView), pending) else (.word (.timer s.timerWord), s)

/-- The turn the schedule offers, and the state it is taken in: without the input used up. With no input left nobody steps. -/
def fetch (s : State) : Turn × State :=
  match s.inputs with
  | [] => (.pass, s)
  | .host :: rest => ({ s with inputs := rest } : State).hostTurn
  | .engine :: rest => ({ s with inputs := rest } : State).engineTurn
  | .line t :: rest => ({ s with inputs := rest } : State).lineTurn t
  | .lineFault f :: rest => ({ s with inputs := rest } : State).faultTurn f
  | .lineFree status load clearSto :: rest => ({ s with inputs := rest } : State).freeTurn status load clearSto
  | .tick :: rest => ({ s with inputs := rest } : State).tickTurn s
  | .reset w :: rest => (.word (.reset w), { s with inputs := rest })

/-! ### Placing a word (log 14) -/

/-- `s` with `CTL` at the value `w`: a STATUS word is the value of `CTL` (30_encoding R73). -/
def State.setCtl (s : State) (w : BitVec 8) : State :=
  { s with
    en := w.getLsbD 7
    si := w.getLsbD 6
    sta := w.getLsbD 5
    sto := w.getLsbD 4
    ackrq := w.getLsbD 3
    status := w.extractLsb' 0 3 }

/-- `s` with the line condition word at the value `w` (30_encoding R75). -/
def State.setLineWord (s : State) (w : BitVec 8) : State :=
  { s with
    en := w.getLsbD 7
    si := w.getLsbD 6
    luAckPend := w.getLsbD 5
    sto := w.getLsbD 4
    sta := w.getLsbD 3
    luPhase := phaseOfBits (w.extractLsb' 1 2)
    luDatFull := w.getLsbD 0 }

/-- `s` with the timer condition word at the value `w` (30_encoding R76), and no order imposed that would put a pending status
before the tick. -/
def State.setTimerWord (s : State) (w : BitVec 2) : State :=
  { s with
    busy := w.getLsbD 1
    wdtCount := if w.getLsbD 0 then s.cfg.wdtTerminal else if s.cfg.wdtTerminal = 0 then 1 else 0
    cfg := { s.cfg with eventOrder := .either } }

/-- The input that lets the line unit take a draw. -/
def inputOfDraw : Draw → Input
  | .nominal b a => .line (.drawn b a)
  | .fault f => .lineFault f

/-- `s` with a word placed where the next step takes its operation from: a host word at the head of the host's program, a
condition word in the state it is read from, and its agent's turn next. -/
def State.placeCode (s : State) : Code → State
  | .host w => { s with hostProg := .reg w :: s.hostProg, inputs := .host :: s.inputs }
  | .hmem w => { s with hostProg := .mem w :: s.hostProg, inputs := .host :: s.inputs }
  | .status w =>
    { s.setCtl w with
      cfg := { s.cfg with eventOrder := .either }
      inputs := .engine :: s.inputs }
  | .line w d =>
    { s.setLineWord w with
      cfg := { s.cfg with luMode := .nominalWithFaults }
      inputs := inputOfDraw d :: s.inputs }
  | .timer w => { s.setTimerWord w with inputs := .tick :: s.inputs }
  | .reset w => { s with inputs := .reset w :: s.inputs }

/-- `s` with a word of the opcode table placed; unchanged where the table has no word of that width and value. -/
def State.placeTableWord (s : State) (nbits w : Nat) : State :=
  match tableCode nbits w with
  | some c => s.placeCode c
  | none => s

end Sys2Proof.Machine
end

