-- ==== Sys2Proof/Machine/Run.lean ====
section
/-! DEFINITION. Taking the turn `fetch` found: decode the word and execute its operation; a word that selects no operation, or
an agent that passes, leaves the state the turn was taken in (log 1). -/

namespace Sys2Proof.Machine

/-- The outcome of a turn. -/
def perform (t : Turn) (s : State) : Answered :=
  match t with
  | .pass => .next s
  | .word c =>
    match decode c with
    | .op i => exec i s
    | .none _ => .next s
  | .free status load clearSto => .next (s.lineUnconstrained status load clearSto)

end Sys2Proof.Machine
end

