-- ==== Sys2Proof/Machine/Step.lean ====
section
/-! DEFINITION. One step of the machine, and placing an instruction where the next step takes it. -/

namespace Sys2Proof.Machine

/-- One atomic step of the agent whose turn it is (00_scope R5). -/
def step (s : State) : Host.Outcome State Fault Refusal := perform (fetch s).1 (fetch s).2

/-- `s` with the instruction of the opcode table's word `w` as the one the next step runs. -/
def State.withFetchWord (s : State) (nbits w : Nat) : State := s.placeTableWord nbits w

end Sys2Proof.Machine
end

