-- ==== Sys2Proof/Machine/Api.lean ====
section
/-! DEFINITION. The pseudo-operations of the host (30_encoding R83) and the four macros of the Public Transfer API
(43_public_api R170 to R174), each as the host operations it expands to. A macro runs by standing in `hostProg`. -/

namespace Sys2Proof.Machine

/-- `HWR <REG>, v`. -/
def hwr (reg : BitVec 4) (v : Word16) : HostCmd := .reg (hostWord true reg v)

/-- `HRD <REG>`. -/
def hrd (reg : BitVec 4) : HostCmd := .reg (hostWord false reg 0)

/-- `ENABLE` (R83). -/
def apiEnable : List HostCmd := [hwr 0 0x80]

/-- `DISABLE` (R83). -/
def apiDisable : List HostCmd := [hwr 0 0x00]

/-- `GO` (R83). -/
def apiGo : List HostCmd := [hwr 0 0xA0]

/-- `WAIT` (R83, 40_host_access R127). -/
def apiWait : List HostCmd := [.wait]

/-- The common shape of a transfer (R170): wait, fill, set up, GO, wait. -/
def apiTransfer (fill : List HostCmd) (t s f : Byte) (c : Addr) (n : Byte) : List HostCmd :=
  apiWait ++ fill ++
    [hwr 2 (t.setWidth 16), hwr 3 (s.setWidth 16), hwr 4 (f.setWidth 16), hwr 5 c, hwr 6 (n.setWidth 16)] ++
    apiGo ++ apiWait

/-- `FLAGS` of a write: `APN` = 1, `RSR` = 0, `SSA` = 1, `DIR` = WRITE (R171). -/
def writeFlags : Byte := 0x0A

/-- `FLAGS` of a random read: `APN` = 1, `RSR` = 1, `SSA` = 1, `DIR` = WRITE (R174). -/
def readFlags : Byte := 0x0E

/-- `WRITEBYTE t, s, v, scratch` (R171). -/
def apiWriteByte (t s v : Byte) (scratch : Addr) : List HostCmd :=
  apiTransfer [.mem (hmemWord true scratch v)] t s writeFlags scratch 1

/-- `WRITEBUF t, s, buf, n` (R172): `n` transfers of one byte, the sub-address modulo 256 and the buffer modulo 2^16. -/
def apiWriteBuf (t s : Byte) (buf : Addr) : Nat → List HostCmd
  | 0 => []
  | n + 1 => apiTransfer [] t s writeFlags buf 1 ++ apiWriteBuf t (s + 1) (buf + 1) n

/-- `READBUF t, s, buf, n` (R174). -/
def apiReadBuf (t s : Byte) (buf : Addr) (n : Byte) : List HostCmd := apiTransfer [] t s readFlags buf n

/-- `READBYTE t, s, scratch` (R173): the value returned is the read data of the last `MRD`. -/
def apiReadByte (t s : Byte) (scratch : Addr) : List HostCmd :=
  apiReadBuf t s scratch 1 ++ [.mem (hmemWord false scratch 0)]

end Sys2Proof.Machine
end

