-- ==== Sys2Proof/Safety.lean ====
section
/-! DEFINITION. What counts as a safe run, in the terms the claims use: the host's discipline and the step that refuses a
program that breaks it, the invariants of 10_state R48, the language of the wire trace (42_line_unit R161), and equality up to
the shadows (10_state R31 to R33, R46). -/

namespace Sys2Proof.Machine

/-! ### The host's discipline -/

/-- The host register writes. -/
def isHostWrite : Instr → Bool
  | .hwrCtlDisable _ | .hwrCtlEnable _ | .hwrCtlGo _ | .hwrDat _ | .hwrTaddr _ | .hwrSubaddr _ | .hwrFlags _ | .hwrCursor _
  | .hwrRemain _ | .hwrStat _ | .hwrCount _ | .hwrRsv _ _ => true
  | .hrdCtl _ | .hrdDat _ | .hrdTaddr _ | .hrdSubaddr _ | .hrdFlags _ | .hrdCursor _ | .hrdRemain _ | .hrdStat _ | .hrdCount _
  | .hrdRsv _ _ | .mrd _ _ | .mwr _ _ | .evStart | .evTxAck | .evTxNack | .evRx | .evOther _ | .luAck | .luStop | .luStart
  | .luRxbyte _ | .luTxbyte _ _ | .luFault _ | .wdtTickIdle | .wdtTickCount | .wdtTickAbort | .reset => false

/-- The host register reads. -/
def isHostRead : Instr → Bool
  | .hrdCtl _ | .hrdDat _ | .hrdTaddr _ | .hrdSubaddr _ | .hrdFlags _ | .hrdCursor _ | .hrdRemain _ | .hrdStat _ | .hrdCount _
  | .hrdRsv _ _ => true
  | .hwrCtlDisable _ | .hwrCtlEnable _ | .hwrCtlGo _ | .hwrDat _ | .hwrTaddr _ | .hwrSubaddr _ | .hwrFlags _ | .hwrCursor _
  | .hwrRemain _ | .hwrStat _ | .hwrCount _ | .hwrRsv _ _ | .mrd _ _ | .mwr _ _ | .evStart | .evTxAck | .evTxNack | .evRx
  | .evOther _ | .luAck | .luStop | .luStart | .luRxbyte _ | .luTxbyte _ _ | .luFault _ | .wdtTickIdle | .wdtTickCount
  | .wdtTickAbort | .reset => false

/-- The host's accesses to buffer memory. -/
def isHostMem : Instr → Bool
  | .mrd _ _ | .mwr _ _ => true
  | .hrdCtl _ | .hrdDat _ | .hrdTaddr _ | .hrdSubaddr _ | .hrdFlags _ | .hrdCursor _ | .hrdRemain _ | .hrdStat _ | .hrdCount _
  | .hrdRsv _ _ | .hwrCtlDisable _ | .hwrCtlEnable _ | .hwrCtlGo _ | .hwrDat _ | .hwrTaddr _ | .hwrSubaddr _ | .hwrFlags _
  | .hwrCursor _ | .hwrRemain _ | .hwrStat _ | .hwrCount _ | .hwrRsv _ _ | .evStart | .evTxAck | .evTxNack | .evRx
  | .evOther _ | .luAck | .luStop | .luStart | .luRxbyte _ | .luTxbyte _ _ | .luFault _ | .wdtTickIdle | .wdtTickCount
  | .wdtTickAbort | .reset => false

/-- The engine's event steps. -/
def isEvent : Instr → Bool
  | .evStart | .evTxAck | .evTxNack | .evRx | .evOther _ => true
  | .hrdCtl _ | .hrdDat _ | .hrdTaddr _ | .hrdSubaddr _ | .hrdFlags _ | .hrdCursor _ | .hrdRemain _ | .hrdStat _ | .hrdCount _
  | .hrdRsv _ _ | .hwrCtlDisable _ | .hwrCtlEnable _ | .hwrCtlGo _ | .hwrDat _ | .hwrTaddr _ | .hwrSubaddr _ | .hwrFlags _
  | .hwrCursor _ | .hwrRemain _ | .hwrStat _ | .hwrCount _ | .hwrRsv _ _ | .mrd _ _ | .mwr _ _ | .luAck | .luStop | .luStart
  | .luRxbyte _ | .luTxbyte _ _ | .luFault _ | .wdtTickIdle | .wdtTickCount | .wdtTickAbort | .reset => false

/-- An address of `Mem[base .. base + len - 1]`, wrapping (70_reset_and_hazards R225, R235). -/
def BufWindow.holds (w : BufWindow) (a : Addr) : Bool := (a - w.base).toNat < w.len.toNat

/-- An address of a buffer that belongs to the engine: from GO until `busy` is read as 0 (R225). -/
def State.inWindow (s : State) (a : Addr) : Bool := s.windows.any (·.holds a)

/-- The flag combination of 70_reset_and_hazards R231. -/
def State.hangingFlags (s : State) : Bool := s.sendSubAddress && !s.repeatedStartForRead && s.direction

/-- The caller error an operation is, in the state it is issued in (93 U3, U4, U6, U16). -/
def callerError (i : Instr) (s : State) : Option CallerError :=
  if isHostWrite i && s.busy then some .writeWhileBusy
  else
    match i with
    | .mrd a _ => if s.inWindow a then some .bufferOfRunningTransfer else none
    | .mwr a _ => if s.inWindow a then some .bufferOfRunningTransfer else none
    | .hwrCtlGo _ => if s.hangingFlags then some .hangingFlags else none
    | .hwrRemain wdata => if 255 < wdata.toNat then some .lengthAbove255 else none
    | _ => none

/-- The caller error of the turn a state offers. -/
def turnError (t : Turn) (s : State) : Option CallerError :=
  match t with
  | .word c =>
    match decode c with
    | .op i => callerError i s
    | .none _ => none
  | .free _ _ _ => none
  | .pass => none

/-- The program-level step the spec asks for beside the hardware's (40_host_access R100, 93 U3, U4, U6, U16): it refuses a
program that breaks the host's discipline, and is `step` otherwise. -/
def strictStep (s : State) : Host.Outcome State Fault Refusal :=
  match turnError (fetch s).1 (fetch s).2 with
  | some e => .refused (.callerError e)
  | none => step s

/-! ### Enabling conditions -/

/-- The nominal line unit may step, and no acknowledge of a received byte is owed (42_line_unit R151, R152). -/
def State.lineFree (s : State) : Prop := s.lineMayStep = true ∧ s.luAckPend = false

/-- The enabling condition of each operation (00_scope R5): always for the host and for reset; 41_engine_events R130 for the
engine; 30_encoding R75 and 42_line_unit R150 for the line unit; 30_encoding R76 for the watchdog. -/
def State.enables (s : State) : Instr → Prop
  | .hrdCtl _ | .hrdDat _ | .hrdTaddr _ | .hrdSubaddr _ | .hrdFlags _ | .hrdCursor _ | .hrdRemain _ | .hrdStat _ | .hrdCount _
  | .hrdRsv _ _ | .hwrCtlDisable _ | .hwrCtlEnable _ | .hwrCtlGo _ | .hwrDat _ | .hwrTaddr _ | .hwrSubaddr _ | .hwrFlags _
  | .hwrCursor _ | .hwrRemain _ | .hwrStat _ | .hwrCount _ | .hwrRsv _ _ | .mrd _ _ | .mwr _ _ | .reset => True
  | .evStart => s.engineEnabled = true ∧ s.status = 1
  | .evTxAck => s.engineEnabled = true ∧ s.status = 2
  | .evTxNack => s.engineEnabled = true ∧ s.status = 3
  | .evRx => s.engineEnabled = true ∧ s.status = 4
  | .evOther code => s.engineEnabled = true ∧ s.status = code ∧ otherStatus code = true
  | .luAck => s.cfg.luMode ≠ .unconstrained ∧ s.lineMayStep = true ∧ s.luAckPend = true
  | .luStop => s.cfg.luMode ≠ .unconstrained ∧ s.lineFree ∧ s.sto = true
  | .luStart => s.cfg.luMode ≠ .unconstrained ∧ s.lineFree ∧ s.sto = false ∧ s.sta = true
  | .luRxbyte _ => s.cfg.luMode ≠ .unconstrained ∧ s.lineFree ∧ s.sto = false ∧ s.sta = false ∧ s.luPhase = .rx
  | .luTxbyte .addressByte _ =>
    s.cfg.luMode ≠ .unconstrained ∧ s.lineFree ∧ s.sto = false ∧ s.sta = false ∧ s.luPhase = .addr ∧ s.luDatFull = true
  | .luTxbyte .otherByte _ =>
    s.cfg.luMode ≠ .unconstrained ∧ s.lineFree ∧ s.sto = false ∧ s.sta = false ∧ s.luPhase = .tx ∧ s.luDatFull = true
  | .luFault _ => s.cfg.luMode = .nominalWithFaults ∧ s.lineMayStep = true
  | .wdtTickIdle => s.busy = false
  | .wdtTickCount => s.busy = true ∧ s.wdtLast = false
  | .wdtTickAbort => s.busy = true ∧ s.wdtLast = true

/-! ### Invariants (10_state R48) -/

/-- The invariants of 10_state R48 that hold under every `LU_MODE`: all but the third. -/
structure State.ControlOk (s : State) : Prop where
  busy_enabled : s.busy = true → s.en = true
  disabled_clear : s.en = false →
    s.si = false ∧ s.sta = false ∧ s.sto = false ∧ s.ackrq = false ∧ s.status = 0 ∧ s.sendStartNext = false ∧
      s.luPhase = .idle ∧ s.luDatFull = false ∧ s.luAckPend = false
  count_below : s.wdtCount < s.cfg.wdtPeriodTicks
  idle_count : s.busy = false → s.wdtCount = 0
  fsm_named : s.fsm ≠ 7
  result_named : s.result ≠ 5 ∧ s.result ≠ 6 ∧ s.result ≠ 7
  pending_enabled : s.si = true → s.en = true

/-- The third invariant of 10_state R48: it needs the nominal line unit. -/
def State.IdleQuiet (s : State) : Prop := s.busy = false → s.sta = false ∧ s.sendStartNext = false

/-- A status that only a transmitted or a received byte brings. -/
def byteStatus (status : BitVec 3) : Bool := status == 2 || status == 3 || status == 4

/-- What the third invariant rests on: how the latched status, the request bits, the sequencer and the line unit's phase go
together under the nominal line unit. -/
structure State.NominalOk (s : State) : Prop where
  control : s.ControlOk
  idle_quiet : s.IdleQuiet
  idle_bus : s.busy = false → s.sto = true ∨ s.luPhase = .idle
  idle_event : s.busy = false → s.si = true → s.status = 5 ∨ s.status = 6
  stop_owned : s.sto = true → s.luPhase = .tx ∨ s.luPhase = .rx
  ack_owed : s.luAckPend = true → s.luPhase = .rx
  byte_event : s.si = true → byteStatus s.status = true →
    (s.luPhase = .tx ∨ s.luPhase = .rx) ∧ s.sta = false ∧ s.sto = false
  read_address : s.luPhase = .addr → s.luDatFull = true → s.dat.getLsbD 0 = true →
    s.direction = true ∧ s.sendSubAddress = false
  read_acked : s.luPhase = .rx → s.si = true → s.status = 2 → s.direction = true ∧ s.sendSubAddress = false
  received : s.si = true → s.status = 4 → s.luPhase = .rx ∧ s.luAckPend = true ∧ s.sendStartNext = false
  receiving : s.luPhase = .rx → s.si = false → s.sta = false → s.sto = false → s.sendStartNext = false
  more_wanted : s.luAckPend = true → s.si = false → s.ackrq = true → s.sto = false ∧ s.sta = false ∧ s.busy = true
  last_refused : s.luAckPend = true → s.si = false → s.ackrq = false → s.sto = true
  ack_event : s.luPhase = .rx → s.si = true → s.status = 2 → s.luAckPend = false
  nack_event : s.si = true → s.status = 3 → s.luPhase = .tx
  start_event : s.si = true → s.status = 1 → s.luPhase = .addr

/-! ### The language of the wire trace -/

/-- Where in the grammar of 42_line_unit R161 a trace stands. -/
inductive WireState where
  /-- no transfer open -/
  | idle
  /-- after `S` or `Sr`: the address byte is due -/
  | started
  /-- after acknowledged written bytes -/
  | sending
  /-- after a refused byte: only `Sr` (retry) or `X` may follow -/
  | refused
  /-- after an acknowledged read address, before the first received byte -/
  | addressed
  /-- after an acknowledged received byte: another one is due -/
  | receiving
  /-- after a received byte: its acknowledge is due -/
  | received
  /-- after the refused last byte: only `P` or `X` may follow -/
  | finished
  deriving DecidableEq, Repr

/-- One symbol of the grammar of 42_line_unit R161, for a trace that may still be open: `X` may cut a transfer anywhere, and an
acknowledged read address may be followed by `Sr` with no byte received, which a retried random read brings about
(41_engine_events R143; log 15). -/
def WireState.next : WireState → WireSym → Option WireState
  | .idle, .start => some .started
  | .started, .tx b .ack => some (if b.getLsbD 0 then .addressed else .sending)
  | .started, .tx _ .nack => some .refused
  | .sending, .tx _ .ack => some .sending
  | .sending, .tx _ .nack => some .refused
  | .sending, .repeatedStart => some .started
  | .sending, .stop => some .idle
  | .refused, .repeatedStart => some .started
  | .addressed, .rx _ => some .received
  | .addressed, .repeatedStart => some .started
  | .receiving, .rx _ => some .received
  | .received, .masterAck => some .receiving
  | .received, .masterNack => some .finished
  | .finished, .stop => some .idle
  | .started, .released => some .idle
  | .sending, .released => some .idle
  | .refused, .released => some .idle
  | .addressed, .released => some .idle
  | .receiving, .released => some .idle
  | .received, .released => some .idle
  | .finished, .released => some .idle
  | _, _ => none

/-- Where a trace stands, or none if some symbol of it is out of place. -/
def wireRun : WireState → List WireSym → Option WireState
  | w, [] => some w
  | w, x :: xs =>
    match w.next x with
    | some w' => wireRun w' xs
    | none => none

/-- The point of the grammar fits the line unit's state and what the block is about to ask of it. -/
def State.wireFits (s : State) : WireState → Prop
  | .idle => s.luPhase = .idle
  | .started => s.luPhase = .addr ∧ (s.si = false → s.sta = false)
  | .sending => s.luPhase = .tx ∧ ¬(s.si = true ∧ s.status = 3)
  | .refused => s.luPhase = .tx ∧ s.sto = false ∧
      ((s.si = true ∧ s.status = 3) ∨ s.sta = true)
  | .addressed => s.luPhase = .rx ∧ s.luAckPend = false ∧ s.sto = false
  | .receiving => s.luPhase = .rx ∧ s.luAckPend = false ∧ s.sto = false ∧ s.sta = false ∧ s.busy = true ∧
      (s.si = true → byteStatus s.status = false)
  | .received => s.luPhase = .rx ∧ s.luAckPend = true
  | .finished => s.luPhase = .rx ∧ s.luAckPend = false ∧ s.sto = true

/-- The wire trace is a word of the grammar, so far, and stands where the line unit stands. -/
def State.WireOk (s : State) : Prop := ∃ w, wireRun .idle s.trace = some w ∧ s.wireFits w

/-! ### The shadows -/

/-- Equal but for the shadows `fsm`, `result` and `byteCount` (10_state R31 to R33), the wire trace (R46), and the host port's
read data, which may show a shadow. -/
def eqUpToShadows (s t : State) : Prop :=
  { s with fsm := t.fsm, result := t.result, byteCount := t.byteCount, trace := t.trace, regRdata := t.regRdata } = t

/-! ### Hangs and runs -/

/-- `t` is a state the other agents may leave between two event steps of a running transfer: the line unit (it latches a status,
changes its own state, receives into `DAT`), a counting tick, the host's reads and its accesses to buffer memory. They write no
field of the Transfer State, no flag of the sequencer, no shadow, and not `EN`, `STA` or `ACKRQ`; `STO` only falls. -/
def State.betweenEvents (s t : State) : Prop :=
  t = { s with
    si := t.si
    status := t.status
    dat := t.dat
    sto := t.sto
    luPhase := t.luPhase
    luDatFull := t.luDatFull
    luAckPend := t.luAckPend
    wdtCount := t.wdtCount
    trace := t.trace
    mem := t.mem
    regRdata := t.regRdata
    memRdata := t.memRdata
    windows := t.windows
    ee := t.ee
    hostProg := t.hostProg
    inputs := t.inputs } ∧
  (s.sto = false → t.sto = false)

/-- A running transfer in which neither the engine nor the nominal line unit has a step (41_engine_events R143, first row): the
line unit is a transmitter with nothing to send and nothing requested. -/
def State.hung (s : State) : Prop :=
  s.busy = true ∧ s.en = true ∧ s.si = false ∧ s.luAckPend = false ∧ s.sto = false ∧ s.sta = false ∧ s.luPhase = .tx ∧
    s.luDatFull = false

/-- The ticks still to come in the schedule. -/
def State.ticksDue (s : State) : Nat := s.inputs.countP (· == .tick)

end Sys2Proof.Machine
end

