-- ==== Sys2Proof/Certificates/Slice0/Obligations.lean ====
section
/-! DEFINITION. The statements for the provers. Each docstring names the rules of spec/ it formalises. Where a statement says
that an operation answers `.next { s with … }`, every field that is not named, all of buffer memory among them, is as before. -/

open Sys2Proof Sys2Proof.Machine

/-! ### Host operations (40_host_access) -/

/-- R116 to R125: each register read is selected by `WE` = 0 and its index, and returns its view zero-extended to 16 bits, in
every state; nothing but the port's read data changes (20_memory R55). -/
def Obligations.HostReadsReturnTheirView : Prop :=
  ∀ (s : State) (w : Word16) (reg : BitVec 4),
    (decode (.host (0#1 ++ 0#4 ++ w)) = .op (.hrdCtl w) ∧
      exec (.hrdCtl w) s = .next { s with
        regRdata := 0#8 ++ bit s.en ++ bit s.si ++ bit s.sta ++ bit s.sto ++ bit s.ackrq ++ s.status }) ∧
    (decode (.host (0#1 ++ 1#4 ++ w)) = .op (.hrdDat w) ∧
      exec (.hrdDat w) s = .next { s with regRdata := 0#8 ++ s.dat }) ∧
    (decode (.host (0#1 ++ 2#4 ++ w)) = .op (.hrdTaddr w) ∧
      exec (.hrdTaddr w) s = .next { s with regRdata := 0#8 ++ s.targetAddress ++ 0#1 }) ∧
    (decode (.host (0#1 ++ 3#4 ++ w)) = .op (.hrdSubaddr w) ∧
      exec (.hrdSubaddr w) s = .next { s with regRdata := 0#8 ++ s.subAddress }) ∧
    (decode (.host (0#1 ++ 4#4 ++ w)) = .op (.hrdFlags w) ∧
      exec (.hrdFlags w) s = .next { s with
        regRdata := 0#8 ++ 0#4 ++ bit s.ackPollOnAddressNack ++ bit s.repeatedStartForRead ++ bit s.sendSubAddress ++
          bit s.direction }) ∧
    (decode (.host (0#1 ++ 5#4 ++ w)) = .op (.hrdCursor w) ∧
      exec (.hrdCursor w) s = .next { s with regRdata := s.dataCursor }) ∧
    (decode (.host (0#1 ++ 6#4 ++ w)) = .op (.hrdRemain w) ∧
      exec (.hrdRemain w) s = .next { s with regRdata := 0#8 ++ s.bytesRemaining }) ∧
    (decode (.host (0#1 ++ 7#4 ++ w)) = .op (.hrdStat w) ∧
      exec (.hrdStat w) s = .next { s with
        regRdata := 0#8 ++ s.result ++ s.fsm ++ bit s.sendStartNext ++ bit s.busy }) ∧
    (decode (.host (0#1 ++ 8#4 ++ w)) = .op (.hrdCount w) ∧
      exec (.hrdCount w) s = .next { s with regRdata := 0#8 ++ s.byteCount }) ∧
    ((9#4 ≤ reg → decode (.host (0#1 ++ reg ++ w)) = .op (.hrdRsv reg w)) ∧
      exec (.hrdRsv reg w) s = .next { s with regRdata := 0 })

/-- R100: while `busy` = 1 a host write of any register and any data changes nothing and is marked as a caller error, on which
the program-level step refuses; reads are performed at any time. -/
def Obligations.HostWritesDropWhileBusy : Prop :=
  (∀ (i : Instr) (s : State), isHostWrite i = true → s.busy = true →
    exec i s = .next s ∧ callerError i s = some .writeWhileBusy) ∧
  (∀ (i : Instr) (s : State), isHostRead i = true → ∃ v, exec i s = .next { s with regRdata := v }) ∧
  (∀ (s : State) (c : Code) (i : Instr), (fetch s).1 = .word c → decode c = .op i → isHostWrite i = true →
    (fetch s).2.busy = true → strictStep s = .refused (.callerError .writeWhileBusy))

/-- R102: `HWR.CTL.DISABLE`. -/
def Obligations.CtlDisableResetsTheController : Prop :=
  ∀ (s : State) (w : Word16),
    (w.getLsbD 7 = false → decode (.host (1#1 ++ 0#4 ++ w)) = .op (.hwrCtlDisable w)) ∧
    exec (.hwrCtlDisable w) s = .next (if s.busy = true then s else
      { s with
        en := false
        si := false
        status := 0
        sta := false
        sto := false
        ackrq := false
        sendStartNext := false
        luPhase := .idle
        luDatFull := false
        luAckPend := false
        trace := if s.luPhase = .idle then s.trace else s.trace ++ [.released] })

/-- R103: `HWR.CTL.ENABLE`. -/
def Obligations.CtlEnableSetsEnOnly : Prop :=
  ∀ (s : State) (w : Word16),
    (w.getLsbD 7 = true → w.getLsbD 5 = false → decode (.host (1#1 ++ 0#4 ++ w)) = .op (.hwrCtlEnable w)) ∧
    exec (.hwrCtlEnable w) s = .next (if s.busy = true then s else { s with en := true })

/-- R104: `HWR.CTL.GO`. -/
def Obligations.CtlGoStartsATransfer : Prop :=
  ∀ (s : State) (w : Word16),
    (w.getLsbD 7 = true → w.getLsbD 5 = true → decode (.host (1#1 ++ 0#4 ++ w)) = .op (.hwrCtlGo w)) ∧
    exec (.hwrCtlGo w) s = .next (if s.busy = true then s else
      { s with
        en := true
        sta := true
        busy := true
        wdtCount := 0
        fsm := 1
        result := 0 })

/-- R106 to R110: the set-up writes. -/
def Obligations.SetUpWritesStoreTheirField : Prop :=
  ∀ (s : State) (w : Word16),
    (decode (.host (1#1 ++ 2#4 ++ w)) = .op (.hwrTaddr w) ∧
      exec (.hwrTaddr w) s = .next (if s.busy = true then s else { s with targetAddress := w.extractLsb' 1 7 })) ∧
    (decode (.host (1#1 ++ 3#4 ++ w)) = .op (.hwrSubaddr w) ∧
      exec (.hwrSubaddr w) s = .next (if s.busy = true then s else { s with subAddress := w.extractLsb' 0 8 })) ∧
    (decode (.host (1#1 ++ 4#4 ++ w)) = .op (.hwrFlags w) ∧
      exec (.hwrFlags w) s = .next (if s.busy = true then s else
        { s with
          direction := w.getLsbD 0
          sendSubAddress := w.getLsbD 1
          repeatedStartForRead := w.getLsbD 2
          ackPollOnAddressNack := w.getLsbD 3 })) ∧
    (decode (.host (1#1 ++ 5#4 ++ w)) = .op (.hwrCursor w) ∧
      exec (.hwrCursor w) s = .next (if s.busy = true then s else { s with dataCursor := w })) ∧
    (decode (.host (1#1 ++ 6#4 ++ w)) = .op (.hwrRemain w) ∧
      exec (.hwrRemain w) s = .next (if s.busy = true then s else { s with bytesRemaining := w.extractLsb' 0 8 }))

/-- R105, R111, R126: writes of read-only and reserved registers are ignored in every state. -/
def Obligations.ReadOnlyWritesAreIgnored : Prop :=
  ∀ (s : State) (w : Word16) (reg : BitVec 4),
    (decode (.host (1#1 ++ 1#4 ++ w)) = .op (.hwrDat w) ∧ exec (.hwrDat w) s = .next s) ∧
    (decode (.host (1#1 ++ 7#4 ++ w)) = .op (.hwrStat w) ∧ exec (.hwrStat w) s = .next s) ∧
    (decode (.host (1#1 ++ 8#4 ++ w)) = .op (.hwrCount w) ∧ exec (.hwrCount w) s = .next s) ∧
    ((9#4 ≤ reg → decode (.host (1#1 ++ reg ++ w)) = .op (.hwrRsv reg w)) ∧ exec (.hwrRsv reg w) s = .next s)

/-- R113, 20_memory R51: `MWR` sets its byte in every state and changes nothing else; every other byte reads as before. -/
def Obligations.MemoryWriteSetsOneByte : Prop :=
  ∀ (s : State) (a : Addr) (v : Byte),
    decode (.hmem (1#1 ++ a ++ v)) = .op (.mwr a v) ∧
    ∃ m, exec (.mwr a v) s = .next { s with mem := m } ∧
      ({ s with mem := m } : State).memRead a = v ∧
      ∀ b, b ≠ a → ({ s with mem := m } : State).memRead b = s.memRead b

/-- R114: `MRD` returns the byte at its address in every state, and a byte just written is the one returned. -/
def Obligations.MemoryReadReturnsTheByte : Prop :=
  ∀ (s : State) (a : Addr) (v d : Byte),
    decode (.hmem (0#1 ++ a ++ d)) = .op (.mrd a d) ∧
    exec (.mrd a d) s = .next { s with memRdata := s.memRead a } ∧
    ∃ t u, exec (.mwr a v) s = .next t ∧ exec (.mrd a d) t = .next u ∧ u.memRdata = v

/-! ### The engine (41_engine_events) -/

/-- R132: `EV_START`. -/
def Obligations.EvStartLoadsTheAddressByte : Prop :=
  ∀ s : State,
    (∀ w : BitVec 8, w &&& 0xC7#8 = 0xC1#8 → decode (.status w) = .op .evStart) ∧
    exec .evStart s = .next { s with
      dat := s.targetAddress ++ bit (if s.sendSubAddress = true then false else s.direction)
      luDatFull := true
      sta := false
      byteCount := 0
      fsm := if s.fsm = 3 then 3 else 1
      si := false }

/-- R133: `EV_TX_ACK`, its branches in their order. -/
def Obligations.EvTxAckTakesItsBranch : Prop :=
  ∀ s : State,
    (∀ w : BitVec 8, w &&& 0xC7#8 = 0xC2#8 → decode (.status w) = .op .evTxAck) ∧
    exec .evTxAck s = .next (
      if s.sendStartNext = true then
        { s with sta := true, sendStartNext := false, direction := true, fsm := 3, si := false }
      else if s.sendSubAddress = true then
        { s with
          dat := s.subAddress
          luDatFull := true
          sendSubAddress := false
          sendStartNext := s.repeatedStartForRead
          fsm := 2
          si := false }
      else if s.direction = false then
        if s.bytesRemaining ≠ 0 then
          { s with
            dat := s.memRead s.dataCursor
            luDatFull := true
            dataCursor := s.dataCursor + 1
            bytesRemaining := s.bytesRemaining - 1
            byteCount := s.byteCount + 1
            fsm := 4
            si := false }
        else
          { s with sto := true, busy := false, wdtCount := 0, result := 1, fsm := 0, si := false }
      else
        { s with fsm := 5, si := false })

/-- R134, R192: `EV_TX_NACK` retries, or fails with cause NACK. -/
def Obligations.EvTxNackRetriesOrFails : Prop :=
  ∀ s : State,
    (∀ w : BitVec 8, w &&& 0xC7#8 = 0xC3#8 → decode (.status w) = .op .evTxNack) ∧
    exec .evTxNack s = .next (
      if s.ackPollOnAddressNack = true then { s with sta := true, fsm := 1, si := false }
      else
        { s with
          en := true
          si := false
          status := 0
          sta := false
          sto := false
          ackrq := false
          sendStartNext := false
          luPhase := .idle
          luDatFull := false
          luAckPend := false
          busy := false
          wdtCount := 0
          result := 2
          fsm := 6
          trace := if s.luPhase = .idle then s.trace else s.trace ++ [.released] })

/-- R135: `EV_RX` stores the byte while bytes are wanted and ends the transfer at the last. Every byte of memory but the one at
the cursor reads as before. -/
def Obligations.EvRxStoresAndEnds : Prop :=
  ∀ s : State,
    (∀ w : BitVec 8, w &&& 0xC7#8 = 0xC4#8 → decode (.status w) = .op .evRx) ∧
    (s.bytesRemaining = 0 → exec .evRx s = .next
      { s with ackrq := false, sto := true, busy := false, wdtCount := 0, result := 1, fsm := 0, si := false }) ∧
    (s.bytesRemaining ≠ 0 → ∃ m,
      ({ s with mem := m } : State).memRead s.dataCursor = s.dat ∧
      (∀ b, b ≠ s.dataCursor → ({ s with mem := m } : State).memRead b = s.memRead b) ∧
      exec .evRx s = .next (
        if s.bytesRemaining = 1 then
          { s with
            mem := m
            dataCursor := s.dataCursor + 1
            bytesRemaining := 0
            byteCount := s.byteCount + 1
            ackrq := false
            sto := true
            busy := false
            wdtCount := 0
            result := 1
            fsm := 0
            si := false }
        else
          { s with
            mem := m
            dataCursor := s.dataCursor + 1
            bytesRemaining := s.bytesRemaining - 1
            byteCount := s.byteCount + 1
            ackrq := true
            si := false }))

/-- R136, R192: `EV_OTHER` fails with cause BUS_ERROR, whatever the code and whatever `busy` is. -/
def Obligations.EvOtherFailsWithBusError : Prop :=
  ∀ (s : State) (code : BitVec 3),
    (∀ w : BitVec 8, (w &&& 0xC7#8 = 0xC0#8 ∨ w &&& 0xC7#8 = 0xC5#8 ∨ w &&& 0xC7#8 = 0xC6#8 ∨ w &&& 0xC7#8 = 0xC7#8) →
      decode (.status w) = .op (.evOther (w.extractLsb' 0 3))) ∧
    exec (.evOther code) s = .next { s with
      en := true
      si := false
      status := 0
      sta := false
      sto := false
      ackrq := false
      sendStartNext := false
      luPhase := .idle
      luDatFull := false
      luAckPend := false
      busy := false
      wdtCount := 0
      result := 3
      fsm := 6
      trace := if s.luPhase = .idle then s.trace else s.trace ++ [.released] }

/-- R130, R137, R142: exactly one event step applies where `EN` = 1 and `SI` = 1, and it answers a next state with `SI` = 0;
elsewhere the engine has none. -/
def Obligations.EngineIsTotalWhereEnabled : Prop :=
  ∀ s : State,
    (s.en = true → s.si = true →
      ∃ i t, decode (.status s.ctlView) = .op i ∧ isEvent i = true ∧ s.enables i ∧ exec i s = .next t ∧ t.si = false ∧
        ∀ j, isEvent j = true → s.enables j → j = i) ∧
    ((s.en = false ∨ s.si = false) → decode (.status s.ctlView) = .none .engineNotEnabled)

/-- R191, R192: the internal reset `PeriphReset()` and, for every cause, the failure handler built on it. What neither names is as
before: `DAT`, the cursor, the counts and the flags of the Transfer State among it. -/
def Obligations.InternalResetAndFailureHandler : Prop :=
  ∀ (s : State) (cause : BitVec 3),
    s.periphReset = { s with
      si := false
      status := 0
      sta := false
      sto := false
      ackrq := false
      sendStartNext := false
      luPhase := .idle
      luDatFull := false
      luAckPend := false
      trace := if s.luPhase = .idle then s.trace else s.trace ++ [.released] } ∧
    s.raiseFailure cause = { ({ s with en := false } : State).periphReset with
      en := true
      sta := false
      sto := false
      ackrq := false
      busy := false
      wdtCount := 0
      result := cause
      fsm := 6 }

/-- R139: the repeated-START sequencer. From a state with `sendSubAddress` = 1, `repeatedStartForRead` = 1 and `sendStartNext` =
0 the five event steps of an acknowledged random read go as the rule's table says: the flags after each, and the byte each step
loads. Between two of them the line unit, the watchdog's counting and the host may step: the primed state is any state they may
leave. No STOP is requested between the two STARTs. -/
def Obligations.SequencerRunsTheRandomRead : Prop :=
  ∀ s : State, s.sendSubAddress = true → s.repeatedStartForRead = true → s.sendStartNext = false → s.sto = false →
    ∃ a, exec .evStart s = .next a ∧ a.dat = s.targetAddress ++ 0#1 ∧ a.luDatFull = true ∧ a.sto = false ∧
      a.sendSubAddress = true ∧ a.sendStartNext = false ∧ a.direction = s.direction ∧
    ∀ a', a.betweenEvents a' →
    ∃ b, exec .evTxAck a' = .next b ∧ b.dat = s.subAddress ∧ b.luDatFull = true ∧ b.sto = false ∧
      b.sendSubAddress = false ∧ b.sendStartNext = true ∧ b.direction = s.direction ∧
    ∀ b', b.betweenEvents b' →
    ∃ c, exec .evTxAck b' = .next c ∧ c.sta = true ∧ c.dat = b'.dat ∧ c.sto = false ∧
      c.sendSubAddress = false ∧ c.sendStartNext = false ∧ c.direction = true ∧
    ∀ c', c.betweenEvents c' →
    ∃ d, exec .evStart c' = .next d ∧ d.dat = s.targetAddress ++ 1#1 ∧ d.luDatFull = true ∧ d.sta = false ∧ d.sto = false ∧
      d.sendSubAddress = false ∧ d.sendStartNext = false ∧ d.direction = true ∧
    ∀ d', d.betweenEvents d' → exec .evTxAck d' = .next { d' with fsm := 5, si := false }

/-- R140: the transitions of the shadow `fsm`, over every operation. -/
def Obligations.FsmFollowsTheTransitionTable : Prop :=
  ∀ (i : Instr) (s t : State), exec i s = .next t →
    t.fsm =
      (if ∃ w, i = .hwrCtlGo w then (if s.busy = true then s.fsm else 1)
      else if i = .evStart then (if s.fsm = 3 then 3 else 1)
      else if i = .evTxAck then
        (if s.sendStartNext = true then 3
        else if s.sendSubAddress = true then 2
        else if s.direction = true then 5
        else if s.bytesRemaining = 0 then 0 else 4)
      else if i = .evTxNack then (if s.ackPollOnAddressNack = true then 1 else 6)
      else if i = .evRx then (if t.bytesRemaining = 0 then 0 else s.fsm)
      else if ∃ c, i = .evOther c then 6
      else if i = .wdtTickAbort then 6
      else if i = .reset then 0
      else s.fsm)

/-! ### The line unit (42_line_unit) -/

/-- R152 to R154: `LU_ACK`, `LU_STOP`, `LU_START`. -/
def Obligations.LineAckStopStart : Prop :=
  ∀ (s : State) (b : Byte) (a : Ack),
    ((∀ w : BitVec 8, w &&& 0xE0#8 = 0xA0#8 → decode (.line w (.nominal b a)) = .op .luAck) ∧
      exec .luAck s = .next { s with
        luAckPend := false
        trace := s.trace ++ [if s.ackrq = true then .masterAck else .masterNack] }) ∧
    ((∀ w : BitVec 8, w &&& 0xF0#8 = 0x90#8 → decode (.line w (.nominal b a)) = .op .luStop) ∧
      exec .luStop s = .next { s with
        sto := false
        luPhase := .idle
        luDatFull := false
        trace := s.trace ++ [.stop] }) ∧
    ((∀ w : BitVec 8, w &&& 0xF8#8 = 0x88#8 → decode (.line w (.nominal b a)) = .op .luStart) ∧
      exec .luStart s = .next { s with
        status := 0b001
        si := true
        luPhase := .addr
        luDatFull := false
        trace := s.trace ++ [if s.luPhase = .idle then .start else .repeatedStart] })

/-- R155 and R156: `LU_RXBYTE` and `LU_TXBYTE`; and the words and the effect of `LU_FAULT` (R157), whose mode
`LuModeSelectsTheEnvironment` states. -/
def Obligations.LineBytesAndFaults : Prop :=
  ∀ (s : State) (b : Byte) (a : Ack) (row : TxRow) (f : FaultStatus),
    ((∀ w : BitVec 8, w &&& 0xFE#8 = 0x86#8 → decode (.line w (.nominal b a)) = .op (.luRxbyte b)) ∧
      exec (.luRxbyte b) s = .next { s with
        dat := b
        luAckPend := true
        status := 0b100
        si := true
        trace := s.trace ++ [.rx b] }) ∧
    (decode (.line 0x83 (.nominal b a)) = .op (.luTxbyte .addressByte a) ∧
      decode (.line 0x85 (.nominal b a)) = .op (.luTxbyte .otherByte a) ∧
      exec (.luTxbyte row a) s = .next { s with
        luDatFull := false
        status := if a = .ack then 0b010 else 0b011
        si := true
        luPhase := if s.luPhase = .addr ∧ s.dat.getLsbD 0 = true ∧ a = .ack then .rx else .tx
        trace := s.trace ++ [.tx s.dat a] }) ∧
    ((∀ w : BitVec 8, w &&& 0xC0#8 = 0x80#8 → decode (.line w (.fault f)) = .op (.luFault f)) ∧
      exec (.luFault f) s = .next { s with
        status := match f with
          | .arbLost => 0b101
          | .busError => 0b110
        si := true })

/-- R151: under the nominal contract the line unit has an operation only while `EN` = 1 and `SI` = 0, a fault report included, and
of the operations of R152 to R156 it has at most one, by the priority acknowledge, STOP, START, receive, transmit. -/
def Obligations.LinePriority : Prop :=
  ∀ (s : State) (b : Byte) (a : Ack) (f : FaultStatus),
    decode (.line s.lineWord (.nominal b a)) =
      (if s.en = false ∨ s.si = true then .none .lineNoOperation
      else if s.luAckPend = true then .op .luAck
      else if s.sto = true then .op .luStop
      else if s.sta = true then .op .luStart
      else if s.luPhase = .rx then .op (.luRxbyte b)
      else if s.luPhase = .addr ∧ s.luDatFull = true then .op (.luTxbyte .addressByte a)
      else if s.luPhase = .tx ∧ s.luDatFull = true then .op (.luTxbyte .otherByte a)
      else .none .lineNoOperation) ∧
    decode (.line s.lineWord (.fault f)) =
      (if s.en = false ∨ s.si = true then .none .lineNoOperation else .op (.luFault f))

/-- R150: which operations of the line unit each `LU_MODE` lets it take, whoever answers its draws; what the mock target answers
is stated by `MockTargetAnswers`. -/
def Obligations.LuModeSelectsTheEnvironment : Prop :=
  ∀ (s : State) (rest : List Input),
    (∀ b a, s.inputs = .line (.drawn b a) :: rest →
      fetch s = (if s.cfg.luMode = .unconstrained then (.pass, { s with inputs := rest })
        else (.word (.line s.lineWord (.nominal b a)), { s with inputs := rest }))) ∧
    (s.inputs = .line .mock :: rest →
      (s.cfg.luMode = .unconstrained → fetch s = (.pass, { s with inputs := rest })) ∧
      (s.cfg.luMode ≠ .unconstrained →
        ∃ b a e, fetch s = (.word (.line s.lineWord (.nominal b a)), { s with inputs := rest, ee := e }))) ∧
    (∀ f, s.inputs = .lineFault f :: rest →
      fetch s = (if s.cfg.luMode = .nominalWithFaults then (.word (.line s.lineWord (.fault f)), { s with inputs := rest })
        else (.pass, { s with inputs := rest }))) ∧
    (∀ st l k, s.inputs = .lineFree st l k :: rest →
      fetch s = (if s.cfg.luMode = .unconstrained ∧ s.en = true ∧ s.si = false
        then (.free st l k, { s with inputs := rest }) else (.pass, { s with inputs := rest })))

/-- R160: the unconstrained line unit's one operation. It writes `STATUS`, `SI`, and `DAT` and `STO` where it is drawn to, and
nothing else: no wire symbol, no hidden variable of the nominal line unit. -/
def Obligations.UnconstrainedLineUnitStep : Prop :=
  ∀ (s : State) (rest : List Input) (st : BitVec 3) (l : Option Byte) (k : Bool),
    s.inputs = .lineFree st l k :: rest → s.cfg.luMode = .unconstrained → s.en = true → s.si = false →
    step s = .next { s with
      inputs := rest
      status := st
      si := true
      dat := match l with
        | some b => b
        | none => s.dat
      sto := if k = true then false else s.sto }

/-- R159: the mock target's answers and its pointer. An address byte not its own is refused; `nacks` address bytes are refused;
a written address makes the next byte the pointer; a read returns the byte at the pointer, a write stores it, and the pointer
goes up by one modulo 256. Where the schedule lets it answer the line unit (log 8), it answers a transmitted byte, the byte of `DAT`,
by the phase it is sent in, and a received byte; nothing else reaches it. -/
def Obligations.MockTargetAnswers : Prop :=
  (∀ p : Byte, Target.fresh.read p = 0xFF ∧ Target.fresh.ptr = 0) ∧
  (∀ (t : Target) (b : Byte),
    t.onAddress b =
      (if b.extractLsb' 1 7 ≠ 0x50#7 then (.nack, t)
      else if 0 < t.nacks then (.nack, { t with nacks := t.nacks - 1 })
      else if b.getLsbD 0 = false then (.ack, { t with first := true })
      else (.ack, t))) ∧
  (∀ (t : Target) (b : Byte), (t.onByte b).1 = .ack ∧
    (t.first = true → (t.onByte b).2 = { t with ptr := b, first := false }) ∧
    (t.first = false → (t.onByte b).2.ptr = t.ptr + 1 ∧ (t.onByte b).2.first = t.first ∧ (t.onByte b).2.nacks = t.nacks ∧
      (t.wf = true → ∀ p, (t.onByte b).2.read p = if p = t.ptr then b else t.read p))) ∧
  (∀ t : Target, t.onRead = (t.read t.ptr, { t with ptr := t.ptr + 1 })) ∧
  (∀ (s : State) (rest : List Input), s.inputs = .line .mock :: rest → s.cfg.luMode ≠ .unconstrained → s.en = true →
    s.si = false → s.luAckPend = false → s.sto = false → s.sta = false →
    (s.luPhase = .addr → s.luDatFull = true → step s = exec (.luTxbyte .addressByte (s.ee.onAddress s.dat).1)
      { s with inputs := rest, ee := (s.ee.onAddress s.dat).2 }) ∧
    (s.luPhase = .tx → s.luDatFull = true → step s = exec (.luTxbyte .otherByte (s.ee.onByte s.dat).1)
      { s with inputs := rest, ee := (s.ee.onByte s.dat).2 }) ∧
    (s.luPhase = .rx → step s = exec (.luRxbyte s.ee.onRead.1) { s with inputs := rest, ee := s.ee.onRead.2 })) ∧
  (∀ s t : State, step s = .next t → t.ee ≠ s.ee →
    (∃ rest, s.inputs = .line .mock :: rest) ∧ s.cfg.luMode ≠ .unconstrained ∧ s.en = true ∧ s.si = false ∧
      s.luAckPend = false ∧ s.sto = false ∧ s.sta = false ∧ (s.luPhase = .rx ∨ (s.luPhase ≠ .idle ∧ s.luDatFull = true)))

/-! ### The watchdog and reset (60_exceptions, 70_reset_and_hazards) -/

/-- R195, R76: one tick. Premise: `wdtCount` is below `WDT_PERIOD_TICKS`, which `ControlInvariantIsKept` gives. -/
def Obligations.TickCountsOrAborts : Prop :=
  ∀ s : State, s.wdtCount < s.cfg.wdtPeriodTicks →
    (s.busy = false → decode (.timer s.timerWord) = .op .wdtTickIdle) ∧
    (s.busy = true → s.wdtCount + 1 < s.cfg.wdtPeriodTicks → decode (.timer s.timerWord) = .op .wdtTickCount) ∧
    (s.busy = true → ¬ s.wdtCount + 1 < s.cfg.wdtPeriodTicks → decode (.timer s.timerWord) = .op .wdtTickAbort) ∧
    exec .wdtTickIdle s = .next s ∧
    exec .wdtTickCount s = .next { s with wdtCount := s.wdtCount + 1 }

/-- R196: the watchdog abort. It discards a pending status and looks at no request bit. -/
def Obligations.WatchdogAbortReleasesTheBlock : Prop :=
  ∀ s : State,
    exec .wdtTickAbort s = .next { s with
      en := true
      si := false
      status := 0
      sta := false
      sto := false
      ackrq := false
      sendStartNext := false
      luPhase := .idle
      luDatFull := false
      luAckPend := false
      busy := false
      wdtCount := 0
      result := 4
      fsm := 6
      trace := if s.luPhase = .idle then s.trace else s.trace ++ [.released] }

/-- R220: `RESET`, in any state; `Mem` is unchanged and the wire trace emptied. That the parameters, the mock target, the host's
program, the schedule, the ports' read data and the noted windows are as before is the model's reading (log 9, DEDUCED; the read data
also log 6), not R220's: R221 calls the target's state unspecified. -/
def Obligations.ResetZeroesTheBlock : Prop :=
  ∀ s : State,
    (decode (.reset 1) = .op .reset ∧ decode (.reset 0) = .none .resetInputLow) ∧
    exec .reset s = .next { s with
      busy := false
      direction := false
      targetAddress := 0
      subAddress := 0
      sendSubAddress := false
      repeatedStartForRead := false
      ackPollOnAddressNack := false
      dataCursor := 0
      bytesRemaining := 0
      sendStartNext := false
      byteCount := 0
      fsm := 0
      result := 0
      en := false
      si := false
      sta := false
      sto := false
      ackrq := false
      status := 0
      dat := 0
      wdtCount := 0
      luPhase := .idle
      luDatFull := false
      luAckPend := false
      trace := [] }

/-- R221: what reset leaves, as the host's views and the hidden state show it, for every choice of the parameters. -/
def Obligations.ResetStateViews : Prop :=
  ∀ c : Config,
    (State.resetWith c).ctlView = 0 ∧ (State.resetWith c).dat = 0 ∧ (State.resetWith c).taddrView = 0 ∧
    (State.resetWith c).subAddress = 0 ∧ (State.resetWith c).flagsView = 0 ∧ (State.resetWith c).dataCursor = 0 ∧
    (State.resetWith c).bytesRemaining = 0 ∧ (State.resetWith c).statView = 0 ∧ (State.resetWith c).byteCount = 0 ∧
    (State.resetWith c).wdtCount = 0 ∧ (State.resetWith c).luPhase = .idle ∧ (State.resetWith c).luDatFull = false ∧
    (State.resetWith c).luAckPend = false ∧ (State.resetWith c).trace = [] ∧
    State.reset = State.resetWith Config.initial

/-! ### Words and operations (30_encoding) -/

/-- R73, R74: which step a STATUS word selects. -/
def Obligations.StatusWordsSelectTheEvent : Prop :=
  ∀ w : BitVec 8,
    decode (.status w) =
      (if w &&& 0xC0#8 ≠ 0xC0#8 then .none .engineNotEnabled
      else if w &&& 0xC7#8 = 0xC1#8 then .op .evStart
      else if w &&& 0xC7#8 = 0xC2#8 then .op .evTxAck
      else if w &&& 0xC7#8 = 0xC3#8 then .op .evTxNack
      else if w &&& 0xC7#8 = 0xC4#8 then .op .evRx
      else .op (.evOther (w.extractLsb' 0 3)))

/-- R75: no LINE word lies in two rows of the nominal line unit, so the order of the table does not matter, and the decoder
takes the row the word lies in. -/
def Obligations.LineRowsAreDisjoint : Prop :=
  ∀ (w : BitVec 8) (b : Byte) (a : Ack) (i j : Instr),
    i ∈ ([.luAck, .luStop, .luStart, .luRxbyte b, .luTxbyte .addressByte a, .luTxbyte .otherByte a] : List Instr) →
    j ∈ ([.luAck, .luStop, .luStart, .luRxbyte b, .luTxbyte .addressByte a, .luTxbyte .otherByte a] : List Instr) →
    (∃ m p, (i, m, p) ∈ ([(.luAck, 0xE0#8, 0xA0#8), (.luStop, 0xF0#8, 0x90#8), (.luStart, 0xF8#8, 0x88#8),
        (.luRxbyte b, 0xFE#8, 0x86#8), (.luTxbyte .addressByte a, 0xFF#8, 0x83#8),
        (.luTxbyte .otherByte a, 0xFF#8, 0x85#8)] : List (Instr × BitVec 8 × BitVec 8)) ∧ w &&& m = p) →
    (∃ m p, (j, m, p) ∈ ([(.luAck, 0xE0#8, 0xA0#8), (.luStop, 0xF0#8, 0x90#8), (.luStart, 0xF8#8, 0x88#8),
        (.luRxbyte b, 0xFE#8, 0x86#8), (.luTxbyte .addressByte a, 0xFF#8, 0x83#8),
        (.luTxbyte .otherByte a, 0xFF#8, 0x85#8)] : List (Instr × BitVec 8 × BitVec 8)) ∧ w &&& m = p) →
    i = j ∧ decode (.line w (.nominal b a)) = .op i

/-- Words of 95_test_vectors, written out bit by bit, decode to the operations they stand for, one or more of each family. -/
def Obligations.SampleWordsDecode : Prop :=
  decode (.host 0b000110000000000000000#21) = .op (.hrdSubaddr 0x0000) ∧
  decode (.host 0b100000000000010100000#21) = .op (.hwrCtlGo 0x00A0) ∧
  decode (.host 0b100100000000010100001#21) = .op (.hwrTaddr 0x00A1) ∧
  decode (.hmem 0b1000000010000000001110111#25) = .op (.mwr 0x0100 0x77) ∧
  decode (.status 0b11100001#8) = .op .evStart ∧
  decode (.line 0b10001100#8 (.nominal 0 .ack)) = .op .luStart ∧
  decode (.timer 0b11#2) = .op .wdtTickAbort ∧
  decode (.reset 0b1#1) = .op .reset

/-- Decoding the word of a well-formed operation gives it back, with every operand at every value the encoding admits. Bits the
operation ignores are among the operands by the model's choice (log 13, DESIGN CHOICE). -/
def Obligations.DecodeOfEncodeIsTheOperation : Prop :=
  ∀ i : Instr, i.wellFormed = true → decode (encode i) = .op i

/-- Every HOST and every HMEM word selects one well-formed operation (R71, R72), whose word it is. That encoding gives the word back,
the bits the operation ignores included, is the model's choice, not those rules': it carries ignored bits as operands that no
meaning reads (log 13, DESIGN CHOICE), where R71 ignores `WDATA` on a read and R79 drops the bits a register has no room for. -/
def Obligations.EncodeOfDecodeIsTheWord : Prop :=
  (∀ w : BitVec 21, ∃ i, decode (.host w) = .op i ∧ i.wellFormed = true ∧ encode i = .host w) ∧
  (∀ w : BitVec 25, ∃ i, decode (.hmem w) = .op i ∧ i.wellFormed = true ∧ encode i = .hmem w)

/-- What any decoder selects is well formed. -/
def Obligations.DecodedOperationsAreWellFormed : Prop :=
  ∀ (c : Code) (i : Instr), decode c = .op i → i.wellFormed = true

/-! ### The step -/

/-- A step runs the operation the offered word decodes to, in the state the turn is taken in; a word that selects none, or an
agent that passes, leaves that state. -/
def Obligations.StepRunsTheDecodedOperation : Prop :=
  ∀ (s u : State) (c : Code),
    (∀ i, fetch s = (.word c, u) → decode c = .op i → step s = exec i u) ∧
    (∀ r, fetch s = (.word c, u) → decode c = .none r → step s = .next u) ∧
    (fetch s = (.pass, u) → step s = .next u)

/-- What the turns of the host, the engine, the watchdog's time base and the reset input present to their decoders, and what is used
up: a host word leaves the host's program, a condition word is the value of the state it is read from. The engine passes, and the
tick lets the engine step first and stays, where `EVENT_ORDER` says so and both are enabled (R199, log 7). The masks are those of
HWR.CTL.GO and HRD.STAT: a GO that starts a transfer gives its buffer to the engine, a read of `busy` as 0 takes all back (R225, log 12).
The line unit's turns are stated by `LuModeSelectsTheEnvironment`. With an empty schedule nobody steps. The schedule and the host's
program are the model's own (logs 1 and 2). -/
def Obligations.TurnsPresentTheirWord : Prop :=
  ∀ (s : State) (rest : List Input) (prog : List HostCmd),
    (s.inputs = [] → fetch s = (.pass, s)) ∧
    (∀ w, s.inputs = .host :: rest → s.hostProg = .reg w :: prog →
      fetch s = (.word (.host w), { s with
        inputs := rest
        hostProg := prog
        windows :=
          if s.busy = false ∧ w &&& 0x1F00A0#21 = 0x1000A0#21 then ⟨s.dataCursor, s.bytesRemaining⟩ :: s.windows
          else if s.busy = false ∧ w &&& 0x1F0000#21 = 0x070000#21 then []
          else s.windows })) ∧
    (∀ w, s.inputs = .host :: rest → s.hostProg = .mem w :: prog →
      fetch s = (.word (.hmem w), { s with inputs := rest, hostProg := prog })) ∧
    (s.inputs = .host :: rest → s.hostProg = [] → fetch s = (.pass, { s with inputs := rest })) ∧
    (s.inputs = .host :: rest → s.hostProg = .wait :: prog → ∃ u, fetch s = (.word (.host 0x070000#21), u)) ∧
    (s.inputs = .engine :: rest → fetch s =
      (if s.cfg.eventOrder = .wdtFirst ∧ s.en = true ∧ s.si = true ∧ s.busy = true ∧ s.wdtCount + 1 = s.cfg.wdtPeriodTicks then
        (.pass, { s with inputs := rest })
      else (.word (.status s.ctlView), { s with inputs := rest }))) ∧
    (s.inputs = .tick :: rest → fetch s =
      (if s.cfg.eventOrder = .engineFirst ∧ s.en = true ∧ s.si = true ∧ s.busy = true ∧
          s.wdtCount + 1 = s.cfg.wdtPeriodTicks then
        (.word (.status s.ctlView), s)
      else (.word (.timer s.timerWord), { s with inputs := rest }))) ∧
    (∀ w, s.inputs = .reset w :: rest → fetch s = (.word (.reset w), { s with inputs := rest }))

/-- R127: WAIT reads `STAT` and goes on until the value read has bit 0 = 0; that read gives the buffers back (R225, log 12). -/
def Obligations.WaitRepeatsReadingStat : Prop :=
  ∀ (s : State) (rest : List Input) (prog : List HostCmd),
    s.inputs = .host :: rest → s.hostProg = .wait :: prog →
    step s = .next { s with
      inputs := rest
      hostProg := if s.busy = true then .wait :: prog else prog
      windows := if s.busy = true then s.windows else []
      regRdata := 0#8 ++ s.result ++ s.fsm ++ bit s.sendStartNext ++ bit s.busy }

/-- R199: a status event and the aborting tick are both enabled (`EN` = 1, `SI` = 1, `TW` = 0b11), and one of the two agents has the
turn. Under `engine_first` the engine steps, at the tick's turn too, and the tick is applied to the state it leaves; under
`wdt_first` no event step is taken, the abort steps at the tick and the status is lost; under `either` whichever has the turn steps
(log 7). Both orders end with `busy` = 0, with the controller enabled. -/
def Obligations.EventOrderDecidesTheRace : Prop :=
  ∀ (s : State) (rest : List Input), s.en = true → s.si = true → s.busy = true → s.wdtCount + 1 = s.cfg.wdtPeriodTicks →
    (s.inputs = .tick :: rest → s.cfg.eventOrder = .engineFirst →
      ∃ i t u, isEvent i = true ∧ s.enables i ∧ exec i s = .next t ∧ step s = .next t ∧ t.inputs = .tick :: rest ∧
        step t = .next u ∧ u.inputs = rest ∧ u.busy = false ∧ u.en = true ∧ (t.busy = false → u = { t with inputs := rest })) ∧
    (s.inputs = .tick :: rest → s.cfg.eventOrder ≠ .engineFirst →
      ∃ t, step s = .next t ∧ exec .wdtTickAbort { s with inputs := rest } = .next t ∧ t.busy = false ∧ t.en = true ∧
        t.si = false) ∧
    (s.inputs = .engine :: .tick :: rest → s.cfg.eventOrder = .wdtFirst →
      ∃ u t, step s = .next u ∧ u = { s with inputs := .tick :: rest } ∧ step u = .next t ∧
        exec .wdtTickAbort { s with inputs := rest } = .next t ∧ t.busy = false ∧ t.en = true ∧ t.si = false) ∧
    (s.inputs = .engine :: rest → s.cfg.eventOrder = .wdtFirst → step s = .next { s with inputs := rest }) ∧
    (s.inputs = .engine :: rest → s.cfg.eventOrder ≠ .wdtFirst →
      ∃ i t, isEvent i = true ∧ s.enables i ∧ exec i { s with inputs := rest } = .next t ∧ step s = .next t)

/-- Nothing stops the machine: every step answers a next state, and every operation does in every state. -/
def Obligations.EveryStepGoesOn : Prop :=
  (∀ (i : Instr) (s : State), ∃ t, exec i s = .next t) ∧ (∀ s : State, ∃ t, step s = .next t)

/-- R5: the operation of a turn is enabled in the state it is taken in; and R199: where a status event and the aborting tick are
both enabled, no event step is taken under `wdt_first` and no abort under `engine_first`, on any schedule (log 7). -/
def Obligations.StepsAreEnabled : Prop :=
  ∀ (s t : State), step s = .next t →
    ∃ u : State, u = (fetch s).2 ∧ u = { s with
        inputs := u.inputs, hostProg := u.hostProg, windows := u.windows, ee := u.ee } ∧
      (t = u ∨
        (∃ i, u.enables i ∧ i.wellFormed = true ∧ exec i u = .next t ∧
          (isEvent i = true → u.cfg.eventOrder = .wdtFirst →
            ¬(u.busy = true ∧ u.wdtCount + 1 = u.cfg.wdtPeriodTicks)) ∧
          (i = .wdtTickAbort → u.cfg.eventOrder = .engineFirst → ¬(u.en = true ∧ u.si = true))) ∨
        (u.cfg.luMode = .unconstrained ∧ u.en = true ∧ u.si = false ∧
          t = { u with status := t.status, si := true, dat := t.dat, sto := t.sto }))

/-! ### Whole-machine rules -/

/-- R21: `busy` is set by GO alone, and cleared only by the two completions, the two failures, the watchdog abort, and reset. -/
def Obligations.BusyChangesOnlyByNamedSteps : Prop :=
  ∀ (i : Instr) (s t : State), exec i s = .next t →
    (s.busy = false → t.busy = true → ∃ w, i = .hwrCtlGo w) ∧
    (s.busy = true → t.busy = false →
      (i = .evTxAck ∧ s.sendStartNext = false ∧ s.sendSubAddress = false ∧ s.direction = false ∧ s.bytesRemaining = 0) ∨
      (i = .evRx ∧ t.bytesRemaining = 0) ∨ (i = .evTxNack ∧ s.ackPollOnAddressNack = false) ∨
      (∃ c, i = .evOther c) ∨ i = .wdtTickAbort ∨ i = .reset)

/-- R138: who changes the request bits, and that no engine step sets both `STA` and `STO`. -/
def Obligations.RequestBitsHaveTheirWriters : Prop :=
  ∀ (i : Instr) (s t : State), exec i s = .next t →
    (s.sta = false → t.sta = true →
      (∃ w, i = .hwrCtlGo w) ∨ (i = .evTxAck ∧ s.sendStartNext = true) ∨ (i = .evTxNack ∧ s.ackPollOnAddressNack = true)) ∧
    (s.sta = true → t.sta = false →
      i = .evStart ∨ (∃ w, i = .hwrCtlDisable w) ∨ (i = .evTxNack ∧ s.ackPollOnAddressNack = false) ∨ (∃ c, i = .evOther c) ∨
        i = .wdtTickAbort ∨ i = .reset) ∧
    (s.sto = false → t.sto = true → (i = .evTxAck ∧ t.busy = false) ∨ (i = .evRx ∧ t.bytesRemaining = 0)) ∧
    (s.sto = true → t.sto = false →
      i = .luStop ∨ (∃ w, i = .hwrCtlDisable w) ∨ (i = .evTxNack ∧ s.ackPollOnAddressNack = false) ∨ (∃ c, i = .evOther c) ∨
        i = .wdtTickAbort ∨ i = .reset) ∧
    (s.ackrq = false → t.ackrq = true → i = .evRx ∧ t.bytesRemaining ≠ 0) ∧
    (s.ackrq = true → t.ackrq = false →
      (i = .evRx ∧ t.bytesRemaining = 0) ∨ (∃ w, i = .hwrCtlDisable w) ∨
        (i = .evTxNack ∧ s.ackPollOnAddressNack = false) ∨ (∃ c, i = .evOther c) ∨ i = .wdtTickAbort ∨ i = .reset) ∧
    (isEvent i = true → s.sta = false → s.sto = false → ¬(t.sta = true ∧ t.sto = true))

/-- R29, R28, R31: the data phase moves one byte at a time. But for the host's own writes and reset, `bytesRemaining` goes down
by one, only where it is above zero, only in `EV_TX_ACK` and `EV_RX`, and then the cursor goes up by one, modulo 2^16, and the
byte counter by one, modulo 2^8. -/
def Obligations.DataPhaseMovesOneByteAtATime : Prop :=
  ∀ (i : Instr) (s t : State), exec i s = .next t → (∀ w, i ≠ .hwrRemain w) → (∀ w, i ≠ .hwrCursor w) → i ≠ .reset →
    (t.bytesRemaining = s.bytesRemaining ∧ t.dataCursor = s.dataCursor ∧
      (t.byteCount = s.byteCount ∨ (i = .evStart ∧ t.byteCount = 0))) ∨
    ((i = .evTxAck ∨ i = .evRx) ∧ t.bytesRemaining.toNat + 1 = s.bytesRemaining.toNat ∧ t.dataCursor = s.dataCursor + 1 ∧
      t.byteCount = s.byteCount + 1)

/-- 20_memory R59, 60_exceptions R203: while `busy` = 1 the host's operations change nothing but the read data of its own ports
and buffer memory. -/
def Obligations.EngineOwnsTheStateWhileBusy : Prop :=
  ∀ (i : Instr) (s t : State), (isHostWrite i || isHostRead i || isHostMem i) = true → s.busy = true → exec i s = .next t →
    t = { s with regRdata := t.regRdata, memRdata := t.memRdata, mem := t.mem }

/-- The memory frame of every operation: `MWR` stores its byte at its address, `EV_RX` the byte of `DAT` at the cursor while
bytes are wanted, and no other byte of memory changes. -/
def Obligations.MemoryFrameOfEveryOperation : Prop :=
  ∀ (i : Instr) (s t : State), exec i s = .next t →
    ∀ b : Addr, t.memRead b =
      (match i with
      | .mwr a v => if b = a then v else s.memRead b
      | .evRx => if s.bytesRemaining ≠ 0 ∧ b = s.dataCursor then s.dat else s.memRead b
      | _ => s.memRead b)

/-- The parameters are fixed for one machine: no step changes them. -/
def Obligations.ParametersNeverChange : Prop :=
  ∀ s t : State, step s = .next t → t.cfg = s.cfg

/-- The program-level step refuses exactly the turns that break the host's discipline, and is the hardware's step on all others. What
breaks it, operation by operation (log 19): a register write while `busy` = 1 (R100, 93 U3); GO with the flag combination that hangs
(R231, U6); `HWR REMAIN` above 255 (R235, U16); an access to a byte `Mem[cursor .. cursor + n - 1]` of a buffer given to the engine by a
GO since `busy` was last read as 0 (R225, U4); nothing else. Which buffers those are (log 12): a GO that starts a transfer adds
its `dataCursor` and `bytesRemaining`, a read of `STAT` that shows `busy` = 0 empties the list, the host's WAIT among them, and no
other step changes it. -/
def Obligations.StrictStepRefusesCallerErrors : Prop :=
  ∀ s : State,
    (∀ c i e, (fetch s).1 = .word c → decode c = .op i → callerError i (fetch s).2 = some e →
      strictStep s = .refused (.callerError e)) ∧
    ((∀ c i, (fetch s).1 = .word c → decode c = .op i → callerError i (fetch s).2 = none) → strictStep s = step s) ∧
    (∀ i, isHostWrite i = true → s.busy = true → callerError i s = some .writeWhileBusy) ∧
    (∀ w, s.busy = false → callerError (.hwrCtlGo w) s =
      if s.sendSubAddress = true ∧ s.repeatedStartForRead = false ∧ s.direction = true then some .hangingFlags else none) ∧
    (∀ w, s.busy = false → callerError (.hwrRemain w) s = if 255 < w.toNat then some .lengthAbove255 else none) ∧
    (∀ i, isHostWrite i = true → s.busy = false → (∀ w, i ≠ .hwrCtlGo w) → (∀ w, i ≠ .hwrRemain w) → callerError i s = none) ∧
    (∀ a d, callerError (.mrd a d) s =
      if ∃ w ∈ s.windows, ∃ k < w.len.toNat, a = w.base + BitVec.ofNat 16 k then some .bufferOfRunningTransfer else none) ∧
    (∀ a d, callerError (.mwr a d) s =
      if ∃ w ∈ s.windows, ∃ k < w.len.toNat, a = w.base + BitVec.ofNat 16 k then some .bufferOfRunningTransfer else none) ∧
    (∀ i, isHostWrite i = false → isHostMem i = false → callerError i s = none) ∧
    (∀ t w rest prog, step s = .next t → s.inputs = .host :: rest → s.hostProg = .reg w :: prog →
      t.windows =
        (if s.busy = false ∧ w &&& 0x1F00A0#21 = 0x1000A0#21 then ⟨s.dataCursor, s.bytesRemaining⟩ :: s.windows
        else if s.busy = false ∧ w &&& 0x1F0000#21 = 0x070000#21 then []
        else s.windows)) ∧
    (∀ t rest prog, step s = .next t → s.inputs = .host :: rest → s.hostProg = .wait :: prog →
      t.windows = if s.busy = true then s.windows else []) ∧
    (∀ t, step s = .next t → t.windows ≠ s.windows →
      (∃ rest, s.inputs = .host :: rest) ∧ ((∃ w prog, s.hostProg = .reg w :: prog) ∨ ∃ prog, s.hostProg = .wait :: prog))

/-- R143 (first row), R231: the flag combination that hangs. With `sendSubAddress` spent, no repeated START armed and `direction` =
READ the engine takes no action on the sub-address's acknowledge; in the state it leaves, with the line unit a transmitter that
has nothing to send, no step of the engine or of the nominal line unit is enabled, and every step keeps the state hung but the
watchdog abort and a reset. -/
def Obligations.HangEndsOnlyByTheWatchdogOrReset : Prop :=
  (∀ s : State, s.sendStartNext = false → s.sendSubAddress = false → s.direction = true → s.busy = true → s.en = true →
    s.luAckPend = false → s.sto = false → s.sta = false → s.luPhase = .tx → s.luDatFull = false →
    ∃ t, exec .evTxAck s = .next t ∧ t.hung) ∧
  (∀ s t : State, s.cfg.luMode = .nominal → s.hung → step s = .next t →
    t.hung ∨ (s.wdtCount + 1 = s.cfg.wdtPeriodTicks ∧ exec .wdtTickAbort (fetch s).2 = .next t ∧ t.busy = false) ∨
      (exec .reset (fetch s).2 = .next t ∧ t.busy = false))

/-! ### Invariants every step keeps -/

/-- 10_state R48, all items but the third, hold at reset for every choice of the parameters. -/
def Obligations.ControlInvariantAtReset : Prop := ∀ c : Config, (State.resetWith c).ControlOk

/-- 10_state R48, all items but the third, are kept by every step under every `LU_MODE` and `EVENT_ORDER`. -/
def Obligations.ControlInvariantIsKept : Prop := ∀ s t : State, s.ControlOk → step s = .next t → t.ControlOk

/-- What the third item of 10_state R48 rests on holds at reset. -/
def Obligations.NominalInvariantAtReset : Prop := ∀ c : Config, (State.resetWith c).NominalOk

/-- All items of 10_state R48 are kept by every step, with what the third rests on, under the nominal line unit with or without
faults. -/
def Obligations.NominalInvariantIsKept : Prop :=
  ∀ s t : State, s.cfg.luMode ≠ .unconstrained → s.NominalOk → step s = .next t → t.NominalOk

/-- The wire trace of the reset state is a word of the grammar, for every choice of the parameters. -/
def Obligations.WireGrammarAtReset : Prop := ∀ c : Config, (State.resetWith c).WireOk

/-- 42_line_unit R161: under the nominal line unit with or without faults every step keeps the wire trace a word of the grammar,
so far, standing where the line unit stands. The grammar is R161's, for a trace still open, with one addition that the rules of
41_engine_events R143 force (log 15). -/
def Obligations.WireGrammarIsKept : Prop :=
  ∀ s t : State, s.cfg.luMode ≠ .unconstrained → s.NominalOk → s.WireOk → step s = .next t → t.WireOk

/-- The canonical forms hold at reset. -/
def Obligations.CanonicalMemoryAtReset : Prop :=
  ∀ c : Config, Memory.wf (State.resetWith c).mem = true ∧ (State.resetWith c).ee.wf = true

/-- Every step keeps the canonical form of buffer memory and of the mock target's memory. -/
def Obligations.CanonicalMemoryIsKept : Prop :=
  ∀ s t : State, Memory.wf s.mem = true → s.ee.wf = true → step s = .next t → Memory.wf t.mem = true ∧ t.ee.wf = true

/-! ### Headlines -/

/-- 10_state R31 to R33, R46: the shadows are read by no control decision. Two states that differ in `fsm`, `result`,
`byteCount`, the wire trace and the host port's read data alone go, by any step, to two states that differ in those alone. -/
def Obligations.ShadowsDoNotSteer : Prop :=
  ∀ s t s' t' : State, eqUpToShadows s t → step s = .next s' → step t = .next t' → eqUpToShadows s' t'

/-- 60_exceptions R197, R209: no transfer stays in flight longer than the watchdog period. If the schedule delivers the ticks
that are left of `WDT_PERIOD_TICKS`, then at or before the last of them `busy` is 0, whatever the other agents do and in
whatever order. Premise: `wdtCount` is below the period, which `ControlInvariantIsKept` gives. -/
def Obligations.WatchdogBoundsEveryTransfer : Prop :=
  ∀ s : State, s.wdtCount < s.cfg.wdtPeriodTicks → s.cfg.wdtPeriodTicks ≤ s.wdtCount + s.ticksDue →
    ∃ (k : Nat) (t : State), k ≤ 2 * s.inputs.length ∧ Sys2Proof.core.run k s = .next t ∧ t.busy = false

/-- R175: every `FLAGS` write of the four macros sets `ackPollOnAddressNack`, for every argument. -/
def Obligations.MacrosAlwaysPollAcks : Prop :=
  ∀ (t s v : Byte) (a : Addr) (n : Nat) (m : Byte) (c : HostCmd),
    c ∈ apiWriteByte t s v a ++ apiWriteBuf t s a n ++ apiReadByte t s a ++ apiReadBuf t s a m →
    ∀ w wdata, c = .reg w → decode (.host w) = .op (.hwrFlags wdata) → wdata.getLsbD 3 = true

/-- R83, R171 to R174: the expansions of the pseudo-operations and the macros. -/
def Obligations.MacroExpansions : Prop :=
  ∀ (t s v : Byte) (a : Addr) (n : Byte) (k : Nat),
    apiEnable = [.reg (1#1 ++ 0#4 ++ 0x0080#16)] ∧ apiDisable = [.reg (1#1 ++ 0#4 ++ 0x0000#16)] ∧
    apiGo = [.reg (1#1 ++ 0#4 ++ 0x00A0#16)] ∧ apiWait = [.wait] ∧
    apiWriteByte t s v a = [.wait, .mem (1#1 ++ a ++ v), .reg (1#1 ++ 2#4 ++ 0#8 ++ t), .reg (1#1 ++ 3#4 ++ 0#8 ++ s),
      .reg (1#1 ++ 4#4 ++ 0x000A#16), .reg (1#1 ++ 5#4 ++ a), .reg (1#1 ++ 6#4 ++ 1#16), .reg 0x1000A0, .wait] ∧
    apiReadBuf t s a n = [.wait, .reg (1#1 ++ 2#4 ++ 0#8 ++ t), .reg (1#1 ++ 3#4 ++ 0#8 ++ s),
      .reg (1#1 ++ 4#4 ++ 0x000E#16), .reg (1#1 ++ 5#4 ++ a), .reg (1#1 ++ 6#4 ++ 0#8 ++ n), .reg 0x1000A0, .wait] ∧
    apiReadByte t s a = apiReadBuf t s a 1 ++ [.mem (0#1 ++ a ++ 0#8)] ∧
    (apiWriteBuf t s a k).length = 8 * k ∧
    (∀ j, j < k → (apiWriteBuf t s a k).drop (8 * j) =
      [.wait, .reg (1#1 ++ 2#4 ++ 0#8 ++ t), .reg (1#1 ++ 3#4 ++ 0#8 ++ (s + BitVec.ofNat 8 j)),
        .reg (1#1 ++ 4#4 ++ 0x000A#16), .reg (1#1 ++ 5#4 ++ (a + BitVec.ofNat 16 j)), .reg (1#1 ++ 6#4 ++ 1#16),
        .reg 0x1000A0, .wait] ++ (apiWriteBuf t s a k).drop (8 * (j + 1)))
end

