-- ==== Sys2Proof/Laws/State.lean ====
section
/-! SUPPORT. What each update of the state does to each field, one lemma per field per update. -/

namespace Sys2Proof.Machine

/-! ### `emit` -/

@[simp] theorem State.emit_cfg (s : State) (sym : WireSym) : (s.emit sym).cfg = s.cfg := rfl
@[simp] theorem State.emit_busy (s : State) (sym : WireSym) : (s.emit sym).busy = s.busy := rfl
@[simp] theorem State.emit_direction (s : State) (sym : WireSym) : (s.emit sym).direction = s.direction := rfl
@[simp] theorem State.emit_targetAddress (s : State) (sym : WireSym) : (s.emit sym).targetAddress = s.targetAddress := rfl
@[simp] theorem State.emit_subAddress (s : State) (sym : WireSym) : (s.emit sym).subAddress = s.subAddress := rfl
@[simp] theorem State.emit_sendSubAddress (s : State) (sym : WireSym) : (s.emit sym).sendSubAddress = s.sendSubAddress := rfl
@[simp] theorem State.emit_repeatedStartForRead (s : State) (sym : WireSym) : (s.emit sym).repeatedStartForRead = s.repeatedStartForRead := rfl
@[simp] theorem State.emit_ackPollOnAddressNack (s : State) (sym : WireSym) : (s.emit sym).ackPollOnAddressNack = s.ackPollOnAddressNack := rfl
@[simp] theorem State.emit_dataCursor (s : State) (sym : WireSym) : (s.emit sym).dataCursor = s.dataCursor := rfl
@[simp] theorem State.emit_bytesRemaining (s : State) (sym : WireSym) : (s.emit sym).bytesRemaining = s.bytesRemaining := rfl
@[simp] theorem State.emit_sendStartNext (s : State) (sym : WireSym) : (s.emit sym).sendStartNext = s.sendStartNext := rfl
@[simp] theorem State.emit_byteCount (s : State) (sym : WireSym) : (s.emit sym).byteCount = s.byteCount := rfl
@[simp] theorem State.emit_fsm (s : State) (sym : WireSym) : (s.emit sym).fsm = s.fsm := rfl
@[simp] theorem State.emit_result (s : State) (sym : WireSym) : (s.emit sym).result = s.result := rfl
@[simp] theorem State.emit_en (s : State) (sym : WireSym) : (s.emit sym).en = s.en := rfl
@[simp] theorem State.emit_si (s : State) (sym : WireSym) : (s.emit sym).si = s.si := rfl
@[simp] theorem State.emit_sta (s : State) (sym : WireSym) : (s.emit sym).sta = s.sta := rfl
@[simp] theorem State.emit_sto (s : State) (sym : WireSym) : (s.emit sym).sto = s.sto := rfl
@[simp] theorem State.emit_ackrq (s : State) (sym : WireSym) : (s.emit sym).ackrq = s.ackrq := rfl
@[simp] theorem State.emit_status (s : State) (sym : WireSym) : (s.emit sym).status = s.status := rfl
@[simp] theorem State.emit_dat (s : State) (sym : WireSym) : (s.emit sym).dat = s.dat := rfl
@[simp] theorem State.emit_wdtCount (s : State) (sym : WireSym) : (s.emit sym).wdtCount = s.wdtCount := rfl
@[simp] theorem State.emit_luPhase (s : State) (sym : WireSym) : (s.emit sym).luPhase = s.luPhase := rfl
@[simp] theorem State.emit_luDatFull (s : State) (sym : WireSym) : (s.emit sym).luDatFull = s.luDatFull := rfl
@[simp] theorem State.emit_luAckPend (s : State) (sym : WireSym) : (s.emit sym).luAckPend = s.luAckPend := rfl
@[simp] theorem State.emit_mem (s : State) (sym : WireSym) : (s.emit sym).mem = s.mem := rfl
@[simp] theorem State.emit_trace (s : State) (sym : WireSym) : (s.emit sym).trace = s.trace ++ [sym] := rfl
@[simp] theorem State.emit_regRdata (s : State) (sym : WireSym) : (s.emit sym).regRdata = s.regRdata := rfl
@[simp] theorem State.emit_memRdata (s : State) (sym : WireSym) : (s.emit sym).memRdata = s.memRdata := rfl
@[simp] theorem State.emit_windows (s : State) (sym : WireSym) : (s.emit sym).windows = s.windows := rfl
@[simp] theorem State.emit_ee (s : State) (sym : WireSym) : (s.emit sym).ee = s.ee := rfl
@[simp] theorem State.emit_hostProg (s : State) (sym : WireSym) : (s.emit sym).hostProg = s.hostProg := rfl
@[simp] theorem State.emit_inputs (s : State) (sym : WireSym) : (s.emit sym).inputs = s.inputs := rfl

/-! ### `setEn` -/

@[simp] theorem State.setEn_cfg (s : State) (e : Bool) : (s.setEn e).cfg = s.cfg := rfl
@[simp] theorem State.setEn_busy (s : State) (e : Bool) : (s.setEn e).busy = s.busy := rfl
@[simp] theorem State.setEn_direction (s : State) (e : Bool) : (s.setEn e).direction = s.direction := rfl
@[simp] theorem State.setEn_targetAddress (s : State) (e : Bool) : (s.setEn e).targetAddress = s.targetAddress := rfl
@[simp] theorem State.setEn_subAddress (s : State) (e : Bool) : (s.setEn e).subAddress = s.subAddress := rfl
@[simp] theorem State.setEn_sendSubAddress (s : State) (e : Bool) : (s.setEn e).sendSubAddress = s.sendSubAddress := rfl
@[simp] theorem State.setEn_repeatedStartForRead (s : State) (e : Bool) : (s.setEn e).repeatedStartForRead = s.repeatedStartForRead := rfl
@[simp] theorem State.setEn_ackPollOnAddressNack (s : State) (e : Bool) : (s.setEn e).ackPollOnAddressNack = s.ackPollOnAddressNack := rfl
@[simp] theorem State.setEn_dataCursor (s : State) (e : Bool) : (s.setEn e).dataCursor = s.dataCursor := rfl
@[simp] theorem State.setEn_bytesRemaining (s : State) (e : Bool) : (s.setEn e).bytesRemaining = s.bytesRemaining := rfl
@[simp] theorem State.setEn_sendStartNext (s : State) (e : Bool) : (s.setEn e).sendStartNext = s.sendStartNext := rfl
@[simp] theorem State.setEn_byteCount (s : State) (e : Bool) : (s.setEn e).byteCount = s.byteCount := rfl
@[simp] theorem State.setEn_fsm (s : State) (e : Bool) : (s.setEn e).fsm = s.fsm := rfl
@[simp] theorem State.setEn_result (s : State) (e : Bool) : (s.setEn e).result = s.result := rfl
@[simp] theorem State.setEn_en (s : State) (e : Bool) : (s.setEn e).en = e := rfl
@[simp] theorem State.setEn_si (s : State) (e : Bool) : (s.setEn e).si = s.si := rfl
@[simp] theorem State.setEn_sta (s : State) (e : Bool) : (s.setEn e).sta = s.sta := rfl
@[simp] theorem State.setEn_sto (s : State) (e : Bool) : (s.setEn e).sto = s.sto := rfl
@[simp] theorem State.setEn_ackrq (s : State) (e : Bool) : (s.setEn e).ackrq = s.ackrq := rfl
@[simp] theorem State.setEn_status (s : State) (e : Bool) : (s.setEn e).status = s.status := rfl
@[simp] theorem State.setEn_dat (s : State) (e : Bool) : (s.setEn e).dat = s.dat := rfl
@[simp] theorem State.setEn_wdtCount (s : State) (e : Bool) : (s.setEn e).wdtCount = s.wdtCount := rfl
@[simp] theorem State.setEn_luPhase (s : State) (e : Bool) : (s.setEn e).luPhase = s.luPhase := rfl
@[simp] theorem State.setEn_luDatFull (s : State) (e : Bool) : (s.setEn e).luDatFull = s.luDatFull := rfl
@[simp] theorem State.setEn_luAckPend (s : State) (e : Bool) : (s.setEn e).luAckPend = s.luAckPend := rfl
@[simp] theorem State.setEn_mem (s : State) (e : Bool) : (s.setEn e).mem = s.mem := rfl
@[simp] theorem State.setEn_trace (s : State) (e : Bool) : (s.setEn e).trace = s.trace := rfl
@[simp] theorem State.setEn_regRdata (s : State) (e : Bool) : (s.setEn e).regRdata = s.regRdata := rfl
@[simp] theorem State.setEn_memRdata (s : State) (e : Bool) : (s.setEn e).memRdata = s.memRdata := rfl
@[simp] theorem State.setEn_windows (s : State) (e : Bool) : (s.setEn e).windows = s.windows := rfl
@[simp] theorem State.setEn_ee (s : State) (e : Bool) : (s.setEn e).ee = s.ee := rfl
@[simp] theorem State.setEn_hostProg (s : State) (e : Bool) : (s.setEn e).hostProg = s.hostProg := rfl
@[simp] theorem State.setEn_inputs (s : State) (e : Bool) : (s.setEn e).inputs = s.inputs := rfl

/-! ### `eventDone` -/

@[simp] theorem State.eventDone_cfg (s : State) : (s.eventDone).cfg = s.cfg := rfl
@[simp] theorem State.eventDone_busy (s : State) : (s.eventDone).busy = s.busy := rfl
@[simp] theorem State.eventDone_direction (s : State) : (s.eventDone).direction = s.direction := rfl
@[simp] theorem State.eventDone_targetAddress (s : State) : (s.eventDone).targetAddress = s.targetAddress := rfl
@[simp] theorem State.eventDone_subAddress (s : State) : (s.eventDone).subAddress = s.subAddress := rfl
@[simp] theorem State.eventDone_sendSubAddress (s : State) : (s.eventDone).sendSubAddress = s.sendSubAddress := rfl
@[simp] theorem State.eventDone_repeatedStartForRead (s : State) : (s.eventDone).repeatedStartForRead = s.repeatedStartForRead := rfl
@[simp] theorem State.eventDone_ackPollOnAddressNack (s : State) : (s.eventDone).ackPollOnAddressNack = s.ackPollOnAddressNack := rfl
@[simp] theorem State.eventDone_dataCursor (s : State) : (s.eventDone).dataCursor = s.dataCursor := rfl
@[simp] theorem State.eventDone_bytesRemaining (s : State) : (s.eventDone).bytesRemaining = s.bytesRemaining := rfl
@[simp] theorem State.eventDone_sendStartNext (s : State) : (s.eventDone).sendStartNext = s.sendStartNext := rfl
@[simp] theorem State.eventDone_byteCount (s : State) : (s.eventDone).byteCount = s.byteCount := rfl
@[simp] theorem State.eventDone_fsm (s : State) : (s.eventDone).fsm = s.fsm := rfl
@[simp] theorem State.eventDone_result (s : State) : (s.eventDone).result = s.result := rfl
@[simp] theorem State.eventDone_en (s : State) : (s.eventDone).en = s.en := rfl
@[simp] theorem State.eventDone_si (s : State) : (s.eventDone).si = false := rfl
@[simp] theorem State.eventDone_sta (s : State) : (s.eventDone).sta = s.sta := rfl
@[simp] theorem State.eventDone_sto (s : State) : (s.eventDone).sto = s.sto := rfl
@[simp] theorem State.eventDone_ackrq (s : State) : (s.eventDone).ackrq = s.ackrq := rfl
@[simp] theorem State.eventDone_status (s : State) : (s.eventDone).status = s.status := rfl
@[simp] theorem State.eventDone_dat (s : State) : (s.eventDone).dat = s.dat := rfl
@[simp] theorem State.eventDone_wdtCount (s : State) : (s.eventDone).wdtCount = s.wdtCount := rfl
@[simp] theorem State.eventDone_luPhase (s : State) : (s.eventDone).luPhase = s.luPhase := rfl
@[simp] theorem State.eventDone_luDatFull (s : State) : (s.eventDone).luDatFull = s.luDatFull := rfl
@[simp] theorem State.eventDone_luAckPend (s : State) : (s.eventDone).luAckPend = s.luAckPend := rfl
@[simp] theorem State.eventDone_mem (s : State) : (s.eventDone).mem = s.mem := rfl
@[simp] theorem State.eventDone_trace (s : State) : (s.eventDone).trace = s.trace := rfl
@[simp] theorem State.eventDone_regRdata (s : State) : (s.eventDone).regRdata = s.regRdata := rfl
@[simp] theorem State.eventDone_memRdata (s : State) : (s.eventDone).memRdata = s.memRdata := rfl
@[simp] theorem State.eventDone_windows (s : State) : (s.eventDone).windows = s.windows := rfl
@[simp] theorem State.eventDone_ee (s : State) : (s.eventDone).ee = s.ee := rfl
@[simp] theorem State.eventDone_hostProg (s : State) : (s.eventDone).hostProg = s.hostProg := rfl
@[simp] theorem State.eventDone_inputs (s : State) : (s.eventDone).inputs = s.inputs := rfl

/-! ### `memWrite` -/

@[simp] theorem State.memWrite_cfg (s : State) (a : Addr) (v : Byte) : (s.memWrite a v).cfg = s.cfg := rfl
@[simp] theorem State.memWrite_busy (s : State) (a : Addr) (v : Byte) : (s.memWrite a v).busy = s.busy := rfl
@[simp] theorem State.memWrite_direction (s : State) (a : Addr) (v : Byte) : (s.memWrite a v).direction = s.direction := rfl
@[simp] theorem State.memWrite_targetAddress (s : State) (a : Addr) (v : Byte) : (s.memWrite a v).targetAddress = s.targetAddress := rfl
@[simp] theorem State.memWrite_subAddress (s : State) (a : Addr) (v : Byte) : (s.memWrite a v).subAddress = s.subAddress := rfl
@[simp] theorem State.memWrite_sendSubAddress (s : State) (a : Addr) (v : Byte) : (s.memWrite a v).sendSubAddress = s.sendSubAddress := rfl
@[simp] theorem State.memWrite_repeatedStartForRead (s : State) (a : Addr) (v : Byte) : (s.memWrite a v).repeatedStartForRead = s.repeatedStartForRead := rfl
@[simp] theorem State.memWrite_ackPollOnAddressNack (s : State) (a : Addr) (v : Byte) : (s.memWrite a v).ackPollOnAddressNack = s.ackPollOnAddressNack := rfl
@[simp] theorem State.memWrite_dataCursor (s : State) (a : Addr) (v : Byte) : (s.memWrite a v).dataCursor = s.dataCursor := rfl
@[simp] theorem State.memWrite_bytesRemaining (s : State) (a : Addr) (v : Byte) : (s.memWrite a v).bytesRemaining = s.bytesRemaining := rfl
@[simp] theorem State.memWrite_sendStartNext (s : State) (a : Addr) (v : Byte) : (s.memWrite a v).sendStartNext = s.sendStartNext := rfl
@[simp] theorem State.memWrite_byteCount (s : State) (a : Addr) (v : Byte) : (s.memWrite a v).byteCount = s.byteCount := rfl
@[simp] theorem State.memWrite_fsm (s : State) (a : Addr) (v : Byte) : (s.memWrite a v).fsm = s.fsm := rfl
@[simp] theorem State.memWrite_result (s : State) (a : Addr) (v : Byte) : (s.memWrite a v).result = s.result := rfl
@[simp] theorem State.memWrite_en (s : State) (a : Addr) (v : Byte) : (s.memWrite a v).en = s.en := rfl
@[simp] theorem State.memWrite_si (s : State) (a : Addr) (v : Byte) : (s.memWrite a v).si = s.si := rfl
@[simp] theorem State.memWrite_sta (s : State) (a : Addr) (v : Byte) : (s.memWrite a v).sta = s.sta := rfl
@[simp] theorem State.memWrite_sto (s : State) (a : Addr) (v : Byte) : (s.memWrite a v).sto = s.sto := rfl
@[simp] theorem State.memWrite_ackrq (s : State) (a : Addr) (v : Byte) : (s.memWrite a v).ackrq = s.ackrq := rfl
@[simp] theorem State.memWrite_status (s : State) (a : Addr) (v : Byte) : (s.memWrite a v).status = s.status := rfl
@[simp] theorem State.memWrite_dat (s : State) (a : Addr) (v : Byte) : (s.memWrite a v).dat = s.dat := rfl
@[simp] theorem State.memWrite_wdtCount (s : State) (a : Addr) (v : Byte) : (s.memWrite a v).wdtCount = s.wdtCount := rfl
@[simp] theorem State.memWrite_luPhase (s : State) (a : Addr) (v : Byte) : (s.memWrite a v).luPhase = s.luPhase := rfl
@[simp] theorem State.memWrite_luDatFull (s : State) (a : Addr) (v : Byte) : (s.memWrite a v).luDatFull = s.luDatFull := rfl
@[simp] theorem State.memWrite_luAckPend (s : State) (a : Addr) (v : Byte) : (s.memWrite a v).luAckPend = s.luAckPend := rfl
@[simp] theorem State.memWrite_mem (s : State) (a : Addr) (v : Byte) : (s.memWrite a v).mem = setCell s.mem a.toNat v := rfl
@[simp] theorem State.memWrite_trace (s : State) (a : Addr) (v : Byte) : (s.memWrite a v).trace = s.trace := rfl
@[simp] theorem State.memWrite_regRdata (s : State) (a : Addr) (v : Byte) : (s.memWrite a v).regRdata = s.regRdata := rfl
@[simp] theorem State.memWrite_memRdata (s : State) (a : Addr) (v : Byte) : (s.memWrite a v).memRdata = s.memRdata := rfl
@[simp] theorem State.memWrite_windows (s : State) (a : Addr) (v : Byte) : (s.memWrite a v).windows = s.windows := rfl
@[simp] theorem State.memWrite_ee (s : State) (a : Addr) (v : Byte) : (s.memWrite a v).ee = s.ee := rfl
@[simp] theorem State.memWrite_hostProg (s : State) (a : Addr) (v : Byte) : (s.memWrite a v).hostProg = s.hostProg := rfl
@[simp] theorem State.memWrite_inputs (s : State) (a : Addr) (v : Byte) : (s.memWrite a v).inputs = s.inputs := rfl

/-! ### `hostRead8` -/

@[simp] theorem State.hostRead8_cfg (s : State) (v : Byte) : (s.hostRead8 v).cfg = s.cfg := rfl
@[simp] theorem State.hostRead8_busy (s : State) (v : Byte) : (s.hostRead8 v).busy = s.busy := rfl
@[simp] theorem State.hostRead8_direction (s : State) (v : Byte) : (s.hostRead8 v).direction = s.direction := rfl
@[simp] theorem State.hostRead8_targetAddress (s : State) (v : Byte) : (s.hostRead8 v).targetAddress = s.targetAddress := rfl
@[simp] theorem State.hostRead8_subAddress (s : State) (v : Byte) : (s.hostRead8 v).subAddress = s.subAddress := rfl
@[simp] theorem State.hostRead8_sendSubAddress (s : State) (v : Byte) : (s.hostRead8 v).sendSubAddress = s.sendSubAddress := rfl
@[simp] theorem State.hostRead8_repeatedStartForRead (s : State) (v : Byte) : (s.hostRead8 v).repeatedStartForRead = s.repeatedStartForRead := rfl
@[simp] theorem State.hostRead8_ackPollOnAddressNack (s : State) (v : Byte) : (s.hostRead8 v).ackPollOnAddressNack = s.ackPollOnAddressNack := rfl
@[simp] theorem State.hostRead8_dataCursor (s : State) (v : Byte) : (s.hostRead8 v).dataCursor = s.dataCursor := rfl
@[simp] theorem State.hostRead8_bytesRemaining (s : State) (v : Byte) : (s.hostRead8 v).bytesRemaining = s.bytesRemaining := rfl
@[simp] theorem State.hostRead8_sendStartNext (s : State) (v : Byte) : (s.hostRead8 v).sendStartNext = s.sendStartNext := rfl
@[simp] theorem State.hostRead8_byteCount (s : State) (v : Byte) : (s.hostRead8 v).byteCount = s.byteCount := rfl
@[simp] theorem State.hostRead8_fsm (s : State) (v : Byte) : (s.hostRead8 v).fsm = s.fsm := rfl
@[simp] theorem State.hostRead8_result (s : State) (v : Byte) : (s.hostRead8 v).result = s.result := rfl
@[simp] theorem State.hostRead8_en (s : State) (v : Byte) : (s.hostRead8 v).en = s.en := rfl
@[simp] theorem State.hostRead8_si (s : State) (v : Byte) : (s.hostRead8 v).si = s.si := rfl
@[simp] theorem State.hostRead8_sta (s : State) (v : Byte) : (s.hostRead8 v).sta = s.sta := rfl
@[simp] theorem State.hostRead8_sto (s : State) (v : Byte) : (s.hostRead8 v).sto = s.sto := rfl
@[simp] theorem State.hostRead8_ackrq (s : State) (v : Byte) : (s.hostRead8 v).ackrq = s.ackrq := rfl
@[simp] theorem State.hostRead8_status (s : State) (v : Byte) : (s.hostRead8 v).status = s.status := rfl
@[simp] theorem State.hostRead8_dat (s : State) (v : Byte) : (s.hostRead8 v).dat = s.dat := rfl
@[simp] theorem State.hostRead8_wdtCount (s : State) (v : Byte) : (s.hostRead8 v).wdtCount = s.wdtCount := rfl
@[simp] theorem State.hostRead8_luPhase (s : State) (v : Byte) : (s.hostRead8 v).luPhase = s.luPhase := rfl
@[simp] theorem State.hostRead8_luDatFull (s : State) (v : Byte) : (s.hostRead8 v).luDatFull = s.luDatFull := rfl
@[simp] theorem State.hostRead8_luAckPend (s : State) (v : Byte) : (s.hostRead8 v).luAckPend = s.luAckPend := rfl
@[simp] theorem State.hostRead8_mem (s : State) (v : Byte) : (s.hostRead8 v).mem = s.mem := rfl
@[simp] theorem State.hostRead8_trace (s : State) (v : Byte) : (s.hostRead8 v).trace = s.trace := rfl
@[simp] theorem State.hostRead8_regRdata (s : State) (v : Byte) : (s.hostRead8 v).regRdata = v.setWidth 16 := rfl
@[simp] theorem State.hostRead8_memRdata (s : State) (v : Byte) : (s.hostRead8 v).memRdata = s.memRdata := rfl
@[simp] theorem State.hostRead8_windows (s : State) (v : Byte) : (s.hostRead8 v).windows = s.windows := rfl
@[simp] theorem State.hostRead8_ee (s : State) (v : Byte) : (s.hostRead8 v).ee = s.ee := rfl
@[simp] theorem State.hostRead8_hostProg (s : State) (v : Byte) : (s.hostRead8 v).hostProg = s.hostProg := rfl
@[simp] theorem State.hostRead8_inputs (s : State) (v : Byte) : (s.hostRead8 v).inputs = s.inputs := rfl

/-! ### `hostRead16` -/

@[simp] theorem State.hostRead16_cfg (s : State) (v : Word16) : (s.hostRead16 v).cfg = s.cfg := rfl
@[simp] theorem State.hostRead16_busy (s : State) (v : Word16) : (s.hostRead16 v).busy = s.busy := rfl
@[simp] theorem State.hostRead16_direction (s : State) (v : Word16) : (s.hostRead16 v).direction = s.direction := rfl
@[simp] theorem State.hostRead16_targetAddress (s : State) (v : Word16) : (s.hostRead16 v).targetAddress = s.targetAddress := rfl
@[simp] theorem State.hostRead16_subAddress (s : State) (v : Word16) : (s.hostRead16 v).subAddress = s.subAddress := rfl
@[simp] theorem State.hostRead16_sendSubAddress (s : State) (v : Word16) : (s.hostRead16 v).sendSubAddress = s.sendSubAddress := rfl
@[simp] theorem State.hostRead16_repeatedStartForRead (s : State) (v : Word16) : (s.hostRead16 v).repeatedStartForRead = s.repeatedStartForRead := rfl
@[simp] theorem State.hostRead16_ackPollOnAddressNack (s : State) (v : Word16) : (s.hostRead16 v).ackPollOnAddressNack = s.ackPollOnAddressNack := rfl
@[simp] theorem State.hostRead16_dataCursor (s : State) (v : Word16) : (s.hostRead16 v).dataCursor = s.dataCursor := rfl
@[simp] theorem State.hostRead16_bytesRemaining (s : State) (v : Word16) : (s.hostRead16 v).bytesRemaining = s.bytesRemaining := rfl
@[simp] theorem State.hostRead16_sendStartNext (s : State) (v : Word16) : (s.hostRead16 v).sendStartNext = s.sendStartNext := rfl
@[simp] theorem State.hostRead16_byteCount (s : State) (v : Word16) : (s.hostRead16 v).byteCount = s.byteCount := rfl
@[simp] theorem State.hostRead16_fsm (s : State) (v : Word16) : (s.hostRead16 v).fsm = s.fsm := rfl
@[simp] theorem State.hostRead16_result (s : State) (v : Word16) : (s.hostRead16 v).result = s.result := rfl
@[simp] theorem State.hostRead16_en (s : State) (v : Word16) : (s.hostRead16 v).en = s.en := rfl
@[simp] theorem State.hostRead16_si (s : State) (v : Word16) : (s.hostRead16 v).si = s.si := rfl
@[simp] theorem State.hostRead16_sta (s : State) (v : Word16) : (s.hostRead16 v).sta = s.sta := rfl
@[simp] theorem State.hostRead16_sto (s : State) (v : Word16) : (s.hostRead16 v).sto = s.sto := rfl
@[simp] theorem State.hostRead16_ackrq (s : State) (v : Word16) : (s.hostRead16 v).ackrq = s.ackrq := rfl
@[simp] theorem State.hostRead16_status (s : State) (v : Word16) : (s.hostRead16 v).status = s.status := rfl
@[simp] theorem State.hostRead16_dat (s : State) (v : Word16) : (s.hostRead16 v).dat = s.dat := rfl
@[simp] theorem State.hostRead16_wdtCount (s : State) (v : Word16) : (s.hostRead16 v).wdtCount = s.wdtCount := rfl
@[simp] theorem State.hostRead16_luPhase (s : State) (v : Word16) : (s.hostRead16 v).luPhase = s.luPhase := rfl
@[simp] theorem State.hostRead16_luDatFull (s : State) (v : Word16) : (s.hostRead16 v).luDatFull = s.luDatFull := rfl
@[simp] theorem State.hostRead16_luAckPend (s : State) (v : Word16) : (s.hostRead16 v).luAckPend = s.luAckPend := rfl
@[simp] theorem State.hostRead16_mem (s : State) (v : Word16) : (s.hostRead16 v).mem = s.mem := rfl
@[simp] theorem State.hostRead16_trace (s : State) (v : Word16) : (s.hostRead16 v).trace = s.trace := rfl
@[simp] theorem State.hostRead16_regRdata (s : State) (v : Word16) : (s.hostRead16 v).regRdata = v := rfl
@[simp] theorem State.hostRead16_memRdata (s : State) (v : Word16) : (s.hostRead16 v).memRdata = s.memRdata := rfl
@[simp] theorem State.hostRead16_windows (s : State) (v : Word16) : (s.hostRead16 v).windows = s.windows := rfl
@[simp] theorem State.hostRead16_ee (s : State) (v : Word16) : (s.hostRead16 v).ee = s.ee := rfl
@[simp] theorem State.hostRead16_hostProg (s : State) (v : Word16) : (s.hostRead16 v).hostProg = s.hostProg := rfl
@[simp] theorem State.hostRead16_inputs (s : State) (v : Word16) : (s.hostRead16 v).inputs = s.inputs := rfl

/-! ### `loadDat` -/

@[simp] theorem State.loadDat_cfg (s : State) (v : Byte) : (s.loadDat v).cfg = s.cfg := rfl
@[simp] theorem State.loadDat_busy (s : State) (v : Byte) : (s.loadDat v).busy = s.busy := rfl
@[simp] theorem State.loadDat_direction (s : State) (v : Byte) : (s.loadDat v).direction = s.direction := rfl
@[simp] theorem State.loadDat_targetAddress (s : State) (v : Byte) : (s.loadDat v).targetAddress = s.targetAddress := rfl
@[simp] theorem State.loadDat_subAddress (s : State) (v : Byte) : (s.loadDat v).subAddress = s.subAddress := rfl
@[simp] theorem State.loadDat_sendSubAddress (s : State) (v : Byte) : (s.loadDat v).sendSubAddress = s.sendSubAddress := rfl
@[simp] theorem State.loadDat_repeatedStartForRead (s : State) (v : Byte) : (s.loadDat v).repeatedStartForRead = s.repeatedStartForRead := rfl
@[simp] theorem State.loadDat_ackPollOnAddressNack (s : State) (v : Byte) : (s.loadDat v).ackPollOnAddressNack = s.ackPollOnAddressNack := rfl
@[simp] theorem State.loadDat_dataCursor (s : State) (v : Byte) : (s.loadDat v).dataCursor = s.dataCursor := rfl
@[simp] theorem State.loadDat_bytesRemaining (s : State) (v : Byte) : (s.loadDat v).bytesRemaining = s.bytesRemaining := rfl
@[simp] theorem State.loadDat_sendStartNext (s : State) (v : Byte) : (s.loadDat v).sendStartNext = s.sendStartNext := rfl
@[simp] theorem State.loadDat_byteCount (s : State) (v : Byte) : (s.loadDat v).byteCount = s.byteCount := rfl
@[simp] theorem State.loadDat_fsm (s : State) (v : Byte) : (s.loadDat v).fsm = s.fsm := rfl
@[simp] theorem State.loadDat_result (s : State) (v : Byte) : (s.loadDat v).result = s.result := rfl
@[simp] theorem State.loadDat_en (s : State) (v : Byte) : (s.loadDat v).en = s.en := rfl
@[simp] theorem State.loadDat_si (s : State) (v : Byte) : (s.loadDat v).si = s.si := rfl
@[simp] theorem State.loadDat_sta (s : State) (v : Byte) : (s.loadDat v).sta = s.sta := rfl
@[simp] theorem State.loadDat_sto (s : State) (v : Byte) : (s.loadDat v).sto = s.sto := rfl
@[simp] theorem State.loadDat_ackrq (s : State) (v : Byte) : (s.loadDat v).ackrq = s.ackrq := rfl
@[simp] theorem State.loadDat_status (s : State) (v : Byte) : (s.loadDat v).status = s.status := rfl
@[simp] theorem State.loadDat_dat (s : State) (v : Byte) : (s.loadDat v).dat = v := rfl
@[simp] theorem State.loadDat_wdtCount (s : State) (v : Byte) : (s.loadDat v).wdtCount = s.wdtCount := rfl
@[simp] theorem State.loadDat_luPhase (s : State) (v : Byte) : (s.loadDat v).luPhase = s.luPhase := rfl
@[simp] theorem State.loadDat_luDatFull (s : State) (v : Byte) : (s.loadDat v).luDatFull = true := rfl
@[simp] theorem State.loadDat_luAckPend (s : State) (v : Byte) : (s.loadDat v).luAckPend = s.luAckPend := rfl
@[simp] theorem State.loadDat_mem (s : State) (v : Byte) : (s.loadDat v).mem = s.mem := rfl
@[simp] theorem State.loadDat_trace (s : State) (v : Byte) : (s.loadDat v).trace = s.trace := rfl
@[simp] theorem State.loadDat_regRdata (s : State) (v : Byte) : (s.loadDat v).regRdata = s.regRdata := rfl
@[simp] theorem State.loadDat_memRdata (s : State) (v : Byte) : (s.loadDat v).memRdata = s.memRdata := rfl
@[simp] theorem State.loadDat_windows (s : State) (v : Byte) : (s.loadDat v).windows = s.windows := rfl
@[simp] theorem State.loadDat_ee (s : State) (v : Byte) : (s.loadDat v).ee = s.ee := rfl
@[simp] theorem State.loadDat_hostProg (s : State) (v : Byte) : (s.loadDat v).hostProg = s.hostProg := rfl
@[simp] theorem State.loadDat_inputs (s : State) (v : Byte) : (s.loadDat v).inputs = s.inputs := rfl

/-! ### `latch` -/

@[simp] theorem State.latch_cfg (s : State) (c : BitVec 3) : (s.latch c).cfg = s.cfg := rfl
@[simp] theorem State.latch_busy (s : State) (c : BitVec 3) : (s.latch c).busy = s.busy := rfl
@[simp] theorem State.latch_direction (s : State) (c : BitVec 3) : (s.latch c).direction = s.direction := rfl
@[simp] theorem State.latch_targetAddress (s : State) (c : BitVec 3) : (s.latch c).targetAddress = s.targetAddress := rfl
@[simp] theorem State.latch_subAddress (s : State) (c : BitVec 3) : (s.latch c).subAddress = s.subAddress := rfl
@[simp] theorem State.latch_sendSubAddress (s : State) (c : BitVec 3) : (s.latch c).sendSubAddress = s.sendSubAddress := rfl
@[simp] theorem State.latch_repeatedStartForRead (s : State) (c : BitVec 3) : (s.latch c).repeatedStartForRead = s.repeatedStartForRead := rfl
@[simp] theorem State.latch_ackPollOnAddressNack (s : State) (c : BitVec 3) : (s.latch c).ackPollOnAddressNack = s.ackPollOnAddressNack := rfl
@[simp] theorem State.latch_dataCursor (s : State) (c : BitVec 3) : (s.latch c).dataCursor = s.dataCursor := rfl
@[simp] theorem State.latch_bytesRemaining (s : State) (c : BitVec 3) : (s.latch c).bytesRemaining = s.bytesRemaining := rfl
@[simp] theorem State.latch_sendStartNext (s : State) (c : BitVec 3) : (s.latch c).sendStartNext = s.sendStartNext := rfl
@[simp] theorem State.latch_byteCount (s : State) (c : BitVec 3) : (s.latch c).byteCount = s.byteCount := rfl
@[simp] theorem State.latch_fsm (s : State) (c : BitVec 3) : (s.latch c).fsm = s.fsm := rfl
@[simp] theorem State.latch_result (s : State) (c : BitVec 3) : (s.latch c).result = s.result := rfl
@[simp] theorem State.latch_en (s : State) (c : BitVec 3) : (s.latch c).en = s.en := rfl
@[simp] theorem State.latch_si (s : State) (c : BitVec 3) : (s.latch c).si = true := rfl
@[simp] theorem State.latch_sta (s : State) (c : BitVec 3) : (s.latch c).sta = s.sta := rfl
@[simp] theorem State.latch_sto (s : State) (c : BitVec 3) : (s.latch c).sto = s.sto := rfl
@[simp] theorem State.latch_ackrq (s : State) (c : BitVec 3) : (s.latch c).ackrq = s.ackrq := rfl
@[simp] theorem State.latch_status (s : State) (c : BitVec 3) : (s.latch c).status = c := rfl
@[simp] theorem State.latch_dat (s : State) (c : BitVec 3) : (s.latch c).dat = s.dat := rfl
@[simp] theorem State.latch_wdtCount (s : State) (c : BitVec 3) : (s.latch c).wdtCount = s.wdtCount := rfl
@[simp] theorem State.latch_luPhase (s : State) (c : BitVec 3) : (s.latch c).luPhase = s.luPhase := rfl
@[simp] theorem State.latch_luDatFull (s : State) (c : BitVec 3) : (s.latch c).luDatFull = s.luDatFull := rfl
@[simp] theorem State.latch_luAckPend (s : State) (c : BitVec 3) : (s.latch c).luAckPend = s.luAckPend := rfl
@[simp] theorem State.latch_mem (s : State) (c : BitVec 3) : (s.latch c).mem = s.mem := rfl
@[simp] theorem State.latch_trace (s : State) (c : BitVec 3) : (s.latch c).trace = s.trace := rfl
@[simp] theorem State.latch_regRdata (s : State) (c : BitVec 3) : (s.latch c).regRdata = s.regRdata := rfl
@[simp] theorem State.latch_memRdata (s : State) (c : BitVec 3) : (s.latch c).memRdata = s.memRdata := rfl
@[simp] theorem State.latch_windows (s : State) (c : BitVec 3) : (s.latch c).windows = s.windows := rfl
@[simp] theorem State.latch_ee (s : State) (c : BitVec 3) : (s.latch c).ee = s.ee := rfl
@[simp] theorem State.latch_hostProg (s : State) (c : BitVec 3) : (s.latch c).hostProg = s.hostProg := rfl
@[simp] theorem State.latch_inputs (s : State) (c : BitVec 3) : (s.latch c).inputs = s.inputs := rfl

/-! ### `advance` -/

@[simp] theorem State.advance_cfg (s : State) : (s.advance).cfg = s.cfg := rfl
@[simp] theorem State.advance_busy (s : State) : (s.advance).busy = s.busy := rfl
@[simp] theorem State.advance_direction (s : State) : (s.advance).direction = s.direction := rfl
@[simp] theorem State.advance_targetAddress (s : State) : (s.advance).targetAddress = s.targetAddress := rfl
@[simp] theorem State.advance_subAddress (s : State) : (s.advance).subAddress = s.subAddress := rfl
@[simp] theorem State.advance_sendSubAddress (s : State) : (s.advance).sendSubAddress = s.sendSubAddress := rfl
@[simp] theorem State.advance_repeatedStartForRead (s : State) : (s.advance).repeatedStartForRead = s.repeatedStartForRead := rfl
@[simp] theorem State.advance_ackPollOnAddressNack (s : State) : (s.advance).ackPollOnAddressNack = s.ackPollOnAddressNack := rfl
@[simp] theorem State.advance_dataCursor (s : State) : (s.advance).dataCursor = s.dataCursor + 1 := rfl
@[simp] theorem State.advance_bytesRemaining (s : State) : (s.advance).bytesRemaining = s.bytesRemaining - 1 := rfl
@[simp] theorem State.advance_sendStartNext (s : State) : (s.advance).sendStartNext = s.sendStartNext := rfl
@[simp] theorem State.advance_byteCount (s : State) : (s.advance).byteCount = s.byteCount + 1 := rfl
@[simp] theorem State.advance_fsm (s : State) : (s.advance).fsm = s.fsm := rfl
@[simp] theorem State.advance_result (s : State) : (s.advance).result = s.result := rfl
@[simp] theorem State.advance_en (s : State) : (s.advance).en = s.en := rfl
@[simp] theorem State.advance_si (s : State) : (s.advance).si = s.si := rfl
@[simp] theorem State.advance_sta (s : State) : (s.advance).sta = s.sta := rfl
@[simp] theorem State.advance_sto (s : State) : (s.advance).sto = s.sto := rfl
@[simp] theorem State.advance_ackrq (s : State) : (s.advance).ackrq = s.ackrq := rfl
@[simp] theorem State.advance_status (s : State) : (s.advance).status = s.status := rfl
@[simp] theorem State.advance_dat (s : State) : (s.advance).dat = s.dat := rfl
@[simp] theorem State.advance_wdtCount (s : State) : (s.advance).wdtCount = s.wdtCount := rfl
@[simp] theorem State.advance_luPhase (s : State) : (s.advance).luPhase = s.luPhase := rfl
@[simp] theorem State.advance_luDatFull (s : State) : (s.advance).luDatFull = s.luDatFull := rfl
@[simp] theorem State.advance_luAckPend (s : State) : (s.advance).luAckPend = s.luAckPend := rfl
@[simp] theorem State.advance_mem (s : State) : (s.advance).mem = s.mem := rfl
@[simp] theorem State.advance_trace (s : State) : (s.advance).trace = s.trace := rfl
@[simp] theorem State.advance_regRdata (s : State) : (s.advance).regRdata = s.regRdata := rfl
@[simp] theorem State.advance_memRdata (s : State) : (s.advance).memRdata = s.memRdata := rfl
@[simp] theorem State.advance_windows (s : State) : (s.advance).windows = s.windows := rfl
@[simp] theorem State.advance_ee (s : State) : (s.advance).ee = s.ee := rfl
@[simp] theorem State.advance_hostProg (s : State) : (s.advance).hostProg = s.hostProg := rfl
@[simp] theorem State.advance_inputs (s : State) : (s.advance).inputs = s.inputs := rfl

/-! ### `complete` -/

@[simp] theorem State.complete_cfg (s : State) : (s.complete).cfg = s.cfg := rfl
@[simp] theorem State.complete_busy (s : State) : (s.complete).busy = false := rfl
@[simp] theorem State.complete_direction (s : State) : (s.complete).direction = s.direction := rfl
@[simp] theorem State.complete_targetAddress (s : State) : (s.complete).targetAddress = s.targetAddress := rfl
@[simp] theorem State.complete_subAddress (s : State) : (s.complete).subAddress = s.subAddress := rfl
@[simp] theorem State.complete_sendSubAddress (s : State) : (s.complete).sendSubAddress = s.sendSubAddress := rfl
@[simp] theorem State.complete_repeatedStartForRead (s : State) : (s.complete).repeatedStartForRead = s.repeatedStartForRead := rfl
@[simp] theorem State.complete_ackPollOnAddressNack (s : State) : (s.complete).ackPollOnAddressNack = s.ackPollOnAddressNack := rfl
@[simp] theorem State.complete_dataCursor (s : State) : (s.complete).dataCursor = s.dataCursor := rfl
@[simp] theorem State.complete_bytesRemaining (s : State) : (s.complete).bytesRemaining = s.bytesRemaining := rfl
@[simp] theorem State.complete_sendStartNext (s : State) : (s.complete).sendStartNext = s.sendStartNext := rfl
@[simp] theorem State.complete_byteCount (s : State) : (s.complete).byteCount = s.byteCount := rfl
@[simp] theorem State.complete_fsm (s : State) : (s.complete).fsm = 0 := rfl
@[simp] theorem State.complete_result (s : State) : (s.complete).result = 1 := rfl
@[simp] theorem State.complete_en (s : State) : (s.complete).en = s.en := rfl
@[simp] theorem State.complete_si (s : State) : (s.complete).si = s.si := rfl
@[simp] theorem State.complete_sta (s : State) : (s.complete).sta = s.sta := rfl
@[simp] theorem State.complete_sto (s : State) : (s.complete).sto = true := rfl
@[simp] theorem State.complete_ackrq (s : State) : (s.complete).ackrq = s.ackrq := rfl
@[simp] theorem State.complete_status (s : State) : (s.complete).status = s.status := rfl
@[simp] theorem State.complete_dat (s : State) : (s.complete).dat = s.dat := rfl
@[simp] theorem State.complete_wdtCount (s : State) : (s.complete).wdtCount = 0 := rfl
@[simp] theorem State.complete_luPhase (s : State) : (s.complete).luPhase = s.luPhase := rfl
@[simp] theorem State.complete_luDatFull (s : State) : (s.complete).luDatFull = s.luDatFull := rfl
@[simp] theorem State.complete_luAckPend (s : State) : (s.complete).luAckPend = s.luAckPend := rfl
@[simp] theorem State.complete_mem (s : State) : (s.complete).mem = s.mem := rfl
@[simp] theorem State.complete_trace (s : State) : (s.complete).trace = s.trace := rfl
@[simp] theorem State.complete_regRdata (s : State) : (s.complete).regRdata = s.regRdata := rfl
@[simp] theorem State.complete_memRdata (s : State) : (s.complete).memRdata = s.memRdata := rfl
@[simp] theorem State.complete_windows (s : State) : (s.complete).windows = s.windows := rfl
@[simp] theorem State.complete_ee (s : State) : (s.complete).ee = s.ee := rfl
@[simp] theorem State.complete_hostProg (s : State) : (s.complete).hostProg = s.hostProg := rfl
@[simp] theorem State.complete_inputs (s : State) : (s.complete).inputs = s.inputs := rfl

/-! ### `startTransfer` -/

@[simp] theorem State.startTransfer_cfg (s : State) : (s.startTransfer).cfg = s.cfg := rfl
@[simp] theorem State.startTransfer_busy (s : State) : (s.startTransfer).busy = true := rfl
@[simp] theorem State.startTransfer_direction (s : State) : (s.startTransfer).direction = s.direction := rfl
@[simp] theorem State.startTransfer_targetAddress (s : State) : (s.startTransfer).targetAddress = s.targetAddress := rfl
@[simp] theorem State.startTransfer_subAddress (s : State) : (s.startTransfer).subAddress = s.subAddress := rfl
@[simp] theorem State.startTransfer_sendSubAddress (s : State) : (s.startTransfer).sendSubAddress = s.sendSubAddress := rfl
@[simp] theorem State.startTransfer_repeatedStartForRead (s : State) : (s.startTransfer).repeatedStartForRead = s.repeatedStartForRead := rfl
@[simp] theorem State.startTransfer_ackPollOnAddressNack (s : State) : (s.startTransfer).ackPollOnAddressNack = s.ackPollOnAddressNack := rfl
@[simp] theorem State.startTransfer_dataCursor (s : State) : (s.startTransfer).dataCursor = s.dataCursor := rfl
@[simp] theorem State.startTransfer_bytesRemaining (s : State) : (s.startTransfer).bytesRemaining = s.bytesRemaining := rfl
@[simp] theorem State.startTransfer_sendStartNext (s : State) : (s.startTransfer).sendStartNext = s.sendStartNext := rfl
@[simp] theorem State.startTransfer_byteCount (s : State) : (s.startTransfer).byteCount = s.byteCount := rfl
@[simp] theorem State.startTransfer_fsm (s : State) : (s.startTransfer).fsm = 1 := rfl
@[simp] theorem State.startTransfer_result (s : State) : (s.startTransfer).result = 0 := rfl
@[simp] theorem State.startTransfer_en (s : State) : (s.startTransfer).en = true := rfl
@[simp] theorem State.startTransfer_si (s : State) : (s.startTransfer).si = s.si := rfl
@[simp] theorem State.startTransfer_sta (s : State) : (s.startTransfer).sta = true := rfl
@[simp] theorem State.startTransfer_sto (s : State) : (s.startTransfer).sto = s.sto := rfl
@[simp] theorem State.startTransfer_ackrq (s : State) : (s.startTransfer).ackrq = s.ackrq := rfl
@[simp] theorem State.startTransfer_status (s : State) : (s.startTransfer).status = s.status := rfl
@[simp] theorem State.startTransfer_dat (s : State) : (s.startTransfer).dat = s.dat := rfl
@[simp] theorem State.startTransfer_wdtCount (s : State) : (s.startTransfer).wdtCount = 0 := rfl
@[simp] theorem State.startTransfer_luPhase (s : State) : (s.startTransfer).luPhase = s.luPhase := rfl
@[simp] theorem State.startTransfer_luDatFull (s : State) : (s.startTransfer).luDatFull = s.luDatFull := rfl
@[simp] theorem State.startTransfer_luAckPend (s : State) : (s.startTransfer).luAckPend = s.luAckPend := rfl
@[simp] theorem State.startTransfer_mem (s : State) : (s.startTransfer).mem = s.mem := rfl
@[simp] theorem State.startTransfer_trace (s : State) : (s.startTransfer).trace = s.trace := rfl
@[simp] theorem State.startTransfer_regRdata (s : State) : (s.startTransfer).regRdata = s.regRdata := rfl
@[simp] theorem State.startTransfer_memRdata (s : State) : (s.startTransfer).memRdata = s.memRdata := rfl
@[simp] theorem State.startTransfer_windows (s : State) : (s.startTransfer).windows = s.windows := rfl
@[simp] theorem State.startTransfer_ee (s : State) : (s.startTransfer).ee = s.ee := rfl
@[simp] theorem State.startTransfer_hostProg (s : State) : (s.startTransfer).hostProg = s.hostProg := rfl
@[simp] theorem State.startTransfer_inputs (s : State) : (s.startTransfer).inputs = s.inputs := rfl

/-! ### `lineUnconstrained` -/

@[simp] theorem State.lineUnconstrained_cfg (s : State) (c : BitVec 3) (l : Option Byte) (k : Bool) : (s.lineUnconstrained c l k).cfg = s.cfg := rfl
@[simp] theorem State.lineUnconstrained_busy (s : State) (c : BitVec 3) (l : Option Byte) (k : Bool) : (s.lineUnconstrained c l k).busy = s.busy := rfl
@[simp] theorem State.lineUnconstrained_direction (s : State) (c : BitVec 3) (l : Option Byte) (k : Bool) : (s.lineUnconstrained c l k).direction = s.direction := rfl
@[simp] theorem State.lineUnconstrained_targetAddress (s : State) (c : BitVec 3) (l : Option Byte) (k : Bool) : (s.lineUnconstrained c l k).targetAddress = s.targetAddress := rfl
@[simp] theorem State.lineUnconstrained_subAddress (s : State) (c : BitVec 3) (l : Option Byte) (k : Bool) : (s.lineUnconstrained c l k).subAddress = s.subAddress := rfl
@[simp] theorem State.lineUnconstrained_sendSubAddress (s : State) (c : BitVec 3) (l : Option Byte) (k : Bool) : (s.lineUnconstrained c l k).sendSubAddress = s.sendSubAddress := rfl
@[simp] theorem State.lineUnconstrained_repeatedStartForRead (s : State) (c : BitVec 3) (l : Option Byte) (k : Bool) : (s.lineUnconstrained c l k).repeatedStartForRead = s.repeatedStartForRead := rfl
@[simp] theorem State.lineUnconstrained_ackPollOnAddressNack (s : State) (c : BitVec 3) (l : Option Byte) (k : Bool) : (s.lineUnconstrained c l k).ackPollOnAddressNack = s.ackPollOnAddressNack := rfl
@[simp] theorem State.lineUnconstrained_dataCursor (s : State) (c : BitVec 3) (l : Option Byte) (k : Bool) : (s.lineUnconstrained c l k).dataCursor = s.dataCursor := rfl
@[simp] theorem State.lineUnconstrained_bytesRemaining (s : State) (c : BitVec 3) (l : Option Byte) (k : Bool) : (s.lineUnconstrained c l k).bytesRemaining = s.bytesRemaining := rfl
@[simp] theorem State.lineUnconstrained_sendStartNext (s : State) (c : BitVec 3) (l : Option Byte) (k : Bool) : (s.lineUnconstrained c l k).sendStartNext = s.sendStartNext := rfl
@[simp] theorem State.lineUnconstrained_byteCount (s : State) (c : BitVec 3) (l : Option Byte) (k : Bool) : (s.lineUnconstrained c l k).byteCount = s.byteCount := rfl
@[simp] theorem State.lineUnconstrained_fsm (s : State) (c : BitVec 3) (l : Option Byte) (k : Bool) : (s.lineUnconstrained c l k).fsm = s.fsm := rfl
@[simp] theorem State.lineUnconstrained_result (s : State) (c : BitVec 3) (l : Option Byte) (k : Bool) : (s.lineUnconstrained c l k).result = s.result := rfl
@[simp] theorem State.lineUnconstrained_en (s : State) (c : BitVec 3) (l : Option Byte) (k : Bool) : (s.lineUnconstrained c l k).en = s.en := rfl
@[simp] theorem State.lineUnconstrained_si (s : State) (c : BitVec 3) (l : Option Byte) (k : Bool) : (s.lineUnconstrained c l k).si = true := rfl
@[simp] theorem State.lineUnconstrained_sta (s : State) (c : BitVec 3) (l : Option Byte) (k : Bool) : (s.lineUnconstrained c l k).sta = s.sta := rfl
@[simp] theorem State.lineUnconstrained_sto (s : State) (c : BitVec 3) (l : Option Byte) (k : Bool) : (s.lineUnconstrained c l k).sto = if k then false else s.sto := rfl
@[simp] theorem State.lineUnconstrained_ackrq (s : State) (c : BitVec 3) (l : Option Byte) (k : Bool) : (s.lineUnconstrained c l k).ackrq = s.ackrq := rfl
@[simp] theorem State.lineUnconstrained_status (s : State) (c : BitVec 3) (l : Option Byte) (k : Bool) : (s.lineUnconstrained c l k).status = c := rfl
@[simp] theorem State.lineUnconstrained_dat (s : State) (c : BitVec 3) (l : Option Byte) (k : Bool) : (s.lineUnconstrained c l k).dat = l.getD s.dat := rfl
@[simp] theorem State.lineUnconstrained_wdtCount (s : State) (c : BitVec 3) (l : Option Byte) (k : Bool) : (s.lineUnconstrained c l k).wdtCount = s.wdtCount := rfl
@[simp] theorem State.lineUnconstrained_luPhase (s : State) (c : BitVec 3) (l : Option Byte) (k : Bool) : (s.lineUnconstrained c l k).luPhase = s.luPhase := rfl
@[simp] theorem State.lineUnconstrained_luDatFull (s : State) (c : BitVec 3) (l : Option Byte) (k : Bool) : (s.lineUnconstrained c l k).luDatFull = s.luDatFull := rfl
@[simp] theorem State.lineUnconstrained_luAckPend (s : State) (c : BitVec 3) (l : Option Byte) (k : Bool) : (s.lineUnconstrained c l k).luAckPend = s.luAckPend := rfl
@[simp] theorem State.lineUnconstrained_mem (s : State) (c : BitVec 3) (l : Option Byte) (k : Bool) : (s.lineUnconstrained c l k).mem = s.mem := rfl
@[simp] theorem State.lineUnconstrained_trace (s : State) (c : BitVec 3) (l : Option Byte) (k : Bool) : (s.lineUnconstrained c l k).trace = s.trace := rfl
@[simp] theorem State.lineUnconstrained_regRdata (s : State) (c : BitVec 3) (l : Option Byte) (k : Bool) : (s.lineUnconstrained c l k).regRdata = s.regRdata := rfl
@[simp] theorem State.lineUnconstrained_memRdata (s : State) (c : BitVec 3) (l : Option Byte) (k : Bool) : (s.lineUnconstrained c l k).memRdata = s.memRdata := rfl
@[simp] theorem State.lineUnconstrained_windows (s : State) (c : BitVec 3) (l : Option Byte) (k : Bool) : (s.lineUnconstrained c l k).windows = s.windows := rfl
@[simp] theorem State.lineUnconstrained_ee (s : State) (c : BitVec 3) (l : Option Byte) (k : Bool) : (s.lineUnconstrained c l k).ee = s.ee := rfl
@[simp] theorem State.lineUnconstrained_hostProg (s : State) (c : BitVec 3) (l : Option Byte) (k : Bool) : (s.lineUnconstrained c l k).hostProg = s.hostProg := rfl
@[simp] theorem State.lineUnconstrained_inputs (s : State) (c : BitVec 3) (l : Option Byte) (k : Bool) : (s.lineUnconstrained c l k).inputs = s.inputs := rfl

/-! ### `hardReset` -/

@[simp] theorem State.hardReset_cfg (s : State) : (s.hardReset).cfg = s.cfg := rfl
@[simp] theorem State.hardReset_busy (s : State) : (s.hardReset).busy = false := rfl
@[simp] theorem State.hardReset_direction (s : State) : (s.hardReset).direction = false := rfl
@[simp] theorem State.hardReset_targetAddress (s : State) : (s.hardReset).targetAddress = 0 := rfl
@[simp] theorem State.hardReset_subAddress (s : State) : (s.hardReset).subAddress = 0 := rfl
@[simp] theorem State.hardReset_sendSubAddress (s : State) : (s.hardReset).sendSubAddress = false := rfl
@[simp] theorem State.hardReset_repeatedStartForRead (s : State) : (s.hardReset).repeatedStartForRead = false := rfl
@[simp] theorem State.hardReset_ackPollOnAddressNack (s : State) : (s.hardReset).ackPollOnAddressNack = false := rfl
@[simp] theorem State.hardReset_dataCursor (s : State) : (s.hardReset).dataCursor = 0 := rfl
@[simp] theorem State.hardReset_bytesRemaining (s : State) : (s.hardReset).bytesRemaining = 0 := rfl
@[simp] theorem State.hardReset_sendStartNext (s : State) : (s.hardReset).sendStartNext = false := rfl
@[simp] theorem State.hardReset_byteCount (s : State) : (s.hardReset).byteCount = 0 := rfl
@[simp] theorem State.hardReset_fsm (s : State) : (s.hardReset).fsm = 0 := rfl
@[simp] theorem State.hardReset_result (s : State) : (s.hardReset).result = 0 := rfl
@[simp] theorem State.hardReset_en (s : State) : (s.hardReset).en = false := rfl
@[simp] theorem State.hardReset_si (s : State) : (s.hardReset).si = false := rfl
@[simp] theorem State.hardReset_sta (s : State) : (s.hardReset).sta = false := rfl
@[simp] theorem State.hardReset_sto (s : State) : (s.hardReset).sto = false := rfl
@[simp] theorem State.hardReset_ackrq (s : State) : (s.hardReset).ackrq = false := rfl
@[simp] theorem State.hardReset_status (s : State) : (s.hardReset).status = 0 := rfl
@[simp] theorem State.hardReset_dat (s : State) : (s.hardReset).dat = 0 := rfl
@[simp] theorem State.hardReset_wdtCount (s : State) : (s.hardReset).wdtCount = 0 := rfl
@[simp] theorem State.hardReset_luPhase (s : State) : (s.hardReset).luPhase = .idle := rfl
@[simp] theorem State.hardReset_luDatFull (s : State) : (s.hardReset).luDatFull = false := rfl
@[simp] theorem State.hardReset_luAckPend (s : State) : (s.hardReset).luAckPend = false := rfl
@[simp] theorem State.hardReset_mem (s : State) : (s.hardReset).mem = s.mem := rfl
@[simp] theorem State.hardReset_trace (s : State) : (s.hardReset).trace = [] := rfl
@[simp] theorem State.hardReset_regRdata (s : State) : (s.hardReset).regRdata = s.regRdata := rfl
@[simp] theorem State.hardReset_memRdata (s : State) : (s.hardReset).memRdata = s.memRdata := rfl
@[simp] theorem State.hardReset_windows (s : State) : (s.hardReset).windows = s.windows := rfl
@[simp] theorem State.hardReset_ee (s : State) : (s.hardReset).ee = s.ee := rfl
@[simp] theorem State.hardReset_hostProg (s : State) : (s.hardReset).hostProg = s.hostProg := rfl
@[simp] theorem State.hardReset_inputs (s : State) : (s.hardReset).inputs = s.inputs := rfl

/-! ### `releaseBus` -/

@[simp] theorem State.releaseBus_cfg (s : State) : (s.releaseBus).cfg = s.cfg := by unfold State.releaseBus; split <;> rfl
@[simp] theorem State.releaseBus_busy (s : State) : (s.releaseBus).busy = s.busy := by unfold State.releaseBus; split <;> rfl
@[simp] theorem State.releaseBus_direction (s : State) : (s.releaseBus).direction = s.direction := by unfold State.releaseBus; split <;> rfl
@[simp] theorem State.releaseBus_targetAddress (s : State) : (s.releaseBus).targetAddress = s.targetAddress := by unfold State.releaseBus; split <;> rfl
@[simp] theorem State.releaseBus_subAddress (s : State) : (s.releaseBus).subAddress = s.subAddress := by unfold State.releaseBus; split <;> rfl
@[simp] theorem State.releaseBus_sendSubAddress (s : State) : (s.releaseBus).sendSubAddress = s.sendSubAddress := by unfold State.releaseBus; split <;> rfl
@[simp] theorem State.releaseBus_repeatedStartForRead (s : State) : (s.releaseBus).repeatedStartForRead = s.repeatedStartForRead := by unfold State.releaseBus; split <;> rfl
@[simp] theorem State.releaseBus_ackPollOnAddressNack (s : State) : (s.releaseBus).ackPollOnAddressNack = s.ackPollOnAddressNack := by unfold State.releaseBus; split <;> rfl
@[simp] theorem State.releaseBus_dataCursor (s : State) : (s.releaseBus).dataCursor = s.dataCursor := by unfold State.releaseBus; split <;> rfl
@[simp] theorem State.releaseBus_bytesRemaining (s : State) : (s.releaseBus).bytesRemaining = s.bytesRemaining := by unfold State.releaseBus; split <;> rfl
@[simp] theorem State.releaseBus_sendStartNext (s : State) : (s.releaseBus).sendStartNext = s.sendStartNext := by unfold State.releaseBus; split <;> rfl
@[simp] theorem State.releaseBus_byteCount (s : State) : (s.releaseBus).byteCount = s.byteCount := by unfold State.releaseBus; split <;> rfl
@[simp] theorem State.releaseBus_fsm (s : State) : (s.releaseBus).fsm = s.fsm := by unfold State.releaseBus; split <;> rfl
@[simp] theorem State.releaseBus_result (s : State) : (s.releaseBus).result = s.result := by unfold State.releaseBus; split <;> rfl
@[simp] theorem State.releaseBus_en (s : State) : (s.releaseBus).en = s.en := by unfold State.releaseBus; split <;> rfl
@[simp] theorem State.releaseBus_si (s : State) : (s.releaseBus).si = s.si := by unfold State.releaseBus; split <;> rfl
@[simp] theorem State.releaseBus_sta (s : State) : (s.releaseBus).sta = s.sta := by unfold State.releaseBus; split <;> rfl
@[simp] theorem State.releaseBus_sto (s : State) : (s.releaseBus).sto = s.sto := by unfold State.releaseBus; split <;> rfl
@[simp] theorem State.releaseBus_ackrq (s : State) : (s.releaseBus).ackrq = s.ackrq := by unfold State.releaseBus; split <;> rfl
@[simp] theorem State.releaseBus_status (s : State) : (s.releaseBus).status = s.status := by unfold State.releaseBus; split <;> rfl
@[simp] theorem State.releaseBus_dat (s : State) : (s.releaseBus).dat = s.dat := by unfold State.releaseBus; split <;> rfl
@[simp] theorem State.releaseBus_wdtCount (s : State) : (s.releaseBus).wdtCount = s.wdtCount := by unfold State.releaseBus; split <;> rfl
@[simp] theorem State.releaseBus_luPhase (s : State) : (s.releaseBus).luPhase = s.luPhase := by unfold State.releaseBus; split <;> rfl
@[simp] theorem State.releaseBus_luDatFull (s : State) : (s.releaseBus).luDatFull = s.luDatFull := by unfold State.releaseBus; split <;> rfl
@[simp] theorem State.releaseBus_luAckPend (s : State) : (s.releaseBus).luAckPend = s.luAckPend := by unfold State.releaseBus; split <;> rfl
@[simp] theorem State.releaseBus_mem (s : State) : (s.releaseBus).mem = s.mem := by unfold State.releaseBus; split <;> rfl
@[simp] theorem State.releaseBus_trace (s : State) : (s.releaseBus).trace = if s.luPhase = .idle then s.trace else s.trace ++ [.released] := 
  by cases h : s.luPhase <;> simp [State.releaseBus, h]
@[simp] theorem State.releaseBus_regRdata (s : State) : (s.releaseBus).regRdata = s.regRdata := by unfold State.releaseBus; split <;> rfl
@[simp] theorem State.releaseBus_memRdata (s : State) : (s.releaseBus).memRdata = s.memRdata := by unfold State.releaseBus; split <;> rfl
@[simp] theorem State.releaseBus_windows (s : State) : (s.releaseBus).windows = s.windows := by unfold State.releaseBus; split <;> rfl
@[simp] theorem State.releaseBus_ee (s : State) : (s.releaseBus).ee = s.ee := by unfold State.releaseBus; split <;> rfl
@[simp] theorem State.releaseBus_hostProg (s : State) : (s.releaseBus).hostProg = s.hostProg := by unfold State.releaseBus; split <;> rfl
@[simp] theorem State.releaseBus_inputs (s : State) : (s.releaseBus).inputs = s.inputs := by unfold State.releaseBus; split <;> rfl

/-! ### `periphReset` -/

@[simp] theorem State.periphReset_cfg (s : State) : (s.periphReset).cfg = s.cfg := s.releaseBus_cfg
@[simp] theorem State.periphReset_busy (s : State) : (s.periphReset).busy = s.busy := s.releaseBus_busy
@[simp] theorem State.periphReset_direction (s : State) : (s.periphReset).direction = s.direction := s.releaseBus_direction
@[simp] theorem State.periphReset_targetAddress (s : State) : (s.periphReset).targetAddress = s.targetAddress := s.releaseBus_targetAddress
@[simp] theorem State.periphReset_subAddress (s : State) : (s.periphReset).subAddress = s.subAddress := s.releaseBus_subAddress
@[simp] theorem State.periphReset_sendSubAddress (s : State) : (s.periphReset).sendSubAddress = s.sendSubAddress := s.releaseBus_sendSubAddress
@[simp] theorem State.periphReset_repeatedStartForRead (s : State) : (s.periphReset).repeatedStartForRead = s.repeatedStartForRead := s.releaseBus_repeatedStartForRead
@[simp] theorem State.periphReset_ackPollOnAddressNack (s : State) : (s.periphReset).ackPollOnAddressNack = s.ackPollOnAddressNack := s.releaseBus_ackPollOnAddressNack
@[simp] theorem State.periphReset_dataCursor (s : State) : (s.periphReset).dataCursor = s.dataCursor := s.releaseBus_dataCursor
@[simp] theorem State.periphReset_bytesRemaining (s : State) : (s.periphReset).bytesRemaining = s.bytesRemaining := s.releaseBus_bytesRemaining
@[simp] theorem State.periphReset_sendStartNext (s : State) : (s.periphReset).sendStartNext = false := rfl
@[simp] theorem State.periphReset_byteCount (s : State) : (s.periphReset).byteCount = s.byteCount := s.releaseBus_byteCount
@[simp] theorem State.periphReset_fsm (s : State) : (s.periphReset).fsm = s.fsm := s.releaseBus_fsm
@[simp] theorem State.periphReset_result (s : State) : (s.periphReset).result = s.result := s.releaseBus_result
@[simp] theorem State.periphReset_en (s : State) : (s.periphReset).en = s.en := s.releaseBus_en
@[simp] theorem State.periphReset_si (s : State) : (s.periphReset).si = false := rfl
@[simp] theorem State.periphReset_sta (s : State) : (s.periphReset).sta = false := rfl
@[simp] theorem State.periphReset_sto (s : State) : (s.periphReset).sto = false := rfl
@[simp] theorem State.periphReset_ackrq (s : State) : (s.periphReset).ackrq = false := rfl
@[simp] theorem State.periphReset_status (s : State) : (s.periphReset).status = 0 := rfl
@[simp] theorem State.periphReset_dat (s : State) : (s.periphReset).dat = s.dat := s.releaseBus_dat
@[simp] theorem State.periphReset_wdtCount (s : State) : (s.periphReset).wdtCount = s.wdtCount := s.releaseBus_wdtCount
@[simp] theorem State.periphReset_luPhase (s : State) : (s.periphReset).luPhase = .idle := rfl
@[simp] theorem State.periphReset_luDatFull (s : State) : (s.periphReset).luDatFull = false := rfl
@[simp] theorem State.periphReset_luAckPend (s : State) : (s.periphReset).luAckPend = false := rfl
@[simp] theorem State.periphReset_mem (s : State) : (s.periphReset).mem = s.mem := s.releaseBus_mem
@[simp] theorem State.periphReset_trace (s : State) : (s.periphReset).trace = if s.luPhase = .idle then s.trace else s.trace ++ [.released] := s.releaseBus_trace
@[simp] theorem State.periphReset_regRdata (s : State) : (s.periphReset).regRdata = s.regRdata := s.releaseBus_regRdata
@[simp] theorem State.periphReset_memRdata (s : State) : (s.periphReset).memRdata = s.memRdata := s.releaseBus_memRdata
@[simp] theorem State.periphReset_windows (s : State) : (s.periphReset).windows = s.windows := s.releaseBus_windows
@[simp] theorem State.periphReset_ee (s : State) : (s.periphReset).ee = s.ee := s.releaseBus_ee
@[simp] theorem State.periphReset_hostProg (s : State) : (s.periphReset).hostProg = s.hostProg := s.releaseBus_hostProg
@[simp] theorem State.periphReset_inputs (s : State) : (s.periphReset).inputs = s.inputs := s.releaseBus_inputs

/-! ### `raiseFailure` -/

@[simp] theorem State.raiseFailure_cfg (s : State) (c : BitVec 3) : (s.raiseFailure c).cfg = s.cfg := (s.setEn false).releaseBus_cfg
@[simp] theorem State.raiseFailure_busy (s : State) (c : BitVec 3) : (s.raiseFailure c).busy = false := rfl
@[simp] theorem State.raiseFailure_direction (s : State) (c : BitVec 3) : (s.raiseFailure c).direction = s.direction := (s.setEn false).releaseBus_direction
@[simp] theorem State.raiseFailure_targetAddress (s : State) (c : BitVec 3) : (s.raiseFailure c).targetAddress = s.targetAddress := (s.setEn false).releaseBus_targetAddress
@[simp] theorem State.raiseFailure_subAddress (s : State) (c : BitVec 3) : (s.raiseFailure c).subAddress = s.subAddress := (s.setEn false).releaseBus_subAddress
@[simp] theorem State.raiseFailure_sendSubAddress (s : State) (c : BitVec 3) : (s.raiseFailure c).sendSubAddress = s.sendSubAddress := (s.setEn false).releaseBus_sendSubAddress
@[simp] theorem State.raiseFailure_repeatedStartForRead (s : State) (c : BitVec 3) : (s.raiseFailure c).repeatedStartForRead = s.repeatedStartForRead := (s.setEn false).releaseBus_repeatedStartForRead
@[simp] theorem State.raiseFailure_ackPollOnAddressNack (s : State) (c : BitVec 3) : (s.raiseFailure c).ackPollOnAddressNack = s.ackPollOnAddressNack := (s.setEn false).releaseBus_ackPollOnAddressNack
@[simp] theorem State.raiseFailure_dataCursor (s : State) (c : BitVec 3) : (s.raiseFailure c).dataCursor = s.dataCursor := (s.setEn false).releaseBus_dataCursor
@[simp] theorem State.raiseFailure_bytesRemaining (s : State) (c : BitVec 3) : (s.raiseFailure c).bytesRemaining = s.bytesRemaining := (s.setEn false).releaseBus_bytesRemaining
@[simp] theorem State.raiseFailure_sendStartNext (s : State) (c : BitVec 3) : (s.raiseFailure c).sendStartNext = false := rfl
@[simp] theorem State.raiseFailure_byteCount (s : State) (c : BitVec 3) : (s.raiseFailure c).byteCount = s.byteCount := (s.setEn false).releaseBus_byteCount
@[simp] theorem State.raiseFailure_fsm (s : State) (c : BitVec 3) : (s.raiseFailure c).fsm = 6 := rfl
@[simp] theorem State.raiseFailure_result (s : State) (c : BitVec 3) : (s.raiseFailure c).result = c := rfl
@[simp] theorem State.raiseFailure_en (s : State) (c : BitVec 3) : (s.raiseFailure c).en = true := rfl
@[simp] theorem State.raiseFailure_si (s : State) (c : BitVec 3) : (s.raiseFailure c).si = false := rfl
@[simp] theorem State.raiseFailure_sta (s : State) (c : BitVec 3) : (s.raiseFailure c).sta = false := rfl
@[simp] theorem State.raiseFailure_sto (s : State) (c : BitVec 3) : (s.raiseFailure c).sto = false := rfl
@[simp] theorem State.raiseFailure_ackrq (s : State) (c : BitVec 3) : (s.raiseFailure c).ackrq = false := rfl
@[simp] theorem State.raiseFailure_status (s : State) (c : BitVec 3) : (s.raiseFailure c).status = 0 := rfl
@[simp] theorem State.raiseFailure_dat (s : State) (c : BitVec 3) : (s.raiseFailure c).dat = s.dat := (s.setEn false).releaseBus_dat
@[simp] theorem State.raiseFailure_wdtCount (s : State) (c : BitVec 3) : (s.raiseFailure c).wdtCount = 0 := rfl
@[simp] theorem State.raiseFailure_luPhase (s : State) (c : BitVec 3) : (s.raiseFailure c).luPhase = .idle := rfl
@[simp] theorem State.raiseFailure_luDatFull (s : State) (c : BitVec 3) : (s.raiseFailure c).luDatFull = false := rfl
@[simp] theorem State.raiseFailure_luAckPend (s : State) (c : BitVec 3) : (s.raiseFailure c).luAckPend = false := rfl
@[simp] theorem State.raiseFailure_mem (s : State) (c : BitVec 3) : (s.raiseFailure c).mem = s.mem := (s.setEn false).releaseBus_mem
@[simp] theorem State.raiseFailure_trace (s : State) (c : BitVec 3) : (s.raiseFailure c).trace = if s.luPhase = .idle then s.trace else s.trace ++ [.released] := (s.setEn false).releaseBus_trace
@[simp] theorem State.raiseFailure_regRdata (s : State) (c : BitVec 3) : (s.raiseFailure c).regRdata = s.regRdata := (s.setEn false).releaseBus_regRdata
@[simp] theorem State.raiseFailure_memRdata (s : State) (c : BitVec 3) : (s.raiseFailure c).memRdata = s.memRdata := (s.setEn false).releaseBus_memRdata
@[simp] theorem State.raiseFailure_windows (s : State) (c : BitVec 3) : (s.raiseFailure c).windows = s.windows := (s.setEn false).releaseBus_windows
@[simp] theorem State.raiseFailure_ee (s : State) (c : BitVec 3) : (s.raiseFailure c).ee = s.ee := (s.setEn false).releaseBus_ee
@[simp] theorem State.raiseFailure_hostProg (s : State) (c : BitVec 3) : (s.raiseFailure c).hostProg = s.hostProg := (s.setEn false).releaseBus_hostProg
@[simp] theorem State.raiseFailure_inputs (s : State) (c : BitVec 3) : (s.raiseFailure c).inputs = s.inputs := (s.setEn false).releaseBus_inputs

end Sys2Proof.Machine
end

