-- ==== Sys2Proof/Laws/Engine.lean ====
section
/-! SUPPORT. What the engine's shared pieces and the internal reset do, as one equation each, to be cited instead of unfolding
them. -/

namespace Sys2Proof.Machine

/-- A count is positive exactly when it is not zero (41_engine_events R141). -/
theorem pos_iff_ne_zero (b : Byte) : 0 < b ↔ b ≠ 0 := by revert b; decide

/-- `EV_RX` stores the byte while bytes are wanted. -/
theorem rxStore_wanted (s : State) (h : s.bytesRemaining ≠ 0) :
    s.rxStore = { (s.memWrite s.dataCursor s.dat).advance with ackrq := true } :=
  if_pos ((pos_iff_ne_zero _).mpr h)

/-- `EV_RX` drops the byte where none is wanted. -/
theorem rxStore_unwanted (s : State) (h : s.bytesRemaining = 0) : s.rxStore = s :=
  if_neg fun hp => (pos_iff_ne_zero _).mp hp h

/-- `EV_RX` ends the transfer at the last byte. -/
theorem rxFinish_last (s : State) (h : s.bytesRemaining = 0) : s.rxFinish = { s.complete with ackrq := false } := if_pos h

/-- `EV_RX` goes on while bytes are wanted. -/
theorem rxFinish_more (s : State) (h : s.bytesRemaining ≠ 0) : s.rxFinish = s := if_neg h

/-- `EV_RX` as a whole: a byte not wanted, the last byte, a byte with more to come. -/
theorem evRx_cases (s : State) :
    (s.bytesRemaining = 0 ∧ exec .evRx s = .next { s.complete with ackrq := false, si := false }) ∨
    (s.bytesRemaining = 1 ∧
      exec .evRx s = .next { (s.memWrite s.dataCursor s.dat).advance.complete with ackrq := false, si := false }) ∨
    (s.bytesRemaining ≠ 0 ∧ s.bytesRemaining ≠ 1 ∧ s.bytesRemaining - 1 ≠ 0 ∧
      exec .evRx s = .next { (s.memWrite s.dataCursor s.dat).advance with ackrq := true, si := false }) := by
  have hb : ∀ b : Byte, b = 0 ∨ (b = 1 ∧ b - 1 = 0) ∨ (b ≠ 0 ∧ b ≠ 1 ∧ b - 1 ≠ 0) := by decide
  have he : exec .evRx s = .next s.rxStore.rxFinish.eventDone := rfl
  rw [he]
  obtain h | ⟨h, h'⟩ | ⟨h, h', h''⟩ := hb s.bytesRemaining
  · exact .inl ⟨h, by rw [rxStore_unwanted s h, rxFinish_last s h]; rfl⟩
  · have h0 : s.bytesRemaining ≠ 0 := by rw [h]; decide
    refine .inr (.inl ⟨h, ?_⟩)
    rw [rxStore_wanted s h0, rxFinish_last _ h']
    rfl
  · refine .inr (.inr ⟨h, h', h'', ?_⟩)
    rw [rxStore_wanted s h, rxFinish_more _ h'']
    rfl

/-- `X` is emitted exactly where the line unit owns the bus (60_exceptions R191). -/
theorem releaseBus_eq (s : State) :
    s.releaseBus = { s with trace := if s.luPhase = .idle then s.trace else s.trace ++ [.released] } := by
  obtain ⟨cfg, b, d, ta, sa, ssa, rsr, apn, dc, br, ssn, bc, f, r, en, si, sta, sto, ak, st, dat, wc, lp, ldf, lap, m, tr, rr, mr,
    ws, ee, hp, is⟩ := s
  cases lp <;> rfl

/-- `PeriphReset()` (60_exceptions R191), field by field. -/
theorem periphReset_eq (s : State) :
    s.periphReset =
      { s with
        si := false
        status := 0
        sta := false
        sto := false
        ackrq := false
        sendStartNext := false
        luPhase := .idle
        luDatFull := false
        luAckPend := false
        trace := if s.luPhase = .idle then s.trace else s.trace ++ [.released] } := by
  unfold State.periphReset
  rw [releaseBus_eq]

/-- The failure handler and the watchdog abort (60_exceptions R192, R196), field by field. -/
theorem raiseFailure_eq (s : State) (cause : BitVec 3) :
    s.raiseFailure cause =
      { s with
        en := true
        si := false
        status := 0
        sta := false
        sto := false
        ackrq := false
        sendStartNext := false
        luPhase := .idle
        luDatFull := false
        luAckPend := false
        busy := false
        wdtCount := 0
        result := cause
        fsm := 6
        trace := if s.luPhase = .idle then s.trace else s.trace ++ [.released] } := by
  unfold State.raiseFailure
  rw [periphReset_eq]
  rfl

/-- The branches of `EV_TX_ACK` (41_engine_events R133), each with the tests that lead to it. -/
theorem evTxAck_cases (s : State) :
    (s.sendStartNext = true ∧ exec .evTxAck s = .next { s.txAckRestart with si := false }) ∨
    (s.sendStartNext = false ∧ s.sendSubAddress = true ∧ exec .evTxAck s = .next { s.txAckSubAddress with si := false }) ∨
    (s.sendStartNext = false ∧ s.sendSubAddress = false ∧ s.direction = true ∧
      exec .evTxAck s = .next { s.txAckRead with si := false }) ∨
    (s.sendStartNext = false ∧ s.sendSubAddress = false ∧ s.direction = false ∧ s.bytesRemaining ≠ 0 ∧
      exec .evTxAck s = .next { s.txAckData with si := false }) ∨
    (s.sendStartNext = false ∧ s.sendSubAddress = false ∧ s.direction = false ∧ s.bytesRemaining = 0 ∧
      exec .evTxAck s = .next { s.complete with si := false }) := by
  have hd : exec .evTxAck s = .next (State.eventDone
      (if s.sendStartNext then s.txAckRestart
      else if s.sendSubAddress then s.txAckSubAddress
      else if s.direction then s.txAckRead
      else if 0 < s.bytesRemaining then s.txAckData
      else s.complete)) := rfl
  rw [hd]
  cases h1 : s.sendStartNext
  · cases h2 : s.sendSubAddress
    · cases h3 : s.direction
      · by_cases h : s.bytesRemaining = 0
        · have hn : ¬ 0 < s.bytesRemaining := fun hp => (pos_iff_ne_zero _).mp hp h
          rw [if_neg (by decide), if_neg (by decide), if_neg (by decide), if_neg hn]
          exact .inr (.inr (.inr (.inr ⟨rfl, rfl, rfl, h, rfl⟩)))
        · rw [if_neg (by decide), if_neg (by decide), if_neg (by decide), if_pos ((pos_iff_ne_zero _).mpr h)]
          exact .inr (.inr (.inr (.inl ⟨rfl, rfl, rfl, h, rfl⟩)))
      · exact .inr (.inr (.inl ⟨rfl, rfl, rfl, rfl⟩))
    · exact .inr (.inl ⟨rfl, rfl, rfl⟩)
  · exact .inl ⟨rfl, rfl⟩

/-- The two branches of `EV_TX_NACK` (41_engine_events R134). -/
theorem evTxNack_cases (s : State) :
    (s.ackPollOnAddressNack = true ∧ exec .evTxNack s = .next { s with sta := true, fsm := 1, si := false }) ∨
    (s.ackPollOnAddressNack = false ∧ exec .evTxNack s = .next (s.raiseFailure causeNack)) := by
  have hd : exec .evTxNack s = .next (State.eventDone
      (if s.ackPollOnAddressNack then { s with sta := true, fsm := 1 } else s.raiseFailure causeNack)) := rfl
  rw [hd]
  cases s.ackPollOnAddressNack
  · exact .inr ⟨rfl, by rw [raiseFailure_eq]; rfl⟩
  · exact .inl ⟨rfl, rfl⟩

end Sys2Proof.Machine
end

