-- ==== Sys2Proof/Laws/Memory.lean ====
section
/-! SUPPORT. Lists of cells: reading back what was set, and that every memory operation keeps the canonical form. -/

namespace Sys2Proof.Machine

/-! ### Reading back -/

@[simp] theorem cellAt_setCell_same (m : List Host.Cell) (x : Nat) (v : Byte) : cellAt (setCell m x v) x = some v := by
  induction m with
  | nil => simp [setCell, cellAt]
  | cons c m ih =>
    obtain ⟨a, w⟩ := c
    rw [setCell]
    split
    · simp [cellAt]
    · split
      · simp [cellAt]
      · next h => rw [cellAt, if_neg (fun e => h e.symm), ih]

theorem cellAt_setCell_other (m : List Host.Cell) (x y : Nat) (v : Byte) (h : y ≠ x) :
    cellAt (setCell m x v) y = cellAt m y := by
  induction m with
  | nil => simp [setCell, cellAt, Ne.symm h]
  | cons c m ih =>
    obtain ⟨a, w⟩ := c
    rw [setCell]
    split
    · rw [cellAt, if_neg (Ne.symm h)]
    · split
      · next e => subst e; rw [cellAt, cellAt, if_neg (Ne.symm h), if_neg (Ne.symm h)]
      · rw [cellAt, cellAt, ih]

/-! ### The canonical form -/

theorem cellsFrom_mono {m : List Host.Cell} {lo lo' hi : Nat} (h : lo' ≤ lo) (hm : cellsFrom lo hi m = true) :
    cellsFrom lo' hi m = true := by
  cases m with
  | nil => rfl
  | cons c m =>
    simp only [cellsFrom, Bool.and_eq_true, decide_eq_true_eq] at hm ⊢
    exact ⟨⟨by omega, hm.1.2⟩, hm.2⟩

theorem cellsFrom_setCell {m : List Host.Cell} {lo hi : Nat} (x : Nat) (v : Byte) (hlo : lo ≤ x) (hx : x < hi)
    (hm : cellsFrom lo hi m = true) : cellsFrom lo hi (setCell m x v) = true := by
  induction m generalizing lo with
  | nil => simp [setCell, cellsFrom, hlo, hx]
  | cons c m ih =>
    obtain ⟨a, w⟩ := c
    simp only [cellsFrom, Bool.and_eq_true, decide_eq_true_eq] at hm
    rw [setCell]
    split
    · next hlt =>
      simp only [cellsFrom, Bool.and_eq_true, decide_eq_true_eq]
      exact ⟨⟨hlo, hx⟩, ⟨by omega, hm.1.2⟩, hm.2⟩
    · split
      · next e =>
        subst e
        simp only [cellsFrom, Bool.and_eq_true, decide_eq_true_eq]
        exact ⟨⟨hlo, hx⟩, hm.2⟩
      · simp only [cellsFrom, Bool.and_eq_true, decide_eq_true_eq]
        exact ⟨hm.1, ih (by omega) hm.2⟩

theorem cellsFrom_dropCell {m : List Host.Cell} {lo hi : Nat} (x : Nat) (hm : cellsFrom lo hi m = true) :
    cellsFrom lo hi (dropCell m x) = true := by
  induction m generalizing lo with
  | nil => rfl
  | cons c m ih =>
    obtain ⟨a, w⟩ := c
    simp only [cellsFrom, Bool.and_eq_true, decide_eq_true_eq] at hm
    rw [dropCell]
    split
    · exact cellsFrom_mono (by omega) hm.2
    · simp only [cellsFrom, Bool.and_eq_true, decide_eq_true_eq]
      exact ⟨hm.1, ih hm.2⟩

/-- A write of buffer memory keeps its canonical form. -/
theorem memWrite_wf (s : State) (a : Addr) (v : Byte) (h : Memory.wf s.mem = true) :
    Memory.wf (s.memWrite a v).mem = true :=
  cellsFrom_setCell _ _ (Nat.zero_le _) a.isLt h

/-- Reset lists nothing. -/
theorem reset_mem_wf (c : Config) : Memory.wf (State.resetWith c).mem = true := rfl

/-! ### Buffer memory through `memRead` -/

@[simp] theorem memRead_memWrite_same (s : State) (a : Addr) (v : Byte) : (s.memWrite a v).memRead a = v := by
  simp [State.memRead]

theorem memRead_memWrite_other (s : State) (a b : Addr) (v : Byte) (h : b ≠ a) :
    (s.memWrite a v).memRead b = s.memRead b := by
  have hn : b.toNat ≠ a.toNat := fun e => h (BitVec.eq_of_toNat_eq e)
  simp [State.memRead, cellAt_setCell_other _ _ _ _ hn]

/-- A read looks at the memory alone. -/
theorem memRead_congr {s t : State} (h : t.mem = s.mem) (a : Addr) : t.memRead a = s.memRead a := by
  simp [State.memRead, h]

/-! ### The mock target's memory -/

theorem all_ne_setCell (m : List Host.Cell) (x : Nat) (v : Byte) (hv : v ≠ 0xFF)
    (hm : m.all (fun c => c.2 != 0xFF) = true) : (setCell m x v).all (fun c => c.2 != 0xFF) = true := by
  have hv' : (v != 0xFF) = true := bne_iff_ne.mpr hv
  induction m with
  | nil => rw [setCell, List.all_cons, hv']; rfl
  | cons c m ih =>
    obtain ⟨a, w⟩ := c
    rw [List.all_cons, Bool.and_eq_true] at hm
    rw [setCell]
    split
    · rw [List.all_cons, List.all_cons, hm.1, hm.2, hv']; rfl
    · split
      · rw [List.all_cons, hm.2, hv']; rfl
      · rw [List.all_cons, hm.1, ih hm.2]; rfl

theorem all_ne_dropCell (m : List Host.Cell) (x : Nat) (hm : m.all (fun c => c.2 != 0xFF) = true) :
    (dropCell m x).all (fun c => c.2 != 0xFF) = true := by
  induction m with
  | nil => rfl
  | cons c m ih =>
    obtain ⟨a, w⟩ := c
    rw [List.all_cons, Bool.and_eq_true] at hm
    rw [dropCell]
    split
    · exact hm.2
    · rw [List.all_cons, hm.1, ih hm.2]; rfl

/-- A write of the mock target's memory keeps its canonical form. -/
theorem target_write_wf (t : Target) (p b : Byte) (h : t.wf = true) : (t.write p b).wf = true := by
  simp only [Target.wf, Bool.and_eq_true] at h
  unfold Target.write Target.wf
  split
  · simp only [Bool.and_eq_true]
    exact ⟨cellsFrom_dropCell _ h.1, all_ne_dropCell _ _ h.2⟩
  · next hb =>
    simp only [Bool.and_eq_true]
    exact ⟨cellsFrom_setCell _ _ (Nat.zero_le _) p.isLt h.1, all_ne_setCell _ _ _ hb h.2⟩

/-- The fresh mock target is in canonical form. -/
theorem fresh_target_wf : Target.fresh.wf = true := rfl

end Sys2Proof.Machine
end

