-- ==== Sys2Proof/Laws/Words.lean ====
section
/-! SUPPORT. What the condition words decode to, in terms of the flags they are made of. -/

namespace Sys2Proof.Machine

/-- The engine's arbiter over the value of `CTL`. -/
theorem decodeStatus_ctlView (s : State) :
    decodeStatus s.ctlView =
      if s.engineEnabled then .op (decodeStatusCode s.status) else .none .engineNotEnabled := by
  have h : ∀ (en si sta sto ackrq : Bool) (st : BitVec 3),
      (bit en ++ bit si ++ bit sta ++ bit sto ++ bit ackrq ++ st : Byte).extractLsb' 0 3 = st ∧
      (((bit en ++ bit si ++ bit sta ++ bit sto ++ bit ackrq ++ st : Byte) &&& 0xC0#8 = 0xC0#8) ↔ (en && si) = true) := by
    decide
  obtain ⟨h1, h2⟩ := h s.en s.si s.sta s.sto s.ackrq s.status
  unfold decodeStatus State.ctlView State.engineEnabled
  rw [h1]
  simp only [h2]

/-- The rows of the LINE format, each mask and match read off the flags. -/
theorem lineWord_rows (s : State) :
    (s.lineWord &&& 0xC0#8 = 0x80#8 ↔ s.lineMayStep = true) ∧
    (s.lineWord &&& 0xE0#8 = 0xA0#8 ↔ (s.lineMayStep && s.luAckPend) = true) ∧
    (s.lineWord &&& 0xF0#8 = 0x90#8 ↔ (s.lineMayStep && !s.luAckPend && s.sto) = true) ∧
    (s.lineWord &&& 0xF8#8 = 0x88#8 ↔ (s.lineMayStep && !s.luAckPend && !s.sto && s.sta) = true) ∧
    (s.lineWord &&& 0xFE#8 = 0x86#8 ↔ (s.lineMayStep && !s.luAckPend && !s.sto && !s.sta && s.luPhase == .rx) = true) ∧
    (s.lineWord = 0x83#8 ↔
      (s.lineMayStep && !s.luAckPend && !s.sto && !s.sta && s.luPhase == .addr && s.luDatFull) = true) ∧
    (s.lineWord = 0x85#8 ↔
      (s.lineMayStep && !s.luAckPend && !s.sto && !s.sta && s.luPhase == .tx && s.luDatFull) = true) := by
  unfold State.lineWord State.lineMayStep
  generalize s.en = en, s.si = si, s.luAckPend = ap, s.sto = sto, s.sta = sta, s.luDatFull = df
  cases s.luPhase <;> revert en si ap sto sta df <;> decide

/-- The nominal line unit's selection: the priority of 42_line_unit R151. -/
theorem decodeLineNominal_lineWord (s : State) (b : Byte) (a : Ack) :
    decodeLineNominal s.lineWord b a =
      if s.lineMayStep = false then .none .lineNoOperation
      else if s.luAckPend then .op .luAck
      else if s.sto then .op .luStop
      else if s.sta then .op .luStart
      else if s.luPhase = .rx then .op (.luRxbyte b)
      else if s.luPhase = .addr ∧ s.luDatFull = true then .op (.luTxbyte .addressByte a)
      else if s.luPhase = .tx ∧ s.luDatFull = true then .op (.luTxbyte .otherByte a)
      else .none .lineNoOperation := by
  obtain ⟨-, h1, h2, h3, h4, h5, h6⟩ := lineWord_rows s
  unfold decodeLineNominal
  simp only [h1, h2, h3, h4, h5, h6]
  cases s.lineMayStep <;> cases s.luAckPend <;> cases s.sto <;> cases s.sta <;> cases s.luPhase <;> cases s.luDatFull <;> rfl

/-- The watchdog's selection. -/
theorem decodeTimer_timerWord (s : State) :
    decodeTimer s.timerWord =
      if s.busy then if s.wdtLast then .wdtTickAbort else .wdtTickCount else .wdtTickIdle := by
  unfold decodeTimer State.timerWord
  cases s.busy <;> cases s.wdtLast <;> rfl

/-- Bit 0 of the `STAT` view is `busy`. -/
theorem statView_busy (s : State) : s.statView.getLsbD 0 = s.busy := by
  unfold State.statView
  generalize s.result = r, s.fsm = f, s.sendStartNext = n, s.busy = b
  revert r f n b
  decide

/-- WAIT is over when `busy` is 0. -/
@[simp] theorem waitOver_eq (s : State) : s.waitOver = !s.busy := by
  unfold State.waitOver
  rw [statView_busy]

/-! ### The fields of a HOST and of an HMEM word -/

theorem hostWord_getLsbD (we : Bool) (reg : BitVec 4) (wdata : Word16) (i : Nat) :
    (hostWord we reg wdata).getLsbD i =
      if i < 16 then wdata.getLsbD i else if i < 20 then reg.getLsbD (i - 16) else decide (i = 20) && we := by
  have h1 : (hostWord we reg wdata).getLsbD i = if i < 16 then wdata.getLsbD i else (bit we ++ reg).getLsbD (i - 16) :=
    BitVec.getLsbD_append
  have h2 : (bit we ++ reg).getLsbD (i - 16) = if i - 16 < 4 then reg.getLsbD (i - 16) else (bit we).getLsbD (i - 16 - 4) :=
    BitVec.getLsbD_append
  have h3 : (bit we).getLsbD (i - 16 - 4) = (decide (i - 16 - 4 = 0) && we) := by simp
  rw [h1, h2, h3]
  split
  · rfl
  · split
    · rw [if_pos (by omega)]
    · have e : (i - 16 - 4 = 0) = (i = 20) := by apply propext; omega
      rw [if_neg (by omega)]
      simp only [e]

@[simp] theorem hostWe_hostWord (we : Bool) (reg : BitVec 4) (wdata : Word16) : hostWe (hostWord we reg wdata) = we := by
  unfold hostWe
  rw [hostWord_getLsbD]
  simp

@[simp] theorem hostReg_hostWord (we : Bool) (reg : BitVec 4) (wdata : Word16) : hostReg (hostWord we reg wdata) = reg := by
  ext i hi
  simp [hostReg, hostWord_getLsbD, hi]
  omega

@[simp] theorem hostWdata_hostWord (we : Bool) (reg : BitVec 4) (wdata : Word16) :
    hostWdata (hostWord we reg wdata) = wdata := by
  ext i hi
  simp [hostWdata, hostWord_getLsbD, hi]

/-- A HOST word is its fields. -/
theorem hostWord_fields (w : BitVec 21) : hostWord (hostWe w) (hostReg w) (hostWdata w) = w := by
  apply BitVec.eq_of_getLsbD_eq
  intro i hi
  rw [hostWord_getLsbD]
  simp only [hostWe, hostReg, hostWdata, BitVec.getLsbD_extractLsb']
  split
  · next h => simp [h]
  · split
    · next h1 h2 =>
      rw [show 16 + (i - 16) = i by omega]
      simp
      omega
    · next h1 h2 =>
      have e : i = 20 := by omega
      subst e
      simp

theorem hmemWord_getLsbD (we : Bool) (addr : Addr) (data : Byte) (i : Nat) :
    (hmemWord we addr data).getLsbD i =
      if i < 8 then data.getLsbD i else if i < 24 then addr.getLsbD (i - 8) else decide (i = 24) && we := by
  have h1 : (hmemWord we addr data).getLsbD i = if i < 8 then data.getLsbD i else (bit we ++ addr).getLsbD (i - 8) :=
    BitVec.getLsbD_append
  have h2 : (bit we ++ addr).getLsbD (i - 8) = if i - 8 < 16 then addr.getLsbD (i - 8) else (bit we).getLsbD (i - 8 - 16) :=
    BitVec.getLsbD_append
  have h3 : (bit we).getLsbD (i - 8 - 16) = (decide (i - 8 - 16 = 0) && we) := by simp
  rw [h1, h2, h3]
  split
  · rfl
  · split
    · rw [if_pos (by omega)]
    · have e : (i - 8 - 16 = 0) = (i = 24) := by apply propext; omega
      rw [if_neg (by omega)]
      simp only [e]

@[simp] theorem hmemWe_hmemWord (we : Bool) (addr : Addr) (data : Byte) : hmemWe (hmemWord we addr data) = we := by
  unfold hmemWe
  rw [hmemWord_getLsbD]
  simp

@[simp] theorem hmemAddr_hmemWord (we : Bool) (addr : Addr) (data : Byte) : hmemAddr (hmemWord we addr data) = addr := by
  ext i hi
  simp [hmemAddr, hmemWord_getLsbD, hi]
  omega

@[simp] theorem hmemData_hmemWord (we : Bool) (addr : Addr) (data : Byte) : hmemData (hmemWord we addr data) = data := by
  ext i hi
  simp [hmemData, hmemWord_getLsbD, hi]

/-- An HMEM word is its fields. -/
theorem hmemWord_fields (w : BitVec 25) : hmemWord (hmemWe w) (hmemAddr w) (hmemData w) = w := by
  apply BitVec.eq_of_getLsbD_eq
  intro i hi
  rw [hmemWord_getLsbD]
  simp only [hmemWe, hmemAddr, hmemData, BitVec.getLsbD_extractLsb']
  split
  · next h => simp [h]
  · split
    · next h1 h2 =>
      rw [show 8 + (i - 8) = i by omega]
      simp
      omega
    · next h1 h2 =>
      have e : i = 24 := by omega
      subst e
      simp

/-- The host register port's decoder on a word made of its fields. -/
theorem decodeHost_hostWord (we : Bool) (reg : BitVec 4) (wdata : Word16) :
    decodeHost (hostWord we reg wdata) = if we then decodeHostWrite reg wdata else decodeHostRead reg wdata := by
  unfold decodeHost
  rw [hostWe_hostWord, hostReg_hostWord, hostWdata_hostWord]

/-- The memory port's decoder on a word made of its fields. -/
theorem decodeHmem_hmemWord (we : Bool) (addr : Addr) (data : Byte) :
    decodeHmem (hmemWord we addr data) = if we then .mwr addr data else .mrd addr data := by
  unfold decodeHmem
  rw [hmemWe_hmemWord, hmemAddr_hmemWord, hmemData_hmemWord]

end Sys2Proof.Machine
end

