-- ==== Sys2Proof/Laws/PerInstr.lean ====
section
/-! SUPPORT. Per-instruction laws. Family `TableRow`: the encoder agrees with spec/opcode_table.json, whose match and mask are
transcribed here row by row. -/

namespace Sys2Proof.Laws

/-- A row of spec/opcode_table.json: its format, match and mask. -/
inductive OpcodeRow where
  | host (pattern mask : BitVec 21)
  | hmem (pattern mask : BitVec 25)
  | status (pattern mask : BitVec 8)
  | line (pattern mask : BitVec 8)
  | timer (pattern mask : BitVec 2)
  | reset (pattern mask : BitVec 1)
  deriving DecidableEq, Repr

/-- A word lies in a row. -/
def OpcodeRow.covers : OpcodeRow → Code → Bool
  | .host p m, .host w => w &&& m == p
  | .hmem p m, .hmem w => w &&& m == p
  | .status p m, .status w => w &&& m == p
  | .line p m, .line w _ => w &&& m == p
  | .timer p m, .timer w => w &&& m == p
  | .reset p m, .reset w => w &&& m == p
  | _, _ => false

/-- The rows of an operation's mnemonic. -/
def rowsOf : Instr → List OpcodeRow
  | .hrdCtl _ => [.host 0x000000 0x1F0000]
  | .hrdDat _ => [.host 0x010000 0x1F0000]
  | .hrdTaddr _ => [.host 0x020000 0x1F0000]
  | .hrdSubaddr _ => [.host 0x030000 0x1F0000]
  | .hrdFlags _ => [.host 0x040000 0x1F0000]
  | .hrdCursor _ => [.host 0x050000 0x1F0000]
  | .hrdRemain _ => [.host 0x060000 0x1F0000]
  | .hrdStat _ => [.host 0x070000 0x1F0000]
  | .hrdCount _ => [.host 0x080000 0x1F0000]
  | .hrdRsv _ _ => [.host 0x090000 0x1F0000, .host 0x0A0000 0x1E0000, .host 0x0C0000 0x1C0000]
  | .hwrCtlDisable _ => [.host 0x100000 0x1F0080]
  | .hwrCtlEnable _ => [.host 0x100080 0x1F00A0]
  | .hwrCtlGo _ => [.host 0x1000A0 0x1F00A0]
  | .hwrDat _ => [.host 0x110000 0x1F0000]
  | .hwrTaddr _ => [.host 0x120000 0x1F0000]
  | .hwrSubaddr _ => [.host 0x130000 0x1F0000]
  | .hwrFlags _ => [.host 0x140000 0x1F0000]
  | .hwrCursor _ => [.host 0x150000 0x1F0000]
  | .hwrRemain _ => [.host 0x160000 0x1F0000]
  | .hwrStat _ => [.host 0x170000 0x1F0000]
  | .hwrCount _ => [.host 0x180000 0x1F0000]
  | .hwrRsv _ _ => [.host 0x190000 0x1F0000, .host 0x1A0000 0x1E0000, .host 0x1C0000 0x1C0000]
  | .mrd _ _ => [.hmem 0x0000000 0x1000000]
  | .mwr _ _ => [.hmem 0x1000000 0x1000000]
  | .evStart => [.status 0xC1 0xC7]
  | .evTxAck => [.status 0xC2 0xC7]
  | .evTxNack => [.status 0xC3 0xC7]
  | .evRx => [.status 0xC4 0xC7]
  | .evOther _ => [.status 0xC0 0xC7, .status 0xC5 0xC7, .status 0xC6 0xC7, .status 0xC7 0xC7]
  | .luAck => [.line 0xA0 0xE0]
  | .luStop => [.line 0x90 0xF0]
  | .luStart => [.line 0x88 0xF8]
  | .luRxbyte _ => [.line 0x86 0xFE]
  | .luTxbyte .addressByte _ => [.line 0x83 0xFF]
  | .luTxbyte .otherByte _ => [.line 0x85 0xFF]
  | .luFault _ => [.line 0x80 0xC0]
  | .wdtTickIdle => [.timer 0b00 0b10]
  | .wdtTickCount => [.timer 0b10 0b11]
  | .wdtTickAbort => [.timer 0b11 0b11]
  | .reset => [.reset 0b1 0b1]

/-- Some row of the operation's mnemonic covers the word the encoder gives. -/
def inRow (i : Instr) : Bool := (rowsOf i).any fun r => r.covers (encode i)

/-- Family `TableRow`: a well-formed operation is encoded into a row of its own mnemonic. -/
def TableRow.Statement (i : Instr) : Prop := i.wellFormed = true → inRow i = true

/-! ### Masking a word made of fields -/

open Sys2Proof.Machine

theorem hostWord_mask (we : Bool) (reg : BitVec 4) (wdata : Word16) :
    hostWord we reg wdata &&& 0x1F0000 = hostWord we reg 0 ∧
    hostWord we reg wdata &&& 0x1E0000 = hostWord we (reg &&& 0xE#4) 0 ∧
    hostWord we reg wdata &&& 0x1C0000 = hostWord we (reg &&& 0xC#4) 0 ∧
    hostWord we reg wdata &&& 0x1F0080 = hostWord we reg (wdata &&& 0x80#16) ∧
    hostWord we reg wdata &&& 0x1F00A0 = hostWord we reg (wdata &&& 0xA0#16) := by
  refine ⟨?_, ?_, ?_, ?_, ?_⟩ <;>
  · apply BitVec.eq_of_getLsbD_eq
    intro i hi
    rw [BitVec.getLsbD_and, hostWord_getLsbD, hostWord_getLsbD]
    interval_cases i <;> simp [-BitVec.getLsbD_eq_getElem]

theorem hmemWord_mask (we : Bool) (addr : Addr) (data : Byte) :
    hmemWord we addr data &&& 0x1000000 = hmemWord we 0 0 := by
  apply BitVec.eq_of_getLsbD_eq
  intro i hi
  rw [BitVec.getLsbD_and, hmemWord_getLsbD, hmemWord_getLsbD]
  interval_cases i <;> simp [-BitVec.getLsbD_eq_getElem]

/-- The two bits of a `CTL` write that are decoded, as the masks see them. -/
theorem ctl_bits (wdata : Word16) :
    wdata &&& 0x80#16 = (if wdata.getLsbD 7 then 0x80#16 else 0) ∧
    wdata &&& 0xA0#16 = (if wdata.getLsbD 7 then 0x80#16 else 0) ||| (if wdata.getLsbD 5 then 0x20#16 else 0) := by
  constructor <;>
  · apply BitVec.eq_of_getLsbD_eq
    intro i hi
    cases h7 : wdata.getLsbD 7 <;> cases h5 : wdata.getLsbD 5 <;>
      interval_cases i <;> simp_all [-BitVec.getLsbD_eq_getElem]

/-! ### One lemma per operation -/

theorem TableRow.hrdCtl (wdata : Word16) : TableRow.Statement (.hrdCtl wdata) := by
  intro _
  simp only [inRow, rowsOf, encode, OpcodeRow.covers, List.any_cons, List.any_nil]
  rw [(hostWord_mask _ _ _).1]
  rfl

theorem TableRow.hrdDat (wdata : Word16) : TableRow.Statement (.hrdDat wdata) := by
  intro _
  simp only [inRow, rowsOf, encode, OpcodeRow.covers, List.any_cons, List.any_nil]
  rw [(hostWord_mask _ _ _).1]
  rfl

theorem TableRow.hrdTaddr (wdata : Word16) : TableRow.Statement (.hrdTaddr wdata) := by
  intro _
  simp only [inRow, rowsOf, encode, OpcodeRow.covers, List.any_cons, List.any_nil]
  rw [(hostWord_mask _ _ _).1]
  rfl

theorem TableRow.hrdSubaddr (wdata : Word16) : TableRow.Statement (.hrdSubaddr wdata) := by
  intro _
  simp only [inRow, rowsOf, encode, OpcodeRow.covers, List.any_cons, List.any_nil]
  rw [(hostWord_mask _ _ _).1]
  rfl

theorem TableRow.hrdFlags (wdata : Word16) : TableRow.Statement (.hrdFlags wdata) := by
  intro _
  simp only [inRow, rowsOf, encode, OpcodeRow.covers, List.any_cons, List.any_nil]
  rw [(hostWord_mask _ _ _).1]
  rfl

theorem TableRow.hrdCursor (wdata : Word16) : TableRow.Statement (.hrdCursor wdata) := by
  intro _
  simp only [inRow, rowsOf, encode, OpcodeRow.covers, List.any_cons, List.any_nil]
  rw [(hostWord_mask _ _ _).1]
  rfl

theorem TableRow.hrdRemain (wdata : Word16) : TableRow.Statement (.hrdRemain wdata) := by
  intro _
  simp only [inRow, rowsOf, encode, OpcodeRow.covers, List.any_cons, List.any_nil]
  rw [(hostWord_mask _ _ _).1]
  rfl

theorem TableRow.hrdStat (wdata : Word16) : TableRow.Statement (.hrdStat wdata) := by
  intro _
  simp only [inRow, rowsOf, encode, OpcodeRow.covers, List.any_cons, List.any_nil]
  rw [(hostWord_mask _ _ _).1]
  rfl

theorem TableRow.hrdCount (wdata : Word16) : TableRow.Statement (.hrdCount wdata) := by
  intro _
  simp only [inRow, rowsOf, encode, OpcodeRow.covers, List.any_cons, List.any_nil]
  rw [(hostWord_mask _ _ _).1]
  rfl

theorem TableRow.hrdRsv (reg : BitVec 4) (wdata : Word16) : TableRow.Statement (.hrdRsv reg wdata) := by
  intro h
  have hr : reservedReg reg = true := h
  clear h
  simp only [inRow, rowsOf, encode, OpcodeRow.covers, List.any_cons, List.any_nil]
  rw [(hostWord_mask _ _ _).1, (hostWord_mask _ _ _).2.1, (hostWord_mask _ _ _).2.2.1]
  revert reg
  decide

theorem TableRow.hwrCtlDisable (wdata : Word16) : TableRow.Statement (.hwrCtlDisable wdata) := by
  intro h
  have h7 : wdata.getLsbD 7 = false := by simpa [Instr.wellFormed] using h
  simp only [inRow, rowsOf, encode, OpcodeRow.covers, List.any_cons, List.any_nil]
  rw [(hostWord_mask _ _ _).2.2.2.1, (ctl_bits wdata).1, h7]
  rfl

theorem TableRow.hwrCtlEnable (wdata : Word16) : TableRow.Statement (.hwrCtlEnable wdata) := by
  intro h
  simp only [Instr.wellFormed, Bool.and_eq_true, Bool.not_eq_true'] at h
  simp only [inRow, rowsOf, encode, OpcodeRow.covers, List.any_cons, List.any_nil]
  rw [(hostWord_mask _ _ _).2.2.2.2, (ctl_bits wdata).2, h.1, h.2]
  rfl

theorem TableRow.hwrCtlGo (wdata : Word16) : TableRow.Statement (.hwrCtlGo wdata) := by
  intro h
  simp only [Instr.wellFormed, Bool.and_eq_true] at h
  simp only [inRow, rowsOf, encode, OpcodeRow.covers, List.any_cons, List.any_nil]
  rw [(hostWord_mask _ _ _).2.2.2.2, (ctl_bits wdata).2, h.1, h.2]
  rfl

theorem TableRow.hwrDat (wdata : Word16) : TableRow.Statement (.hwrDat wdata) := by
  intro _
  simp only [inRow, rowsOf, encode, OpcodeRow.covers, List.any_cons, List.any_nil]
  rw [(hostWord_mask _ _ _).1]
  rfl

theorem TableRow.hwrTaddr (wdata : Word16) : TableRow.Statement (.hwrTaddr wdata) := by
  intro _
  simp only [inRow, rowsOf, encode, OpcodeRow.covers, List.any_cons, List.any_nil]
  rw [(hostWord_mask _ _ _).1]
  rfl

theorem TableRow.hwrSubaddr (wdata : Word16) : TableRow.Statement (.hwrSubaddr wdata) := by
  intro _
  simp only [inRow, rowsOf, encode, OpcodeRow.covers, List.any_cons, List.any_nil]
  rw [(hostWord_mask _ _ _).1]
  rfl

theorem TableRow.hwrFlags (wdata : Word16) : TableRow.Statement (.hwrFlags wdata) := by
  intro _
  simp only [inRow, rowsOf, encode, OpcodeRow.covers, List.any_cons, List.any_nil]
  rw [(hostWord_mask _ _ _).1]
  rfl

theorem TableRow.hwrCursor (wdata : Word16) : TableRow.Statement (.hwrCursor wdata) := by
  intro _
  simp only [inRow, rowsOf, encode, OpcodeRow.covers, List.any_cons, List.any_nil]
  rw [(hostWord_mask _ _ _).1]
  rfl

theorem TableRow.hwrRemain (wdata : Word16) : TableRow.Statement (.hwrRemain wdata) := by
  intro _
  simp only [inRow, rowsOf, encode, OpcodeRow.covers, List.any_cons, List.any_nil]
  rw [(hostWord_mask _ _ _).1]
  rfl

theorem TableRow.hwrStat (wdata : Word16) : TableRow.Statement (.hwrStat wdata) := by
  intro _
  simp only [inRow, rowsOf, encode, OpcodeRow.covers, List.any_cons, List.any_nil]
  rw [(hostWord_mask _ _ _).1]
  rfl

theorem TableRow.hwrCount (wdata : Word16) : TableRow.Statement (.hwrCount wdata) := by
  intro _
  simp only [inRow, rowsOf, encode, OpcodeRow.covers, List.any_cons, List.any_nil]
  rw [(hostWord_mask _ _ _).1]
  rfl

theorem TableRow.hwrRsv (reg : BitVec 4) (wdata : Word16) : TableRow.Statement (.hwrRsv reg wdata) := by
  intro h
  have hr : reservedReg reg = true := h
  clear h
  simp only [inRow, rowsOf, encode, OpcodeRow.covers, List.any_cons, List.any_nil]
  rw [(hostWord_mask _ _ _).1, (hostWord_mask _ _ _).2.1, (hostWord_mask _ _ _).2.2.1]
  revert reg
  decide

theorem TableRow.mrd (addr : Addr) (data : Byte) : TableRow.Statement (.mrd addr data) := by
  intro _
  simp only [inRow, rowsOf, encode, OpcodeRow.covers, List.any_cons, List.any_nil]
  rw [hmemWord_mask]
  rfl

theorem TableRow.mwr (addr : Addr) (data : Byte) : TableRow.Statement (.mwr addr data) := by
  intro _
  simp only [inRow, rowsOf, encode, OpcodeRow.covers, List.any_cons, List.any_nil]
  rw [hmemWord_mask]
  rfl

theorem TableRow.evStart : TableRow.Statement .evStart := fun _ => rfl

theorem TableRow.evTxAck : TableRow.Statement .evTxAck := fun _ => rfl

theorem TableRow.evTxNack : TableRow.Statement .evTxNack := fun _ => rfl

theorem TableRow.evRx : TableRow.Statement .evRx := fun _ => rfl

theorem TableRow.evOther (code : BitVec 3) : TableRow.Statement (.evOther code) := by
  unfold TableRow.Statement
  revert code
  decide

theorem TableRow.luAck : TableRow.Statement .luAck := fun _ => rfl

theorem TableRow.luStop : TableRow.Statement .luStop := fun _ => rfl

theorem TableRow.luStart : TableRow.Statement .luStart := fun _ => rfl

theorem TableRow.luRxbyte (b : Byte) : TableRow.Statement (.luRxbyte b) := fun _ => rfl

theorem TableRow.luTxbyte (row : TxRow) (a : Ack) : TableRow.Statement (.luTxbyte row a) := by
  intro _
  cases row <;> rfl

theorem TableRow.luFault (f : FaultStatus) : TableRow.Statement (.luFault f) := fun _ => rfl

theorem TableRow.wdtTickIdle : TableRow.Statement .wdtTickIdle := fun _ => rfl

theorem TableRow.wdtTickCount : TableRow.Statement .wdtTickCount := fun _ => rfl

theorem TableRow.wdtTickAbort : TableRow.Statement .wdtTickAbort := fun _ => rfl

theorem TableRow.reset : TableRow.Statement .reset := fun _ => rfl

end Sys2Proof.Laws
end

