-- ==== Sys2Proof/Laws/Step.lean ====
section
/-! SUPPORT. Everything one step can do: the turn `fetch` offers is a host operation, a reset, or an operation enabled in the
state it is taken in; and taking a turn changes nothing but the environment's own data. -/

namespace Sys2Proof.Machine

/-! ### Shared operations -/

/-- The gate of 40_host_access R100, closed. -/
@[simp] theorem hostWrite_busy (s : State) (f : State → State) (h : s.busy = true) : s.hostWrite f = s := by
  simp [State.hostWrite, h]

/-- The gate of 40_host_access R100, open. -/
@[simp] theorem hostWrite_idle (s : State) (f : State → State) (h : s.busy = false) : s.hostWrite f = f s := by
  simp [State.hostWrite, h]

/-! ### The turn -/

/-- Only the schedule, the host's program, the noted windows and the mock target differ in the state a turn is taken in. -/
theorem fetch_frame (s : State) :
    ∃ is hp ws e, (fetch s).2 = { s with inputs := is, hostProg := hp, windows := ws, ee := e } := by
  obtain ⟨cfg, b, d, ta, sa, ssa, rsr, apn, dc, br, ssn, bc, f, r, en, si, sta, sto, ak, st, dat, wc, lp, ldf, lap, m, tr, rr, mr,
    ws, ee, hp, is⟩ := s
  unfold fetch
  cases is with
  | nil => exact ⟨_, _, _, _, rfl⟩
  | cons i rest =>
    cases i with
    | host =>
      cases hp with
      | nil => exact ⟨_, _, _, _, rfl⟩
      | cons c hp =>
        cases c with
        | reg w => exact ⟨_, _, _, _, rfl⟩
        | mem w => exact ⟨_, _, _, _, rfl⟩
        | wait => exact ⟨_, _, _, _, rfl⟩
    | engine =>
      simp only [State.engineTurn]
      split <;> exact ⟨_, _, _, _, rfl⟩
    | line t =>
      simp only [State.lineTurn]
      split
      · exact ⟨_, _, _, _, rfl⟩
      · cases t <;> exact ⟨_, _, _, _, rfl⟩
    | lineFault f =>
      simp only [State.faultTurn]
      split <;> exact ⟨_, _, _, _, rfl⟩
    | lineFree st' l k =>
      simp only [State.freeTurn]
      split <;> exact ⟨_, _, _, _, rfl⟩
    | tick =>
      simp only [State.tickTurn]
      split <;> exact ⟨_, _, _, _, rfl⟩
    | reset w => exact ⟨_, _, _, _, rfl⟩

/-- Two states that differ in the environment's data alone enable the same operations. -/
theorem enables_env (s : State) (is : List Input) (hp : List HostCmd) (ws : List BufWindow) (e : Target) (i : Instr) :
    State.enables { s with inputs := is, hostProg := hp, windows := ws, ee := e } i ↔ s.enables i := by
  cases i <;> exact Iff.rfl

theorem decodeStatusCode_enables (s : State) (h : s.engineEnabled = true) : s.enables (decodeStatusCode s.status) := by
  have hs : ∀ c : BitVec 3,
      (c = 1 ∧ decodeStatusCode c = .evStart) ∨ (c = 2 ∧ decodeStatusCode c = .evTxAck) ∨
      (c = 3 ∧ decodeStatusCode c = .evTxNack) ∨ (c = 4 ∧ decodeStatusCode c = .evRx) ∨
      (decodeStatusCode c = .evOther c ∧ otherStatus c = true) := by decide
  obtain ⟨hc, e⟩ | ⟨hc, e⟩ | ⟨hc, e⟩ | ⟨hc, e⟩ | ⟨e, ho⟩ := hs s.status <;> rw [e]
  · exact ⟨h, hc⟩
  · exact ⟨h, hc⟩
  · exact ⟨h, hc⟩
  · exact ⟨h, hc⟩
  · exact ⟨h, rfl, ho⟩

/-- A STATUS word is decoded only to an enabled event step. -/
theorem status_enables (s : State) {i : Instr} (h : decode (.status s.ctlView) = .op i) : s.enables i := by
  rw [decode, decodeStatus_ctlView] at h
  split at h
  · next he => cases h; exact decodeStatusCode_enables s he
  · cases h

/-- A LINE word is decoded only to an enabled operation of the line unit. -/
theorem line_enables (s : State) {b : Byte} {a : Ack} {i : Instr} (hm : s.cfg.luMode ≠ .unconstrained)
    (h : decode (.line s.lineWord (.nominal b a)) = .op i) : s.enables i := by
  rw [decode, decodeLine, decodeLineNominal_lineWord] at h
  split at h
  · cases h
  next h0 =>
  have h0 : s.lineMayStep = true := by simpa using h0
  split at h
  · next h1 => cases h; exact ⟨hm, h0, h1⟩
  next h1 =>
  have h1 : s.luAckPend = false := by simpa using h1
  split at h
  · next h2 => cases h; exact ⟨hm, ⟨h0, h1⟩, h2⟩
  next h2 =>
  have h2 : s.sto = false := by simpa using h2
  split at h
  · next h3 => cases h; exact ⟨hm, ⟨h0, h1⟩, h2, h3⟩
  next h3 =>
  have h3 : s.sta = false := by simpa using h3
  split at h
  · next h4 => cases h; exact ⟨hm, ⟨h0, h1⟩, h2, h3, h4⟩
  split at h
  · next h5 => cases h; exact ⟨hm, ⟨h0, h1⟩, h2, h3, h5⟩
  split at h
  · next h6 => cases h; exact ⟨hm, ⟨h0, h1⟩, h2, h3, h6⟩
  · cases h

/-- A fault is reported only where the mode and the line unit's state allow it. -/
theorem fault_enables (s : State) {f : FaultStatus} {i : Instr} (hm : s.cfg.luMode = .nominalWithFaults)
    (h : decode (.line s.lineWord (.fault f)) = .op i) : s.enables i := by
  rw [decode, decodeLine] at h
  split at h
  · next h0 => cases h; exact ⟨hm, (lineWord_rows s).1.mp h0⟩
  · cases h

/-- A TIMER word is decoded only to the tick it stands for. -/
theorem timer_enables (s : State) {i : Instr} (h : decode (.timer s.timerWord) = .op i) : s.enables i := by
  rw [decode, decodeTimer_timerWord] at h
  split at h
  · next hb =>
    split at h
    · next hl => cases h; exact ⟨hb, hl⟩
    · next hl => cases h; exact ⟨hb, by simpa using hl⟩
  · next hb => cases h; exact (by simpa using hb : s.busy = false)

theorem host_enables (s : State) {w : BitVec 21} {i : Instr} (h : decode (.host w) = .op i) : s.enables i := by
  cases h
  unfold decodeHost
  split
  · unfold decodeHostWrite
    split <;> first | exact trivial | (unfold decodeCtlWrite; split <;> first | exact trivial | (split <;> exact trivial))
  · unfold decodeHostRead
    split <;> exact trivial

theorem hmem_enables (s : State) {w : BitVec 25} {i : Instr} (h : decode (.hmem w) = .op i) : s.enables i := by
  cases h
  unfold decodeHmem
  split <;> exact trivial

/-- The operation of a turn is enabled in the state the turn is taken in (00_scope R5). -/
theorem fetch_enables (s : State) {c : Code} {i : Instr} (hw : (fetch s).1 = .word c) (hd : decode c = .op i) :
    (fetch s).2.enables i := by
  revert hw
  unfold fetch
  split
  · intro hw; cases hw
  · unfold State.hostTurn
    split
    · intro hw; cases hw
    · intro hw; cases hw; exact host_enables _ hd
    · intro hw; cases hw; exact hmem_enables _ hd
    · intro hw; cases hw; exact host_enables _ hd
  · unfold State.engineTurn
    split
    · intro hw; cases hw
    · intro hw; cases hw; exact status_enables _ hd
  · unfold State.lineTurn
    split
    · intro hw; cases hw
    next hm =>
    split
    · intro hw; cases hw; exact line_enables _ hm hd
    · intro hw
      cases hw
      refine (enables_env _ _ _ _ _ i).mpr ?_
      generalize hq : State.mockAnswer _ = q at hd
      obtain ⟨d, e⟩ := q
      cases d with
      | nominal b a => exact line_enables _ hm hd
      | fault f =>
        exfalso
        unfold State.mockAnswer at hq
        split at hq <;> cases hq
  · unfold State.faultTurn
    split
    · next hm => intro hw; cases hw; exact fault_enables _ hm hd
    · intro hw; cases hw
  · unfold State.freeTurn
    split <;> intro hw <;> cases hw
  · unfold State.tickTurn
    split
    · intro hw; cases hw; exact status_enables s hd
    · intro hw; cases hw; exact timer_enables _ hd
  · intro hw
    cases hw
    rw [decode, decodeReset] at hd
    split at hd <;> cases hd
    exact trivial

/-- A STATUS word is decoded to no tick, and a TIMER word to no event step. -/
theorem status_not_abort (w : BitVec 8) : decode (.status w) ≠ .op .wdtTickAbort := by revert w; decide

theorem timer_not_event (w : BitVec 2) : ∀ i, decode (.timer w) = .op i → isEvent i = false := by
  have h : ∀ w : BitVec 2, isEvent (decodeTimer w) = false := by decide
  intro i hi
  cases hi
  exact h w

/-- No host word, no LINE word and no reset stands for an event step or a tick. -/
theorem host_not_event {w : BitVec 21} {i : Instr} (h : decode (.host w) = .op i) :
    isEvent i = false ∧ i ≠ .wdtTickAbort := by
  cases h
  unfold decodeHost
  split
  · unfold decodeHostWrite
    split <;> first
      | exact ⟨rfl, nofun⟩
      | (unfold decodeCtlWrite; split <;> first | exact ⟨rfl, nofun⟩ | (split <;> exact ⟨rfl, nofun⟩))
  · unfold decodeHostRead
    split <;> exact ⟨rfl, nofun⟩

theorem hmem_not_event {w : BitVec 25} {i : Instr} (h : decode (.hmem w) = .op i) :
    isEvent i = false ∧ i ≠ .wdtTickAbort := by
  cases h
  unfold decodeHmem
  split <;> exact ⟨rfl, nofun⟩

theorem line_not_event {w : BitVec 8} {d : Draw} {i : Instr} (h : decode (.line w d) = .op i) :
    isEvent i = false ∧ i ≠ .wdtTickAbort := by
  cases d with
  | nominal b a =>
    rw [decode, decodeLine] at h
    unfold decodeLineNominal at h
    repeat' split at h
    all_goals first | (cases h; exact ⟨rfl, nofun⟩) | cases h
  | fault f =>
    rw [decode, decodeLine] at h
    split at h <;> cases h
    exact ⟨rfl, nofun⟩

/-- `EVENT_ORDER` (60_exceptions R199): no event step is taken where the abort comes first, and no abort where the event does. -/
theorem fetch_order (s : State) {c : Code} {i : Instr} (hw : (fetch s).1 = .word c) (hd : decode c = .op i) :
    (isEvent i = true → (fetch s).2.engineYields = false) ∧ (i = .wdtTickAbort → (fetch s).2.tickYields = false) := by
  have none {p q : Prop} (h : isEvent i = false ∧ i ≠ .wdtTickAbort) : (isEvent i = true → p) ∧ (i = .wdtTickAbort → q) :=
    ⟨fun h' => absurd h' (by simp [h.1]), fun h' => absurd h' h.2⟩
  revert hw
  unfold fetch
  split
  · intro hw; cases hw
  · unfold State.hostTurn State.issue
    split
    · intro hw; cases hw
    · intro hw; cases hw; exact none (host_not_event hd)
    · intro hw; cases hw; exact none (hmem_not_event hd)
    · intro hw; cases hw; exact none (host_not_event hd)
  · unfold State.engineTurn
    split
    · intro hw; cases hw
    · next hy => intro hw; cases hw; exact ⟨fun _ => by simpa using hy, fun h => absurd (h ▸ hd) (status_not_abort _)⟩
  · unfold State.lineTurn
    split
    · intro hw; cases hw
    · split <;> (intro hw; cases hw; exact none (line_not_event hd))
  · unfold State.faultTurn
    split <;> (intro hw; cases hw)
    exact none (line_not_event hd)
  · unfold State.freeTurn
    split <;> intro hw <;> cases hw
  · unfold State.tickTurn
    split
    · next hy =>
      intro hw
      cases hw
      refine ⟨fun _ => ?_, fun h => absurd (h ▸ hd) (status_not_abort _)⟩
      have he : s.cfg.eventOrder = .engineFirst := by
        have := (Bool.and_eq_true _ _ ▸ hy : _ ∧ _).1
        simpa using this
      simp [State.engineYields, he]
    · next hy =>
      intro hw
      cases hw
      exact ⟨fun h => absurd h (by simp [timer_not_event _ i hd]), fun _ => by simpa using hy⟩
  · intro hw
    cases hw
    rw [decode, decodeReset] at hd
    split at hd <;> cases hd
    exact ⟨nofun, nofun⟩

/-- The unconstrained line unit steps only in its own mode and when it may (42_line_unit R160). -/
theorem fetch_free (s : State) {st : BitVec 3} {l : Option Byte} {k : Bool} (h : (fetch s).1 = .free st l k) :
    s.cfg.luMode = .unconstrained ∧ s.lineMayStep = true := by
  revert h
  unfold fetch
  split
  · intro h; cases h
  · unfold State.hostTurn; split <;> intro h <;> cases h
  · unfold State.engineTurn; split <;> intro h <;> cases h
  · unfold State.lineTurn
    split
    · intro h; cases h
    · split <;> intro h <;> cases h
  · unfold State.faultTurn; split <;> intro h <;> cases h
  · unfold State.freeTurn
    split
    · next hc => intro _; exact hc
    · intro h; cases h
  · unfold State.tickTurn; split <;> intro h <;> cases h
  · intro h; cases h

/-- Everything a step can do. In a state `u` that differs from `s` in the environment's data alone: nothing; an operation
enabled in `u`; or the unconstrained line unit's operation. -/
theorem step_cases {s t : State} (h : step s = .next t) :
    ∃ is hp ws e, ∃ u : State, u = { s with inputs := is, hostProg := hp, windows := ws, ee := e } ∧ u = (fetch s).2 ∧
      (t = u ∨ (∃ i, u.enables i ∧ exec i u = .next t) ∨
        (∃ st l k, u.cfg.luMode = .unconstrained ∧ u.lineMayStep = true ∧ t = u.lineUnconstrained st l k)) := by
  obtain ⟨is, hp, ws, e, hu⟩ := fetch_frame s
  refine ⟨is, hp, ws, e, (fetch s).2, hu, rfl, ?_⟩
  unfold step perform at h
  split at h
  · cases h; exact .inl rfl
  · next c hc =>
    split at h
    · next i hi => exact .inr (.inl ⟨i, fetch_enables s hc hi, h⟩)
    · cases h; exact .inl rfl
  · next st l k hf =>
    cases h
    obtain ⟨h1, h2⟩ := fetch_free s hf
    refine .inr (.inr ⟨st, l, k, ?_, ?_, rfl⟩)
    · rw [hu]; exact h1
    · rw [hu]; exact h2

/-- An invariant that does not look at the environment's data is kept by every step if every enabled operation keeps it and the
unconstrained line unit's operation does. -/
theorem step_keeps {P : State → Prop}
    (henv : ∀ s is hp ws e, P s → P { s with inputs := is, hostProg := hp, windows := ws, ee := e })
    (hop : ∀ s i t, P s → s.enables i → exec i s = .next t → P t)
    (hfree : ∀ s st l k, P s → s.cfg.luMode = .unconstrained → s.lineMayStep = true → P (s.lineUnconstrained st l k))
    {s t : State} (hs : P s) (h : step s = .next t) : P t := by
  obtain ⟨is, hp, ws, e, u, hu, -, rfl | ⟨i, hi, he⟩ | ⟨st, l, k, hm, hr, rfl⟩⟩ := step_cases h
  · rw [hu]; exact henv _ _ _ _ _ hs
  · exact hop u i t (by rw [hu]; exact henv _ _ _ _ _ hs) hi he
  · exact hfree u st l k (by rw [hu]; exact henv _ _ _ _ _ hs) hm hr

end Sys2Proof.Machine
end

