-- ==== Sys2Proof/Laws/Place.lean ====
section
/-! SUPPORT. A placed word is the one the next step presents to its decoder. -/

namespace Sys2Proof.Machine

theorem ctlView_setCtl (s : State) (w : BitVec 8) : (s.setCtl w).ctlView = w := by
  have h : ∀ w : BitVec 8, (bit (w.getLsbD 7) ++ bit (w.getLsbD 6) ++ bit (w.getLsbD 5) ++ bit (w.getLsbD 4) ++
      bit (w.getLsbD 3) ++ w.extractLsb' 0 3 : Byte) = w := by decide
  exact h w

theorem lineWord_setLineWord (s : State) (w : BitVec 8) : (s.setLineWord w).lineWord = w := by
  have h : ∀ w : BitVec 8, (bit (w.getLsbD 7) ++ bit (w.getLsbD 6) ++ bit (w.getLsbD 5) ++ bit (w.getLsbD 4) ++
      bit (w.getLsbD 3) ++ (phaseOfBits (w.extractLsb' 1 2)).bits ++ bit (w.getLsbD 0) : Byte) = w := by decide
  exact h w

theorem timerWord_setTimerWord (s : State) (w : BitVec 2) : (s.setTimerWord w).timerWord = w := by
  have h : ∀ w : BitVec 2, (bit (w.getLsbD 1) ++ bit (w.getLsbD 0) : BitVec 2) = w := by decide
  have hl : (s.setTimerWord w).wdtLast = w.getLsbD 0 := by
    unfold State.wdtLast State.setTimerWord Config.wdtPeriodTicks
    cases w.getLsbD 0
    · by_cases ht : s.cfg.wdtTerminal = 0
      · simp [ht]
      · simp [ht]
    · simp
  unfold State.timerWord
  rw [hl]
  exact h w

/-- `placeCode` sets all the fetch needs: the next turn presents the placed word. -/
theorem fetch_placeCode (s : State) (c : Code) : (fetch (s.placeCode c)).1 = .word c := by
  cases c with
  | host w => rfl
  | hmem w => rfl
  | status w =>
    have h : (fetch (s.placeCode (.status w))).1 = .word (.status (s.setCtl w).ctlView) := by
      simp [fetch, State.placeCode, State.engineTurn, State.engineYields, State.ctlView]
    rw [h, ctlView_setCtl]
  | line w d =>
    cases d with
    | nominal b a =>
      have h : (fetch (s.placeCode (.line w (.nominal b a)))).1 = .word (.line (s.setLineWord w).lineWord (.nominal b a)) := rfl
      rw [h, lineWord_setLineWord]
    | fault f =>
      have h : (fetch (s.placeCode (.line w (.fault f)))).1 = .word (.line (s.setLineWord w).lineWord (.fault f)) := rfl
      rw [h, lineWord_setLineWord]
  | timer w =>
    have h : (fetch (s.placeCode (.timer w))).1 = .word (.timer (s.setTimerWord w).timerWord) := rfl
    rw [h, timerWord_setTimerWord]
  | reset w => rfl

end Sys2Proof.Machine
end

