-- ==== Sys2Proof/Laws/Target.lean ====
section
/-! SUPPORT. The mock target stays in canonical form whatever it answers, and so through every turn. -/

namespace Sys2Proof.Machine

theorem onAddress_wf (t : Target) (b : Byte) (h : t.wf = true) : (t.onAddress b).2.wf = true := by
  unfold Target.onAddress
  split
  · exact h
  · split
    · exact h
    · dsimp only
      split
      · exact h
      · exact h

theorem onByte_wf (t : Target) (b : Byte) (h : t.wf = true) : (t.onByte b).2.wf = true := by
  unfold Target.onByte
  split
  · exact h
  · exact target_write_wf t t.ptr b h

theorem mockAnswer_wf (s : State) (h : s.ee.wf = true) : s.mockAnswer.2.wf = true := by
  unfold State.mockAnswer
  split
  · exact onAddress_wf _ _ h
  · exact onByte_wf _ _ h
  · exact h
  · exact h

/-- Offering a turn keeps the mock target's canonical form. -/
theorem fetch_target_wf (s : State) (h : s.ee.wf = true) : (fetch s).2.ee.wf = true := by
  unfold fetch
  split
  · exact h
  · unfold State.hostTurn
    split
    · exact h
    · exact h
    · exact h
    · exact h
  · unfold State.engineTurn; split <;> exact h
  · unfold State.lineTurn
    split
    · exact h
    · split
      · exact h
      · exact mockAnswer_wf _ h
  · unfold State.faultTurn; split <;> exact h
  · unfold State.freeTurn; split <;> exact h
  · unfold State.tickTurn; split <;> exact h
  · exact h

/-- Offering a turn leaves buffer memory alone. -/
theorem fetch_mem (s : State) : (fetch s).2.mem = s.mem := by
  obtain ⟨is, hp, ws, e, h⟩ := fetch_frame s
  rw [h]

/-- Offering a turn leaves the parameters alone. -/
theorem fetch_cfg (s : State) : (fetch s).2.cfg = s.cfg := by
  obtain ⟨is, hp, ws, e, h⟩ := fetch_frame s
  rw [h]

end Sys2Proof.Machine
end

