-- ==== Sys2Proof/Laws/Turns.lean ====
section
/-! SUPPORT. Who has to wait for whom under `EVENT_ORDER` (60_exceptions R199), and what the turns do to the environment's own data:
the buffers the host has given away (70_reset_and_hazards R225) and the mock target (42_line_unit R159); no operation touches
either. -/

namespace Sys2Proof.Machine

/-- A status event and the aborting tick are both enabled: `EN` = 1, `SI` = 1 and `TW` = 0b11. -/
theorem bothEnabled_iff (s : State) :
    s.bothEnabled = true ↔ s.en = true ∧ s.si = true ∧ s.busy = true ∧ s.wdtCount + 1 = s.cfg.wdtPeriodTicks := by
  simp [State.bothEnabled, State.engineEnabled, State.abortDue, State.wdtLast, and_assoc]

/-- When the engine waits for the abort. -/
theorem engineYields_iff (s : State) :
    s.engineYields = true ↔ s.cfg.eventOrder = .wdtFirst ∧ s.en = true ∧ s.si = true ∧ s.busy = true ∧
      s.wdtCount + 1 = s.cfg.wdtPeriodTicks := by
  rw [← bothEnabled_iff]
  simp [State.engineYields]

/-- When the tick waits for the engine. -/
theorem tickYields_iff (s : State) :
    s.tickYields = true ↔ s.cfg.eventOrder = .engineFirst ∧ s.en = true ∧ s.si = true ∧ s.busy = true ∧
      s.wdtCount + 1 = s.cfg.wdtPeriodTicks := by
  rw [← bothEnabled_iff]
  simp [State.tickYields]

/-- The rows HWR.CTL.GO and HRD.STAT of the opcode table, bit by bit. -/
theorem go_row (w : BitVec 21) :
    w &&& 0x1F00A0#21 = 0x1000A0#21 ↔
      hostWe w = true ∧ hostReg w = 0 ∧ (hostWdata w).getLsbD 7 = true ∧ (hostWdata w).getLsbD 5 = true := by
  constructor
  · intro h
    have hb (i : Nat) := congrArg (·.getLsbD i) h
    refine ⟨by simpa [hostWe] using hb 20, ?_, by simpa [hostWdata] using hb 7, by simpa [hostWdata] using hb 5⟩
    apply BitVec.eq_of_getLsbD_eq
    intro i hi
    have := hb (16 + i)
    interval_cases i <;> simpa [hostReg] using this
  · rintro ⟨h20, hr, h7, h5⟩
    have hb (i : Nat) := congrArg (·.getLsbD i) hr
    have h16 := hb 0
    have h17 := hb 1
    have h18 := hb 2
    have h19 := hb 3
    simp [hostWe, hostReg, hostWdata] at h20 h7 h5 h16 h17 h18 h19
    apply BitVec.eq_of_getLsbD_eq
    intro i hi
    interval_cases i <;> simp [*]

theorem stat_row (w : BitVec 21) :
    w &&& 0x1F0000#21 = 0x070000#21 ↔ hostWe w = false ∧ hostReg w = 7 := by
  constructor
  · intro h
    have hb (i : Nat) := congrArg (·.getLsbD i) h
    refine ⟨by simpa [hostWe] using hb 20, ?_⟩
    apply BitVec.eq_of_getLsbD_eq
    intro i hi
    have := hb (16 + i)
    interval_cases i <;> simpa [hostReg] using this
  · rintro ⟨h20, hr⟩
    have hb (i : Nat) := congrArg (·.getLsbD i) hr
    have h16 := hb 0
    have h17 := hb 1
    have h18 := hb 2
    have h19 := hb 3
    simp [hostWe, hostReg] at h20 h16 h17 h18 h19
    apply BitVec.eq_of_getLsbD_eq
    intro i hi
    interval_cases i <;> simp [*]

/-- Exactly the words of those two rows move buffers between the owners. -/
theorem windowsAfter_eq (s : State) (w : BitVec 21) :
    s.windowsAfter w =
      (if s.busy = false ∧ w &&& 0x1F00A0#21 = 0x1000A0#21 then ⟨s.dataCursor, s.bytesRemaining⟩ :: s.windows
      else if s.busy = false ∧ w &&& 0x1F0000#21 = 0x070000#21 then []
      else s.windows) := by
  simp only [go_row, stat_row, State.windowsAfter, decodeHost, decodeHostRead, decodeHostWrite, decodeCtlWrite]
  have hr : ∀ r : BitVec 4, r = 0 ∨ r = 1 ∨ r = 2 ∨ r = 3 ∨ r = 4 ∨ r = 5 ∨ r = 6 ∨ r = 7 ∨ r = 8 ∨ r = 9 ∨ r = 10 ∨ r = 11 ∨
      r = 12 ∨ r = 13 ∨ r = 14 ∨ r = 15 := by decide
  generalize hostWe w = we, hostReg w = r, (hostWdata w).getLsbD 7 = b7, (hostWdata w).getLsbD 5 = b5
  cases we <;> cases s.busy <;> cases b7 <;> cases b5 <;>
    rcases hr r with rfl | rfl | rfl | rfl | rfl | rfl | rfl | rfl | rfl | rfl | rfl | rfl | rfl | rfl | rfl | rfl <;> rfl

/-- No operation changes the noted buffers or the mock target. -/
theorem exec_windows_ee (i : Instr) {s t : State} (h : exec i s = .next t) : t.windows = s.windows ∧ t.ee = s.ee := by
  have hw (f : State → State) (hf : (f s).windows = s.windows ∧ (f s).ee = s.ee) :
      (s.hostWrite f).windows = s.windows ∧ (s.hostWrite f).ee = s.ee := by
    unfold State.hostWrite
    split
    · exact ⟨rfl, rfl⟩
    · exact hf
  cases i <;> cases h
  case hwrCtlDisable => exact hw _ (by simp)
  case evTxAck =>
    simp only [State.eventDone_windows, State.eventDone_ee]
    repeat' split
    all_goals exact ⟨rfl, rfl⟩
  case evTxNack =>
    simp only [State.eventDone_windows, State.eventDone_ee]
    split <;> simp
  case evRx =>
    unfold State.rxFinish State.rxStore
    repeat' split
    all_goals exact ⟨rfl, rfl⟩
  case evOther => simp
  case wdtTickAbort => simp
  all_goals first | exact ⟨rfl, rfl⟩ | exact hw _ ⟨rfl, rfl⟩

/-- An address of a window, as the rule lists the addresses. -/
theorem holds_iff (w : BufWindow) (a : Addr) :
    w.holds a = true ↔ ∃ k < w.len.toNat, a = w.base + BitVec.ofNat 16 k := by
  unfold BufWindow.holds
  rw [decide_eq_true_iff]
  constructor
  · intro h
    refine ⟨_, h, ?_⟩
    rw [BitVec.ofNat_toNat, BitVec.setWidth_eq]
    bv_omega
  · rintro ⟨k, hk, rfl⟩
    have h8 : w.len.toNat < 256 := w.len.isLt
    have h : w.base + BitVec.ofNat 16 k - w.base = BitVec.ofNat 16 k := by bv_omega
    rw [h, BitVec.toNat_ofNat, Nat.mod_eq_of_lt (by omega)]
    exact hk

/-- An address of some buffer that belongs to the engine. -/
theorem inWindow_iff (s : State) (a : Addr) :
    s.inWindow a = true ↔ ∃ w ∈ s.windows, ∃ k < w.len.toNat, a = w.base + BitVec.ofNat 16 k := by
  simp [State.inWindow, holds_iff]

/-- What the mock target answers, by the operation the line unit has. -/
theorem mockAnswer_eq (s : State) :
    s.mockAnswer =
      (if s.lineMayStep = true ∧ s.luAckPend = false ∧ s.sto = false ∧ s.sta = false then
        if s.luPhase = .rx then (.nominal s.ee.onRead.1 .ack, s.ee.onRead.2)
        else if s.luPhase = .addr ∧ s.luDatFull = true then (.nominal 0 (s.ee.onAddress s.dat).1, (s.ee.onAddress s.dat).2)
        else if s.luPhase = .tx ∧ s.luDatFull = true then (.nominal 0 (s.ee.onByte s.dat).1, (s.ee.onByte s.dat).2)
        else (noDraw, s.ee)
      else (noDraw, s.ee)) := by
  unfold State.mockAnswer
  rw [decodeLineNominal_lineWord]
  cases s.lineMayStep <;> cases s.luAckPend <;> cases s.sto <;> cases s.sta <;> cases s.luPhase <;> cases s.luDatFull <;> rfl

end Sys2Proof.Machine
end

