-- ==== Sys2Proof/Tests/Slice0.lean ====
section
/-! SUPPORT. Tests. Expected values are the vectors of 95_test_vectors (their ids are in the names: H, E, L, W, X), worked by
hand from the rules, never from this model. A state is written as there: `CTL/DAT/FLAGS/CURSOR/REMAIN/STAT/COUNT`, then the line
unit's phase, `datFull`, `ackPend`. -/

namespace Sys2Proof.Tests

open Sys2Proof.Machine

/-! ### Helpers -/

/-- The state with the given host views and line unit, target address 0x50, sub-address 0x25, one byte 0xAA at 0x0100. -/
def st (ctl dat flags : Byte) (cursor : Addr) (remain stat count : Byte) (phase : LuPhase := .idle) (datFull ackPend : Bool := false) :
    State :=
  { State.reset.setCtl ctl with
    dat := dat
    direction := flags.getLsbD 0
    sendSubAddress := flags.getLsbD 1
    repeatedStartForRead := flags.getLsbD 2
    ackPollOnAddressNack := flags.getLsbD 3
    dataCursor := cursor
    bytesRemaining := remain
    busy := stat.getLsbD 0
    sendStartNext := stat.getLsbD 1
    fsm := stat.extractLsb' 2 3
    result := stat.extractLsb' 5 3
    byteCount := count
    luPhase := phase
    luDatFull := datFull
    luAckPend := ackPend
    targetAddress := 0x50
    subAddress := 0x25
    mem := [(0x0100, 0xAA)] }

/-- What a vector shows of a state. -/
structure View where
  ctl : Byte
  dat : Byte
  flags : Byte
  cursor : Addr
  remain : Byte
  stat : Byte
  count : Byte
  phase : LuPhase := .idle
  datFull : Bool := false
  ackPend : Bool := false
  deriving DecidableEq, Repr

/-- The view of a state. -/
def view (s : State) : View :=
  ⟨s.ctlView, s.dat, s.flagsView, s.dataCursor, s.bytesRemaining, s.statView, s.byteCount, s.luPhase, s.luDatFull, s.luAckPend⟩

/-- One fact about the next state; none where there is no next state. -/
def got {α : Type} (o : Host.Outcome State Fault Refusal) (f : State → α) : Option α :=
  match o with
  | .next t => some (f t)
  | .fault _ => none
  | .refused _ => none

/-- The state just after GO (95_test_vectors 2.1, gate vectors). -/
def afterGo : State := st 0xA0 0x00 0x0A 0x0100 1 0x05 0

/-! ### WellFormed: one ill-formed term for each check -/

theorem test_wf_hrdRsv : (Instr.hrdRsv 8 0).wellFormed = false := by decide
theorem test_wf_hwrRsv : (Instr.hwrRsv 8 0).wellFormed = false := by decide
theorem test_wf_disable : (Instr.hwrCtlDisable 0x0080).wellFormed = false := by decide
theorem test_wf_enable_off : (Instr.hwrCtlEnable 0x0000).wellFormed = false := by decide
theorem test_wf_enable_go : (Instr.hwrCtlEnable 0x00A0).wellFormed = false := by decide
theorem test_wf_go_off : (Instr.hwrCtlGo 0x0020).wellFormed = false := by decide
theorem test_wf_go_enable : (Instr.hwrCtlGo 0x0080).wellFormed = false := by decide
theorem test_wf_evOther : (Instr.evOther 0b001).wellFormed = false ∧ (Instr.evOther 0b100).wellFormed = false := by decide

/-! ### Decoding: each operation's word, written out bit by bit from 30_encoding R71 to R77 -/

theorem test_decode_reads :
    decode (.host 0b000000000000000000000#21) = .op (.hrdCtl 0x0000) ∧
    decode (.host 0b000010000000000000000#21) = .op (.hrdDat 0x0000) ∧
    decode (.host 0b000100000000000000000#21) = .op (.hrdTaddr 0x0000) ∧
    decode (.host 0b000110000000000000000#21) = .op (.hrdSubaddr 0x0000) ∧
    decode (.host 0b001000000000000000000#21) = .op (.hrdFlags 0x0000) ∧
    decode (.host 0b001010000000000000000#21) = .op (.hrdCursor 0x0000) ∧
    decode (.host 0b001100000000000000000#21) = .op (.hrdRemain 0x0000) ∧
    decode (.host 0b001110000000000000000#21) = .op (.hrdStat 0x0000) ∧
    decode (.host 0b010000000000000000000#21) = .op (.hrdCount 0x0000) ∧
    decode (.host 0b010010000000000000000#21) = .op (.hrdRsv 9 0x0000) ∧
    decode (.host 0b011110000000000000001#21) = .op (.hrdRsv 15 0x0001) := by decide

theorem test_decode_writes :
    decode (.host 0b100000000000000100000#21) = .op (.hwrCtlDisable 0x0020) ∧
    decode (.host 0b100000000000010011111#21) = .op (.hwrCtlEnable 0x009F) ∧
    decode (.host 0b100000000000010100000#21) = .op (.hwrCtlGo 0x00A0) ∧
    decode (.host 0b100010000000001010101#21) = .op (.hwrDat 0x0055) ∧
    decode (.host 0b100100000000010100001#21) = .op (.hwrTaddr 0x00A1) ∧
    decode (.host 0b100110001001000100101#21) = .op (.hwrSubaddr 0x1225) ∧
    decode (.host 0b101000000000011111110#21) = .op (.hwrFlags 0x00FE) ∧
    decode (.host 0b101011111111111111111#21) = .op (.hwrCursor 0xFFFF) ∧
    decode (.host 0b101100000000100000000#21) = .op (.hwrRemain 0x0100) ∧
    decode (.host 0b101110000000011111111#21) = .op (.hwrStat 0x00FF) ∧
    decode (.host 0b110000000000011111111#21) = .op (.hwrCount 0x00FF) ∧
    decode (.host 0b110010001001000110100#21) = .op (.hwrRsv 9 0x1234) ∧
    decode (.host 0b111110000000000000000#21) = .op (.hwrRsv 15 0x0000) := by decide

theorem test_decode_memory :
    decode (.hmem 0b0000000010000000100000000#25) = .op (.mrd 0x0101 0x00) ∧
    decode (.hmem 0b1000000010000000010101010#25) = .op (.mwr 0x0100 0xAA) := by decide

theorem test_decode_events :
    decode (.status 0b11100001#8) = .op .evStart ∧
    decode (.status 0b11000010#8) = .op .evTxAck ∧
    decode (.status 0b11000011#8) = .op .evTxNack ∧
    decode (.status 0b11001100#8) = .op .evRx ∧
    decode (.status 0b11000000#8) = .op (.evOther 0b000) ∧
    decode (.status 0b11000101#8) = .op (.evOther 0b101) ∧
    decode (.status 0b11000110#8) = .op (.evOther 0b110) ∧
    decode (.status 0b11000111#8) = .op (.evOther 0b111) ∧
    decode (.status 0b10000001#8) = .none .engineNotEnabled ∧
    decode (.status 0b01000010#8) = .none .engineNotEnabled := by decide

theorem test_decode_line :
    decode (.line 0b10110110#8 noDraw) = .op .luAck ∧
    decode (.line 0b10011100#8 noDraw) = .op .luStop ∧
    decode (.line 0b10001000#8 noDraw) = .op .luStart ∧
    decode (.line 0b10000110#8 (.nominal 0xAA .ack)) = .op (.luRxbyte 0xAA) ∧
    decode (.line 0b10000011#8 (.nominal 0 .nack)) = .op (.luTxbyte .addressByte .nack) ∧
    decode (.line 0b10000101#8 (.nominal 0 .ack)) = .op (.luTxbyte .otherByte .ack) ∧
    decode (.line 0b10000011#8 (.fault .arbLost)) = .op (.luFault .arbLost) ∧
    decode (.line 0b10000100#8 noDraw) = .none .lineNoOperation ∧
    decode (.line 0b11000101#8 (.fault .busError)) = .none .lineNoOperation := by decide

theorem test_decode_tick_reset :
    decode (.timer 0b00#2) = .op .wdtTickIdle ∧
    decode (.timer 0b01#2) = .op .wdtTickIdle ∧
    decode (.timer 0b10#2) = .op .wdtTickCount ∧
    decode (.timer 0b11#2) = .op .wdtTickAbort ∧
    decode (.reset 0b1#1) = .op .reset ∧
    decode (.reset 0b0#1) = .none .resetInputLow := by decide

/-! ### Host operations (95_test_vectors 2.1) -/

theorem test_H1_enable : got (exec (.hwrCtlEnable 0x80) State.reset) view = some ⟨0x80, 0, 0, 0, 0, 0, 0, .idle, false, false⟩ := by decide
theorem test_H3_disable : got (exec (.hwrCtlDisable 0x20) (st 0x80 0 0 0 0 0 0)) view = some ⟨0x00, 0, 0, 0, 0, 0, 0, .idle, false, false⟩ := by
  decide
theorem test_H12_go : got (exec (.hwrCtlGo 0xA0) State.reset) view = some ⟨0xA0, 0, 0, 0, 0, 0x05, 0, .idle, false, false⟩ := by decide
theorem test_H4_taddr : got (exec (.hwrTaddr 0xA1) State.reset) (fun t => (t.targetAddress, t.taddrView)) = some (0x50, 0xA0) := by decide
theorem test_H4_read : got (exec (.hrdTaddr 0) (st 0 0 0 0 0 0 0)) (·.regRdata) = some 0x00A0 := by decide
theorem test_H5_subaddr : got (exec (.hwrSubaddr 0x1225) State.reset) (·.subAddress) = some 0x25 := by decide
theorem test_H5_read : got (exec (.hrdSubaddr 0) (st 0 0 0 0 0 0 0)) (·.regRdata) = some 0x0025 := by decide
theorem test_H6_flags : got (exec (.hwrFlags 0xFE) State.reset) (·.flagsView) = some 0x0E := by decide
theorem test_H6_read : got (exec (.hrdFlags 0) (st 0 0 0x0E 0 0 0 0)) (·.regRdata) = some 0x000E := by decide
theorem test_H7_cursor : got (exec (.hwrCursor 0xFFFF) State.reset) (·.dataCursor) = some 0xFFFF := by decide
theorem test_H7_read : got (exec (.hrdCursor 0) (st 0 0 0 0xFFFF 0 0 0)) (·.regRdata) = some 0xFFFF := by decide
theorem test_H8_remain : got (exec (.hwrRemain 0x0100) (st 0 0 0 0 7 0 0)) (·.bytesRemaining) = some 0x00 := by decide
theorem test_R122_read : got (exec (.hrdRemain 0) (st 0 0 0 0 0xFE 0 0)) (·.regRdata) = some 0x00FE := by decide
theorem test_H9_dat : got (exec (.hwrDat 0x55) State.reset) view = some ⟨0, 0, 0, 0, 0, 0, 0, .idle, false, false⟩ := by decide
theorem test_R117_read : got (exec (.hrdDat 0) (st 0x84 0xAA 0 0 0 0 0)) (·.regRdata) = some 0x00AA := by decide
theorem test_H10_stat : got (exec (.hwrStat 0xFF) State.reset) view = some ⟨0, 0, 0, 0, 0, 0, 0, .idle, false, false⟩ := by decide
theorem test_H10_count : got (exec (.hwrCount 0xFF) State.reset) view = some ⟨0, 0, 0, 0, 0, 0, 0, .idle, false, false⟩ := by decide
theorem test_H11_rsv : got (exec (.hwrRsv 9 0x1234) State.reset) view = some ⟨0, 0, 0, 0, 0, 0, 0, .idle, false, false⟩ := by decide
theorem test_H11_read : got (exec (.hrdRsv 15 0) { State.reset with regRdata := 0x1234 }) (·.regRdata) = some 0x0000 := by decide
theorem test_H13_gate : got (exec (.hwrSubaddr 0x99) afterGo) (·.subAddress) = some 0x25 := by decide
theorem test_H16_stat : got (exec (.hrdStat 0) afterGo) (fun t => (t.regRdata, view t)) = some (0x0005, view afterGo) := by decide
theorem test_R123_stat : got (exec (.hrdStat 0) (st 0x80 0xA0 0x02 0x0100 1 0x58 0)) (·.regRdata) = some 0x0058 := by decide
theorem test_R116_ctl : got (exec (.hrdCtl 0) (st 0xE1 0 0x0A 0x0100 1 0x05 0)) (·.regRdata) = some 0x00E1 := by decide
theorem test_R124_count : got (exec (.hrdCount 0) (st 0x84 0x33 0x0D 0x0203 0 0x20 3)) (·.regRdata) = some 0x0003 := by decide
theorem test_H17_mwr : got (exec (.mwr 0x0100 0x77) afterGo) (fun t => (t.memRead 0x0100, view t)) = some (0x77, view afterGo) := by decide
theorem test_R114_mrd : got (exec (.mrd 0x0100 0) afterGo) (·.memRdata) = some 0xAA := by decide
theorem test_H18_disable : got (exec (.hwrCtlDisable 0x00) (st 0x92 0xAA 0x08 0x0101 0 0x20 1 .tx)) (fun t => (view t, t.trace)) =
    some (⟨0x00, 0xAA, 0x08, 0x0101, 0, 0x20, 1, .idle, false, false⟩, [.released]) := by decide
theorem test_H19_go : got (exec (.hwrCtlGo 0xA0) (st 0x92 0xAA 0x0A 0x0100 1 0x20 1 .tx)) view =
    some ⟨0xB2, 0xAA, 0x0A, 0x0100, 1, 0x05, 1, .tx, false, false⟩ := by decide

/-! ### Engine events (95_test_vectors 2.2) -/

theorem test_E1 : got (exec .evStart (st 0xE1 0 0x0A 0x0100 1 0x05 0 .addr)) view =
    some ⟨0x81, 0xA0, 0x0A, 0x0100, 1, 0x05, 0, .addr, true, false⟩ := by decide
theorem test_E3 : got (exec .evStart (st 0xE1 0x25 0x0D 0x0101 1 0x0D 0 .addr)) view =
    some ⟨0x81, 0xA1, 0x0D, 0x0101, 1, 0x0D, 0, .addr, true, false⟩ := by decide
theorem test_E6 : got (exec .evTxAck (st 0xC2 0xA0 0x0E 0x0101 1 0x05 0 .tx)) view =
    some ⟨0x82, 0x25, 0x0C, 0x0101, 1, 0x0B, 0, .tx, true, false⟩ := by decide
theorem test_E12 : got (exec .evTxAck { st 0xC2 0x01 0x08 0xFFFF 1 0x11 1 .tx with mem := [(0xFFFF, 0x02)] }) view =
    some ⟨0x82, 0x02, 0x08, 0x0000, 0, 0x11, 2, .tx, true, false⟩ := by decide
theorem test_E14 : got (exec .evTxNack (st 0xC3 0xA0 0x0A 0x0100 1 0x05 0 .tx)) view =
    some ⟨0xA3, 0xA0, 0x0A, 0x0100, 1, 0x05, 0, .tx, false, false⟩ := by decide
theorem test_E16 : got (exec .evTxNack (st 0xC3 0xAA 0x00 0x0101 0 0x11 1 .tx)) (fun t => (view t, t.trace)) =
    some (⟨0x80, 0xAA, 0x00, 0x0101, 0, 0x58, 1, .idle, false, false⟩, [.released]) := by decide
theorem test_E18 : got (exec .evRx (st 0xC4 0x11 0x0D 0x0200 3 0x15 0 .rx false true)) (fun t => (view t, t.memRead 0x0200)) =
    some (⟨0x8C, 0x11, 0x0D, 0x0201, 2, 0x15, 1, .rx, false, true⟩, 0x11) := by decide
theorem test_E19 : got (exec .evRx (st 0xCC 0x33 0x0D 0x0202 1 0x15 2 .rx false true)) (fun t => (view t, t.memRead 0x0202)) =
    some (⟨0x94, 0x33, 0x0D, 0x0203, 0, 0x20, 3, .rx, false, true⟩, 0x33) := by decide
theorem test_E21 : got (exec (.evOther 0b101) (st 0xC5 0xA0 0x0A 0x0100 1 0x05 0)) view =
    some ⟨0x80, 0xA0, 0x0A, 0x0100, 1, 0x78, 0, .idle, false, false⟩ := by decide

/-! ### Line unit (95_test_vectors 2.3) -/

theorem test_L1 : got (exec .luStart (st 0xA0 0 0x0A 0x0100 1 0x05 0)) (fun t => (t.ctlView, t.luPhase, t.trace)) =
    some (0xE1, .addr, [.start]) := by decide
theorem test_L2 : got (exec .luStart (st 0xA2 0x25 0x0D 0x0101 1 0x0D 0 .tx)) (fun t => (t.ctlView, t.luPhase, t.trace)) =
    some (0xE1, .addr, [.repeatedStart]) := by decide
theorem test_L4 : got (exec (.luTxbyte .addressByte .nack) (st 0x81 0xA0 0x0A 0x0100 1 0x05 0 .addr true))
    (fun t => (t.ctlView, t.luPhase, t.luDatFull, t.trace)) = some (0xC3, .tx, false, [.tx 0xA0 .nack]) := by decide
theorem test_L5 : got (exec (.luTxbyte .addressByte .ack) (st 0x81 0xA1 0x0D 0x0100 1 0x0D 0 .addr true))
    (fun t => (t.ctlView, t.luPhase, t.luDatFull, t.trace)) = some (0xC2, .rx, false, [.tx 0xA1 .ack]) := by decide
theorem test_L7 : got (exec (.luTxbyte .otherByte .ack) (st 0x82 0x25 0x08 0x0100 1 0x09 0 .tx true))
    (fun t => (t.ctlView, t.luPhase, t.trace)) = some (0xC2, .tx, [.tx 0x25 .ack]) := by decide
theorem test_L8 : got (exec (.luRxbyte 0xAA) (st 0x82 0xA1 0x0D 0x0101 1 0x15 0 .rx))
    (fun t => (t.ctlView, t.dat, t.luAckPend, t.trace)) = some (0xC4, 0xAA, true, [.rx 0xAA]) := by decide
theorem test_L9 : got (exec .luAck (st 0x8C 0x11 0x0D 0x0201 2 0x15 1 .rx false true)) (fun t => (t.ctlView, t.luAckPend, t.trace)) =
    some (0x8C, false, [.masterAck]) := by decide
theorem test_L10 : got (exec .luAck (st 0x94 0x33 0x0D 0x0203 0 0x20 3 .rx false true)) (fun t => (t.ctlView, t.luAckPend, t.trace)) =
    some (0x94, false, [.masterNack]) := by decide
theorem test_L12 : got (exec .luStop (st 0xB2 0xAA 0x0A 0x0100 1 0x05 1 .tx)) (fun t => (t.ctlView, t.luPhase, t.trace)) =
    some (0xA2, .idle, [.stop]) := by decide
theorem test_L16 : got (exec (.luFault .arbLost) (st 0x81 0xA0 0x0A 0x0100 1 0x05 0 .addr true)) view =
    some ⟨0xC5, 0xA0, 0x0A, 0x0100, 1, 0x05, 0, .addr, true, false⟩ := by decide
theorem test_L13_hang : decode (.line (st 0x82 0x25 0x08 0x0100 1 0x15 0 .tx).lineWord noDraw) = .none .lineNoOperation := by decide

/-! ### Watchdog and reset (95_test_vectors 2.4, 2.5); `WDT_PERIOD_TICKS` = 4 -/

theorem test_W1 : got (exec .wdtTickIdle (st 0x80 0 0 0 0 0 0)) (fun t => (view t, t.wdtCount)) =
    some (⟨0x80, 0, 0, 0, 0, 0, 0, .idle, false, false⟩, 0) := by decide
theorem test_W3 : (st 0x81 0xA0 0x0A 0x0100 1 0x05 0 .addr true).timerWord = 0b10#2 ∧
    got (exec .wdtTickCount { st 0x81 0xA0 0x0A 0x0100 1 0x05 0 .addr true with wdtCount := 2 }) (·.wdtCount) = some 3 := by decide
theorem test_W4 : { st 0x81 0xA0 0x0A 0x0100 1 0x05 0 .addr true with wdtCount := 3 }.timerWord = 0b11#2 ∧
    got (exec .wdtTickAbort { st 0x81 0xA0 0x0A 0x0100 1 0x05 0 .addr true with wdtCount := 3, trace := [.start] })
      (fun t => (view t, t.wdtCount, t.trace)) =
    some (⟨0x80, 0xA0, 0x0A, 0x0100, 1, 0x98, 0, .idle, false, false⟩, 0, [.start, .released]) := by decide
theorem test_X1 : got (exec .reset { st 0xC2 0x25 0x0C 0x0101 1 0x0B 0 .tx with wdtCount := 2 })
    (fun t => (view t, t.wdtCount, t.memRead 0x0100)) = some (⟨0, 0, 0, 0, 0, 0, 0, .idle, false, false⟩, 0, 0xAA) := by decide

/-! ### One step: placing a table word and running it -/

theorem test_table_host : decodeTableWord 24 0x1000A0 = some (.hwrCtlGo 0xA0) ∧
    got (step (State.reset.withFetchWord 24 0x1000A0)) (·.statView) = some 0x05 := by decide
theorem test_table_hmem : decodeTableWord 32 0x10100AA = some (.mwr 0x0100 0xAA) ∧
    got (step (State.reset.withFetchWord 32 0x10100AA)) (·.memRead 0x0100) = some 0xAA := by decide
theorem test_table_status : decodeTableWord 8 0xC1 = some .evStart ∧
    got (step (State.reset.withFetchWord 8 0xC1)) (·.ctlView) = some 0x81 := by decide
theorem test_table_line : decodeTableWord 8 0x88 = some .luStart ∧
    got (step (State.reset.withFetchWord 8 0x88)) (fun t => (t.luPhase, t.trace)) = some (.addr, [.start]) := by decide
theorem test_table_fault : decodeTableWord 8 0x80 = some (.luFault .arbLost) ∧
    got (step (State.reset.withFetchWord 8 0x80)) (·.ctlView) = some 0xC5 := by decide
theorem test_table_timer : decodeTableWord 8 3 = some .wdtTickAbort ∧
    got (step (State.reset.withFetchWord 8 3)) (·.statView) = some 0x98 := by decide
theorem test_table_reset : decodeTableWord 8 1 = some .reset ∧ decodeTableWord 1 1 = some .reset ∧
    decodeTableWord 8 0 = some .wdtTickIdle ∧ decodeTableWord 8 2 = some .wdtTickCount := by decide
theorem test_table_refused : decodeTableWord 24 0x200000 = none ∧ decodeTableWord 8 0x40 = none ∧ decodeTableWord 7 0 = none := by decide

/-! ### Witnesses: a concrete state and operands that meet the hypotheses of each statement, clause by clause -/

/-- A running read with a received byte pending: `remain` bytes wanted. -/
def receiving (remain : Byte) : State := st 0xCC 0x33 0x0D 0x0202 remain 0x15 2 .rx false true

/-- The state just after GO with the host about to write `SUBADDR`. -/
def writing : State := { afterGo with hostProg := [.reg 0x130099], inputs := [.host] }

/-- The state just after GO with the line unit's turn next. -/
def lining : State := { afterGo with inputs := [.line (.drawn 0 .ack)] }

/-- A pending acknowledge and the aborting tick (95_test_vectors W5), under an event order. -/
def racing (o : EventOrder) : State :=
  { st 0xC2 0xA0 0x0A 0x0100 1 0x05 0 .tx with
    wdtCount := 3
    cfg := { Config.initial with eventOrder := o }
    inputs := [.tick] }

/-- 95_test_vectors T4: the hang, with the aborting tick next. -/
def hanging : State :=
  { st 0x82 0x25 0x09 0x0100 1 0x15 0 .tx with
    wdtCount := 3
    cfg := { Config.initial with luMode := .nominal }
    inputs := [.tick] }

/-- A line unit about to step with the mock target answering. -/
def mocking (ctl dat : Byte) (phase : LuPhase) (full : Bool) : State :=
  { st ctl dat 0x08 0x0100 1 0x05 0 phase full with inputs := [.line .mock] }

theorem test_witness_HostReadsReturnTheirView : (9#4 : BitVec 4) ≤ 9#4 ∧ (9#4 : BitVec 4) ≤ 15#4 := by decide
theorem test_witness_ReadOnlyWritesAreIgnored : (9#4 : BitVec 4) ≤ 9#4 ∧ (9#4 : BitVec 4) ≤ 15#4 := by decide
theorem test_witness_HostWritesDropWhileBusy :
    (isHostWrite (.hwrCtlGo 0xA0) = true ∧ afterGo.busy = true) ∧ isHostRead (.hrdStat 0) = true ∧
    ((fetch writing).1 = .word (.host 0x130099) ∧ decode (.host 0x130099) = .op (.hwrSubaddr 0x99) ∧
      isHostWrite (.hwrSubaddr 0x99) = true ∧ (fetch writing).2.busy = true) := by decide
theorem test_witness_CtlDisableResetsTheController : (0xFF7F : Word16).getLsbD 7 = false := by decide
theorem test_witness_CtlEnableSetsEnOnly : (0x0080 : Word16).getLsbD 7 = true ∧ (0x0080 : Word16).getLsbD 5 = false := by decide
theorem test_witness_CtlGoStartsATransfer : (0x00A0 : Word16).getLsbD 7 = true ∧ (0x00A0 : Word16).getLsbD 5 = true := by decide
theorem test_witness_MemoryWriteSetsOneByte : (0x0000 : Addr) ≠ 0xFFFF := by decide
theorem test_witness_EvStartLoadsTheAddressByte : (0xE1#8 : BitVec 8) &&& 0xC7#8 = 0xC1#8 := by decide
theorem test_witness_EvTxAckTakesItsBranch : (0xC2#8 : BitVec 8) &&& 0xC7#8 = 0xC2#8 := by decide
theorem test_witness_EvTxNackRetriesOrFails : (0xFB#8 : BitVec 8) &&& 0xC7#8 = 0xC3#8 := by decide
theorem test_witness_EvRxStoresAndEnds :
    (0xCC#8 : BitVec 8) &&& 0xC7#8 = 0xC4#8 ∧ (receiving 0).bytesRemaining = 0 ∧ (receiving 1).bytesRemaining ≠ 0 ∧
    (receiving 255).bytesRemaining ≠ 0 ∧ (0x0203 : Addr) ≠ (receiving 1).dataCursor := by decide
theorem test_witness_EvOtherFailsWithBusError :
    (0xC0#8 : BitVec 8) &&& 0xC7#8 = 0xC0#8 ∧ (0xFD#8 : BitVec 8) &&& 0xC7#8 = 0xC5#8 ∧ (0xC6#8 : BitVec 8) &&& 0xC7#8 = 0xC6#8 ∧
    (0xC7#8 : BitVec 8) &&& 0xC7#8 = 0xC7#8 := by decide
theorem test_witness_EngineIsTotalWhereEnabled :
    ((receiving 1).en = true ∧ (receiving 1).si = true) ∧ isEvent .evRx = true ∧ afterGo.si = false ∧ State.reset.en = false := by
  decide
theorem test_witness_EngineIsTotal_unique : (receiving 1).enables .evRx := by exact ⟨rfl, rfl⟩
theorem test_witness_SequencerRunsTheRandomRead :
    (st 0xE1 0 0x0E 0x0101 1 0x05 0 .addr).sendSubAddress = true ∧
    (st 0xE1 0 0x0E 0x0101 1 0x05 0 .addr).repeatedStartForRead = true ∧
    (st 0xE1 0 0x0E 0x0101 1 0x05 0 .addr).sendStartNext = false ∧ (st 0xE1 0 0x0E 0x0101 1 0x05 0 .addr).sto = false := by decide
theorem test_witness_Sequencer_between (s : State) (h : s.sto = false) :
    s.betweenEvents s ∧ s.betweenEvents { s with si := true, status := 2, luDatFull := false, luPhase := .tx, sto := false } :=
  ⟨⟨rfl, id⟩, by rw [← h]; exact ⟨rfl, id⟩⟩
theorem test_witness_FsmFollowsTheTransitionTable : ∃ t, exec .evRx (receiving 1) = .next t := ⟨_, rfl⟩
theorem test_witness_LineAckStopStart :
    (0xBE#8 : BitVec 8) &&& 0xE0#8 = 0xA0#8 ∧ (0x9C#8 : BitVec 8) &&& 0xF0#8 = 0x90#8 ∧
    (0x8C#8 : BitVec 8) &&& 0xF8#8 = 0x88#8 := by decide
theorem test_witness_LineBytesAndFaults : (0x87#8 : BitVec 8) &&& 0xFE#8 = 0x86#8 ∧ (0x83#8 : BitVec 8) &&& 0xC0#8 = 0x80#8 := by
  decide
theorem test_witness_LuModeSelectsTheEnvironment :
    lining.inputs = [.line (.drawn 0 .ack)] ∧
    ({ afterGo with inputs := [.line .mock] } : State).inputs = [.line .mock] ∧
    ({ afterGo with inputs := [.lineFault .arbLost] } : State).inputs = [.lineFault .arbLost] ∧
    ({ afterGo with inputs := [.lineFree 0 none false] } : State).inputs = [.lineFree 0 none false] := by decide
theorem test_witness_UnconstrainedLineUnitStep :
    ({ afterGo with cfg := { Config.initial with luMode := .unconstrained }, inputs := [.lineFree 7 (some 1) true] } : State).inputs =
      [.lineFree 7 (some 1) true] ∧ afterGo.en = true ∧ afterGo.si = false := by decide
theorem test_witness_MockTargetAnswers :
    ({ Target.fresh with first := true } : Target).first = true ∧ Target.fresh.first = false ∧ Target.fresh.wf = true := by decide
/-- 42_line_unit R159: an acknowledged write address, and a byte read, through the line unit. -/
theorem test_witness_MockTarget_step :
    (mocking 0x81 0xA0 .addr true).inputs = [.line .mock] ∧ (mocking 0x81 0xA0 .addr true).cfg.luMode ≠ .unconstrained ∧
    got (step (mocking 0x81 0xA0 .addr true)) (fun t => (t.trace, t.ee.first)) = some ([.tx 0xA0 .ack], true) ∧
    got (step (mocking 0x82 0x25 .tx true)) (fun t => (t.trace, t.ee)) =
      some ([.tx 0x25 .ack], { Target.fresh with mem := [(0, 0x25)], ptr := 1 }) ∧
    got (step (mocking 0x82 0xA1 .rx false)) (fun t => (t.dat, t.ee.ptr)) = some (0xFF, 1) ∧
    got (step (mocking 0xA2 0x00 .tx false)) (fun t => (t.trace, t.ee)) = some ([.repeatedStart], Target.fresh) := by decide
theorem test_witness_TickCountsOrAborts :
    (State.reset.wdtCount < State.reset.cfg.wdtPeriodTicks ∧ State.reset.busy = false) ∧
    (afterGo.busy = true ∧ afterGo.wdtCount + 1 < afterGo.cfg.wdtPeriodTicks) ∧
    ({ afterGo with wdtCount := 2 } : State).wdtCount + 1 < afterGo.cfg.wdtPeriodTicks ∧
    (({ afterGo with wdtCount := 3 } : State).wdtCount < afterGo.cfg.wdtPeriodTicks ∧
      ¬ ({ afterGo with wdtCount := 3 } : State).wdtCount + 1 < afterGo.cfg.wdtPeriodTicks) := by decide
theorem test_witness_LineRowsAreDisjoint :
    (0xB6#8 : BitVec 8) &&& 0xE0#8 = 0xA0#8 ∧ (0x9E#8 : BitVec 8) &&& 0xF0#8 = 0x90#8 ∧ (0x8F#8 : BitVec 8) &&& 0xF8#8 = 0x88#8 ∧
    (0x87#8 : BitVec 8) &&& 0xFE#8 = 0x86#8 ∧ (0x83#8 : BitVec 8) &&& 0xFF#8 = 0x83#8 ∧ (0x85#8 : BitVec 8) &&& 0xFF#8 = 0x85#8 := by
  decide
theorem test_witness_DecodeOfEncodeIsTheOperation :
    (Instr.hrdRsv 9 0xFFFF).wellFormed = true ∧ (Instr.hwrRsv 15 0).wellFormed = true ∧ (Instr.hwrCtlGo 0xFFFF).wellFormed = true ∧
    (Instr.hwrCtlEnable 0x80).wellFormed = true ∧ (Instr.hwrCtlDisable 0).wellFormed = true ∧ (Instr.evOther 7).wellFormed = true := by
  decide
theorem test_witness_DecodedOperationsAreWellFormed : decode (.status 0xC5) = .op (.evOther 0b101) := by decide
theorem test_witness_StepRunsTheDecodedOperation :
    (fetch writing = (.word (.host 0x130099), afterGo) ∧ decode (.host 0x130099) = .op (.hwrSubaddr 0x99)) ∧
    (fetch { afterGo with inputs := [.engine] } = (.word (.status 0xA0), afterGo) ∧
      decode (.status 0xA0) = .none .engineNotEnabled) ∧
    fetch State.reset = (.pass, State.reset) := by decide
theorem test_witness_TurnsPresentTheirWord :
    State.reset.inputs = [] ∧ writing.inputs = .host :: [] ∧ writing.hostProg = .reg 0x130099 :: [] ∧
    ({ writing with hostProg := [.mem 0] } : State).hostProg = .mem 0 :: [] ∧ ({ writing with hostProg := [] } : State).hostProg = [] ∧
    ({ writing with hostProg := [.wait] } : State).hostProg = .wait :: [] ∧
    ({ afterGo with inputs := [.engine] } : State).inputs = .engine :: [] ∧ (racing .engineFirst).inputs = .tick :: [] ∧
    ({ afterGo with inputs := [.reset 1] } : State).inputs = .reset 1 :: [] := by decide
theorem test_witness_WaitRepeatsReadingStat :
    ({ writing with hostProg := [.wait] } : State).inputs = .host :: [] ∧ ({ writing with hostProg := [.wait] } : State).hostProg = .wait :: [] := by
  decide
theorem test_witness_EventOrderDecidesTheRace (o : EventOrder) :
    (racing o).inputs = .tick :: [] ∧ (racing o).en = true ∧ (racing o).si = true ∧ (racing o).busy = true ∧
    (racing o).wdtCount + 1 = (racing o).cfg.wdtPeriodTicks ∧ (racing .engineFirst).cfg.eventOrder = .engineFirst ∧
    (racing .either).cfg.eventOrder ≠ .engineFirst ∧ (racing .wdtFirst).cfg.eventOrder ≠ .engineFirst := by
  cases o <;> decide
/-- 60_exceptions R199, the engine having the turn before the tick: `wdt_first` lets no event step happen and the status is lost. -/
theorem test_witness_EventOrder_engineTurn :
    ({ racing .wdtFirst with inputs := [.engine, .tick] } : State).cfg.eventOrder = .wdtFirst ∧
    (step { racing .wdtFirst with inputs := [.engine, .tick] } = .next (racing .wdtFirst)) ∧
    got (step (racing .wdtFirst)) (fun t => (t.statView, t.si)) = some (0x98, false) ∧
    got (step { racing .either with inputs := [.engine, .tick] }) (·.statView) = some 0x09 :=
  ⟨rfl, rfl, by decide, by decide⟩
theorem test_witness_StepsAreEnabled : ∃ t, step writing = .next t := ⟨_, rfl⟩
theorem test_witness_BusyChangesOnlyByNamedSteps :
    (State.reset.busy = false ∧ got (exec (.hwrCtlGo 0xA0) State.reset) (·.busy) = some true) ∧
    ((receiving 1).busy = true ∧ got (exec .evRx (receiving 1)) (·.busy) = some false) := by decide
theorem test_witness_RequestBitsHaveTheirWriters :
    (State.reset.sta = false ∧ got (exec (.hwrCtlGo 0xA0) State.reset) (·.sta) = some true) ∧
    ((st 0xE1 0 0x0A 0x0100 1 0x05 0 .addr).sta = true ∧
      got (exec .evStart (st 0xE1 0 0x0A 0x0100 1 0x05 0 .addr)) (·.sta) = some false) ∧
    ((receiving 1).sto = false ∧ got (exec .evRx (receiving 1)) (·.sto) = some true) ∧
    ((st 0x92 0 0 0 0 0x20 0 .tx).sto = true ∧ got (exec .luStop (st 0x92 0 0 0 0 0x20 0 .tx)) (·.sto) = some false) ∧
    ((st 0xC4 0 0x0D 0 2 0x15 0 .rx false true).ackrq = false ∧
      got (exec .evRx (st 0xC4 0 0x0D 0 2 0x15 0 .rx false true)) (·.ackrq) = some true) ∧
    ((receiving 1).ackrq = true ∧ got (exec .evRx (receiving 1)) (·.ackrq) = some false) ∧
    (isEvent .evRx = true ∧ (receiving 1).sta = false ∧ (receiving 1).sto = false) := by decide
theorem test_witness_DataPhaseMovesOneByteAtATime :
    (∃ t, exec .evRx (receiving 1) = .next t) ∧ (∀ w, Instr.evRx ≠ .hwrRemain w) ∧ (∀ w, Instr.evRx ≠ .hwrCursor w) ∧
    Instr.evRx ≠ .reset := ⟨⟨_, rfl⟩, by simp, by simp, by simp⟩
theorem test_witness_EngineOwnsTheStateWhileBusy :
    (isHostWrite (.mwr 0 0) || isHostRead (.mwr 0 0) || isHostMem (.mwr 0 0)) = true ∧ afterGo.busy = true ∧
    ∃ t, exec (.mwr 0 0) afterGo = .next t := ⟨rfl, rfl, _, rfl⟩
theorem test_witness_MemoryFrameOfEveryOperation :
    (∃ t, exec .evRx (receiving 1) = .next t) ∧ (∃ t, exec (.mwr 0 0) afterGo = .next t) := ⟨⟨_, rfl⟩, _, rfl⟩
theorem test_witness_ParametersNeverChange : ∃ t, step writing = .next t := ⟨_, rfl⟩
theorem test_witness_StrictStepRefusesCallerErrors :
    ((fetch writing).1 = .word (.host 0x130099) ∧ decode (.host 0x130099) = .op (.hwrSubaddr 0x99) ∧
      callerError (.hwrSubaddr 0x99) (fetch writing).2 = some .writeWhileBusy) ∧
    (fetch lining).1 = .word (.line 0x88 (.nominal 0 .ack)) ∧ callerError .luStart (fetch lining).2 = none ∧
    (isHostWrite (.hwrTaddr 0) = true ∧ State.reset.busy = false ∧ isHostWrite .evRx = false ∧ isHostMem .evRx = false) := by decide
/-- A GO about to be issued, with a buffer of two bytes that wraps. -/
def going : State :=
  { State.reset with dataCursor := 0xFFFF, bytesRemaining := 2, hostProg := [.reg 0x1000A0, .wait], inputs := [.host, .host] }
/-- Between the completion of that transfer and the read of `busy` as 0 (70_reset_and_hazards R225). -/
def completed : State := { State.reset with windows := [⟨0xFFFF, 2⟩], hostProg := [.wait], inputs := [.host] }
theorem test_witness_StrictStep_windows :
    got (step going) (·.windows) = some [⟨0xFFFF, 2⟩] ∧ going.inputs = [.host, .host] ∧ going.hostProg = [.reg 0x1000A0, .wait] ∧
    callerError (.mrd 0xFFFF 0) completed = some .bufferOfRunningTransfer ∧
    callerError (.mwr 0x0000 0) completed = some .bufferOfRunningTransfer ∧ callerError (.mrd 0x0001 0) completed = none ∧
    callerError (.mrd 0xFFFE 0) completed = none ∧ got (step completed) (·.windows) = some [] := by decide
theorem test_witness_StrictStep_operations :
    callerError (.hwrCtlGo 0xA0) { State.reset with sendSubAddress := true, direction := true } = some .hangingFlags ∧
    callerError (.hwrCtlGo 0xA0) { State.reset with sendSubAddress := true } = none ∧
    callerError (.hwrRemain 0x0100) State.reset = some .lengthAbove255 ∧ callerError (.hwrRemain 0x00FF) State.reset = none := by
  decide
theorem test_witness_HangEndsOnlyByTheWatchdogOrReset :
    ((st 0xC2 0x25 0x09 0x0100 1 0x09 0 .tx).sendStartNext = false ∧ (st 0xC2 0x25 0x09 0x0100 1 0x09 0 .tx).sendSubAddress = false ∧
      (st 0xC2 0x25 0x09 0x0100 1 0x09 0 .tx).direction = true ∧ (st 0xC2 0x25 0x09 0x0100 1 0x09 0 .tx).busy = true ∧
      (st 0xC2 0x25 0x09 0x0100 1 0x09 0 .tx).en = true ∧ (st 0xC2 0x25 0x09 0x0100 1 0x09 0 .tx).sto = false ∧
      (st 0xC2 0x25 0x09 0x0100 1 0x09 0 .tx).sta = false) ∧
    hanging.cfg.luMode = .nominal ∧ got (step hanging) (·.statView) = some 0x98 := by decide
theorem test_witness_Hang_hung : hanging.hung := by refine ⟨?_, ?_, ?_, ?_, ?_, ?_, ?_, ?_⟩ <;> decide
theorem test_witness_ControlInvariantIsKept : lining.ControlOk ∧ ∃ t, step lining = .next t := by
  refine ⟨?_, _, rfl⟩
  constructor <;> decide
theorem test_witness_NominalInvariantIsKept :
    lining.cfg.luMode ≠ .unconstrained ∧ lining.NominalOk ∧ ∃ t, step lining = .next t := by
  have h : lining.ControlOk := by constructor <;> decide
  refine ⟨by decide, ?_, _, rfl⟩
  constructor
  · exact h
  · unfold State.IdleQuiet; decide
  all_goals decide
theorem test_witness_WireGrammarIsKept : lining.WireOk := ⟨.idle, rfl, rfl⟩
theorem test_witness_CanonicalMemoryIsKept : Memory.wf lining.mem = true ∧ lining.ee.wf = true ∧ ∃ t, step lining = .next t :=
  ⟨rfl, rfl, _, rfl⟩
theorem test_witness_ShadowsDoNotSteer :
    eqUpToShadows lining { lining with fsm := 6, result := 4, byteCount := 9, trace := [.stop], regRdata := 1 } ∧
    (∃ t, step lining = .next t) ∧
    ∃ t, step { lining with fsm := 6, result := 4, byteCount := 9, trace := [.stop], regRdata := 1 } = .next t :=
  ⟨rfl, ⟨_, rfl⟩, _, rfl⟩
theorem test_witness_WatchdogBoundsEveryTransfer :
    ({ afterGo with inputs := [.tick, .engine, .tick, .tick, .tick] } : State).wdtCount < afterGo.cfg.wdtPeriodTicks ∧
    afterGo.cfg.wdtPeriodTicks ≤ ({ afterGo with inputs := [.tick, .engine, .tick, .tick, .tick] } : State).wdtCount +
      ({ afterGo with inputs := [.tick, .engine, .tick, .tick, .tick] } : State).ticksDue := by decide
theorem test_witness_MacrosAlwaysPollAcks :
    HostCmd.reg 0x14000A ∈ apiWriteByte 0xA0 0x25 0xAA 0x0100 ∧ decode (.host 0x14000A) = .op (.hwrFlags 0x000A) ∧
    HostCmd.reg 0x14000E ∈ apiReadByte 0xA0 0x25 0x0101 := by decide
theorem test_witness_MacroExpansions : 0 < 1 ∧ (apiWriteBuf 0xA0 0xFF 0x0400 1).length = 8 := by decide

end Sys2Proof.Tests
end

section
/-! SUPPORT. What taking a turn answers, by what the turn presents: the two halves of `step` put together once, to be cited instead
of unfolding `perform`. -/

namespace Sys2Proof.Machine

/-- A word that selects an operation runs it in the state the turn is taken in. -/
theorem step_of_op {s u : State} {c : Code} {i : Instr} (hf : fetch s = (.word c, u)) (hd : decode c = .op i) :
    step s = exec i u := by
  simp only [step, hf, perform, hd]

/-- A word that selects no operation leaves the state the turn is taken in. -/
theorem step_of_noOp {s u : State} {c : Code} {r : NoOp} (hf : fetch s = (.word c, u)) (hd : decode c = .none r) :
    step s = .next u := by
  simp only [step, hf, perform, hd]

/-- An agent that passes leaves the state the turn is taken in. -/
theorem step_of_pass {s u : State} (hf : fetch s = (.pass, u)) : step s = .next u := by
  simp only [step, hf, perform]

/-- The unconstrained line unit's turn has no word: its operation answers directly (42_line_unit R160). -/
theorem step_of_free {s u : State} {st : BitVec 3} {l : Option Byte} {k : Bool} (hf : fetch s = (.free st l k, u)) :
    step s = .next (u.lineUnconstrained st l k) := by
  simp only [step, hf, perform]

/-- Everything a step can do, with the word that selected the operation: unlike `step_cases` it keeps the word, from which
`fetch_enables`, `fetch_order` and `decode_wellFormed` speak. -/
theorem step_word_cases {s t : State} (h : step s = .next t) :
    t = (fetch s).2 ∨
    (∃ c i, (fetch s).1 = .word c ∧ decode c = .op i ∧ exec i (fetch s).2 = .next t) ∨
    (∃ st l k, (fetch s).1 = .free st l k ∧ t = (fetch s).2.lineUnconstrained st l k) := by
  generalize hf : fetch s = p
  obtain ⟨turn, u⟩ := p
  cases turn with
  | pass => rw [step_of_pass hf] at h; cases h; exact .inl rfl
  | word c =>
    cases hd : decode c with
    | op i => rw [step_of_op hf hd] at h; exact .inr (.inl ⟨c, i, rfl, hd, h⟩)
    | none r => rw [step_of_noOp hf hd] at h; cases h; exact .inl rfl
  | free st l k => rw [step_of_free hf] at h; cases h; exact .inr (.inr ⟨st, l, k, rfl, rfl⟩)

/-- `fetch_frame` without its existentials: the state a turn is taken in, as an update of the one before. -/
theorem fetch_eq_update (s : State) :
    (fetch s).2 = { s with
      inputs := (fetch s).2.inputs, hostProg := (fetch s).2.hostProg, windows := (fetch s).2.windows, ee := (fetch s).2.ee } := by
  obtain ⟨is, hp, ws, e, hu⟩ := fetch_frame s
  rw [hu]

end Sys2Proof.Machine
end

section
/-! SUPPORT. What every decoder selects is well formed (30_encoding R71, R74), one lemma per format. -/

namespace Sys2Proof.Machine

/-- The reserved register indices are those from 9 on (10_state R42). -/
theorem reservedReg_iff (reg : BitVec 4) : reservedReg reg = true ↔ 9 ≤ reg.toNat := by
  revert reg; decide

theorem decodeHostRead_wellFormed (reg : BitVec 4) (wdata : Word16) : (decodeHostRead reg wdata).wellFormed = true := by
  unfold decodeHostRead
  split
  case h_10 => simp only [imp_false] at *; exact (reservedReg_iff reg).mpr (by omega)
  all_goals rfl

theorem decodeCtlWrite_wellFormed (wdata : Word16) : (decodeCtlWrite wdata).wellFormed = true := by
  unfold decodeCtlWrite
  split
  · next h7 =>
    split
    · next h5 => simpa [Instr.wellFormed, h7] using h5
    · next h5 => simpa [Instr.wellFormed, h7] using h5
  · next h7 => simpa [Instr.wellFormed] using h7

theorem decodeHostWrite_wellFormed (reg : BitVec 4) (wdata : Word16) : (decodeHostWrite reg wdata).wellFormed = true := by
  unfold decodeHostWrite
  split
  case h_1 => exact decodeCtlWrite_wellFormed wdata
  case h_10 => simp only [imp_false] at *; exact (reservedReg_iff reg).mpr (by omega)
  all_goals rfl

theorem decodeHost_wellFormed (w : BitVec 21) : (decodeHost w).wellFormed = true := by
  unfold decodeHost
  split
  · exact decodeHostWrite_wellFormed _ _
  · exact decodeHostRead_wellFormed _ _

theorem decodeHmem_wellFormed (w : BitVec 25) : (decodeHmem w).wellFormed = true := by
  unfold decodeHmem
  split <;> rfl

theorem decodeStatusCode_wellFormed (code : BitVec 3) : (decodeStatusCode code).wellFormed = true := by
  revert code; decide

theorem decodeStatus_wellFormed {w : BitVec 8} {i : Instr} (h : decodeStatus w = .op i) : i.wellFormed = true := by
  unfold decodeStatus at h
  split at h
  · cases h; exact decodeStatusCode_wellFormed _
  · cases h

theorem decodeLine_wellFormed {w : BitVec 8} {d : Draw} {i : Instr} (h : decodeLine w d = .op i) : i.wellFormed = true := by
  cases d with
  | nominal b a =>
    rw [decodeLine, decodeLineNominal] at h
    repeat' split at h
    all_goals cases h
    all_goals rfl
  | fault f =>
    rw [decodeLine] at h
    split at h <;> cases h
    rfl

theorem decodeTimer_wellFormed (w : BitVec 2) : (decodeTimer w).wellFormed = true := by
  revert w; decide

theorem decodeReset_wellFormed {w : BitVec 1} {i : Instr} (h : decodeReset w = .op i) : i.wellFormed = true := by
  unfold decodeReset at h
  split at h <;> cases h
  rfl

/-- What any decoder selects is well formed. -/
theorem decode_wellFormed {c : Code} {i : Instr} (h : decode c = .op i) : i.wellFormed = true := by
  cases c with
  | host w => cases h; exact decodeHost_wellFormed w
  | hmem w => cases h; exact decodeHmem_wellFormed w
  | status w => exact decodeStatus_wellFormed h
  | line w d => exact decodeLine_wellFormed h
  | timer w => cases h; exact decodeTimer_wellFormed w
  | reset w => exact decodeReset_wellFormed h

end Sys2Proof.Machine
end

section
/-! SUPPORT. What enabling says about the race of 60_exceptions R199, and that no operation writes a parameter. -/

namespace Sys2Proof.Machine

/-- An event step is enabled only with `EN` = 1 and `SI` = 1 (41_engine_events R130). -/
theorem engineEnabled_of_enables {s : State} {i : Instr} (h : s.enables i) (hi : isEvent i = true) : s.engineEnabled = true := by
  cases i
  case evStart | evTxAck | evTxNack | evRx | evOther => exact h.1
  all_goals cases hi

theorem engineEnabled_iff (s : State) : s.engineEnabled = true ↔ s.en = true ∧ s.si = true := by
  simp [State.engineEnabled]

theorem lineMayStep_iff (s : State) : s.lineMayStep = true ↔ s.en = true ∧ s.si = false := by
  simp [State.lineMayStep]

theorem wdtLast_iff (s : State) : s.wdtLast = true ↔ s.wdtCount + 1 = s.cfg.wdtPeriodTicks := by
  simp [State.wdtLast]

/-- Under `wdt_first` an event step that is taken finds the aborting tick not enabled. -/
theorem event_taken_not_abortDue {u : State} {i : Instr} (he : u.enables i) (hy : isEvent i = true → u.engineYields = false)
    (hi : isEvent i = true) (ho : u.cfg.eventOrder = .wdtFirst) : ¬(u.busy = true ∧ u.wdtCount + 1 = u.cfg.wdtPeriodTicks) := by
  rintro ⟨hb, hl⟩
  obtain ⟨hen, hsi⟩ := (engineEnabled_iff u).mp (engineEnabled_of_enables he hi)
  have yields : u.engineYields = true := (engineYields_iff u).mpr ⟨ho, hen, hsi, hb, hl⟩
  simp [hy hi] at yields

/-- Under `engine_first` an abort that is taken finds no status event enabled. -/
theorem abort_taken_not_engineEnabled {u : State} (he : u.enables .wdtTickAbort) (hy : u.tickYields = false)
    (ho : u.cfg.eventOrder = .engineFirst) : ¬(u.en = true ∧ u.si = true) := by
  rintro ⟨hen, hsi⟩
  obtain ⟨hb, hl⟩ := he
  have yields : u.tickYields = true := (tickYields_iff u).mpr ⟨ho, hen, hsi, hb, (wdtLast_iff u).mp hl⟩
  simp [hy] at yields

/-- The gate of 40_host_access R100 keeps what the write behind it keeps. -/
theorem hostWrite_cfg {s : State} {f : State → State} (hf : (f s).cfg = s.cfg) : (s.hostWrite f).cfg = s.cfg := by
  unfold State.hostWrite
  split
  · rfl
  · exact hf

/-- No operation writes a parameter (00_scope R8). -/
theorem exec_cfg (i : Instr) {s t : State} (h : exec i s = .next t) : t.cfg = s.cfg := by
  cases i
  case hwrCtlDisable => cases h; exact hostWrite_cfg (by simp)
  case hwrCtlEnable | hwrCtlGo | hwrTaddr | hwrSubaddr | hwrFlags | hwrCursor | hwrRemain => cases h; exact hostWrite_cfg rfl
  case evTxAck =>
    obtain ⟨-, e⟩ | ⟨-, -, e⟩ | ⟨-, -, -, e⟩ | ⟨-, -, -, -, e⟩ | ⟨-, -, -, -, e⟩ := evTxAck_cases s <;>
      (cases e.symm.trans h; rfl)
  case evTxNack =>
    obtain ⟨-, e⟩ | ⟨-, e⟩ := evTxNack_cases s <;> cases e.symm.trans h
    · rfl
    · exact State.raiseFailure_cfg s causeNack
  case evRx =>
    obtain ⟨-, e⟩ | ⟨-, e⟩ | ⟨-, -, -, e⟩ := evRx_cases s <;> (cases e.symm.trans h; rfl)
  case evOther => cases h; exact State.raiseFailure_cfg s causeBusError
  case wdtTickAbort => cases h; exact State.raiseFailure_cfg s causeTimeout
  all_goals cases h; rfl

end Sys2Proof.Machine
end

section
/-! THEOREMS. The statements of the family 00_scope: who steps, on which word, and what no step changes. -/

namespace Sys2Proof.Machine

/-- Settles O40, from the cases of a step and the enabling, order and well-formedness lemmas about the word offered. -/
theorem stepsAreEnabled : Obligations.StepsAreEnabled := by
  intro s t h
  refine ⟨(fetch s).2, rfl, fetch_eq_update s, ?_⟩
  obtain hu | ⟨c, i, hw, hd, he⟩ | ⟨st, l, k, hf, rfl⟩ := step_word_cases h
  · exact .inl hu
  · have enabled : (fetch s).2.enables i := fetch_enables s hw hd
    obtain ⟨hengine, htick⟩ := fetch_order s hw hd
    refine .inr (.inl ⟨i, enabled, decode_wellFormed hd, he, event_taken_not_abortDue enabled hengine, ?_⟩)
    rintro rfl
    exact abort_taken_not_engineEnabled enabled (htick rfl)
  · obtain ⟨hm, hr⟩ := fetch_free s hf
    obtain ⟨hen, hsi⟩ := (lineMayStep_iff s).mp hr
    refine .inr (.inr ⟨?_, ?_, ?_, rfl⟩) <;> rw [fetch_eq_update s]
    · exact hm
    · exact hen
    · exact hsi

/-- Settles O46: being at given parameters is kept by every step, since no operation writes one. -/
theorem parametersNeverChange : Obligations.ParametersNeverChange := by
  intro s t h
  exact step_keeps (P := fun x => x.cfg = s.cfg)
    (fun _ _ _ _ _ hx => hx)
    (fun _ i _ hx _ he => (exec_cfg i he).trans hx)
    (fun _ _ _ _ hx _ _ => hx)
    rfl h

/-- Settles O35, one lemma per kind of turn. -/
theorem stepRunsTheDecodedOperation : Obligations.StepRunsTheDecodedOperation := by
  intro s u c
  exact ⟨fun _ hf hd => step_of_op hf hd, fun _ hf hd => step_of_noOp hf hd, step_of_pass⟩

end Sys2Proof.Machine
end

section
/-! THEOREMS. What each agent's turn presents, one lemma per kind of input, and the statement assembled from them. -/

namespace Sys2Proof.Machine

/-- An empty schedule offers nobody a step (log 1). -/
theorem fetch_nil {s : State} (h : s.inputs = []) : fetch s = (.pass, s) := by
  simp only [fetch, h]

section HeadOfSchedule

variable {s : State} {rest : List Input}

/-- The turn the head of the schedule offers, agent by agent. -/
theorem fetch_host (h : s.inputs = .host :: rest) : fetch s = ({ s with inputs := rest } : State).hostTurn := by
  simp only [fetch, h]

theorem fetch_engine (h : s.inputs = .engine :: rest) : fetch s = ({ s with inputs := rest } : State).engineTurn := by
  simp only [fetch, h]

theorem fetch_tick (h : s.inputs = .tick :: rest) : fetch s = ({ s with inputs := rest } : State).tickTurn s := by
  simp only [fetch, h]

theorem fetch_reset {w : BitVec 1} (h : s.inputs = .reset w :: rest) :
    fetch s = (.word (.reset w), { s with inputs := rest }) := by
  simp only [fetch, h]

theorem fetch_host_nil (hi : s.inputs = .host :: rest) (hp : s.hostProg = []) :
    fetch s = (.pass, { s with inputs := rest }) := by
  simp only [fetch_host hi, State.hostTurn, hp]

theorem fetch_host_reg {w : BitVec 21} {prog : List HostCmd} (hi : s.inputs = .host :: rest) (hp : s.hostProg = .reg w :: prog) :
    fetch s = (.word (.host w), { s with inputs := rest, hostProg := prog, windows := s.windowsAfter w }) := by
  simp only [fetch_host hi, State.hostTurn, hp]
  rfl

theorem fetch_host_mem {w : BitVec 25} {prog : List HostCmd} (hi : s.inputs = .host :: rest) (hp : s.hostProg = .mem w :: prog) :
    fetch s = (.word (.hmem w), { s with inputs := rest, hostProg := prog }) := by
  simp only [fetch_host hi, State.hostTurn, hp]

/-- WAIT presents the read of `STAT` (40_host_access R127), stays first until that read shows `busy` = 0, and then gives the buffers
back (70_reset_and_hazards R225). -/
theorem fetch_host_wait {prog : List HostCmd} (hi : s.inputs = .host :: rest) (hp : s.hostProg = .wait :: prog) :
    fetch s = (.word (.host 0x070000#21), { s with
      inputs := rest
      hostProg := if s.busy = true then .wait :: prog else prog
      windows := if s.busy = true then s.windows else [] }) := by
  have hw : readStatWord = 0x070000#21 := by decide
  simp only [fetch_host hi, State.hostTurn, hp, State.issue, hw, waitOver_eq, windowsAfter_eq]
  cases s.busy <;> rfl

end HeadOfSchedule

/-- Settles O36: the turn of each kind of input, with the conditions of R199 and R225 written out. -/
theorem turnsPresentTheirWord : Obligations.TurnsPresentTheirWord := by
  intro s rest prog
  refine ⟨fetch_nil, ?_, ?_, ?_, ?_, ?_, ?_, fun w => fetch_reset⟩
  · intro w hi hp
    rw [fetch_host_reg hi hp, windowsAfter_eq]
  · exact fun _ => fetch_host_mem
  · exact fetch_host_nil
  · exact fun hi hp => ⟨_, fetch_host_wait hi hp⟩
  · intro hi
    rw [fetch_engine hi]
    simp only [State.engineTurn, engineYields_iff]
    rfl
  · intro hi
    rw [fetch_tick hi]
    simp only [State.tickTurn, tickYields_iff]
    rfl

end Sys2Proof.Machine
end

section
/-! SUPPORT. The gate of the host's register writes, and what enabling says of `EN`. -/

namespace Sys2Proof.Machine

/-- The gate of 40_host_access R100: the write is dropped while `busy` = 1 and performed while `busy` = 0. -/
theorem hostWrite_cases (s : State) (f : State → State) :
    (s.busy = true ∧ s.hostWrite f = s) ∨ (s.busy = false ∧ s.hostWrite f = f s) := by
  cases h : s.busy
  · exact .inr ⟨rfl, hostWrite_idle s f h⟩
  · exact .inl ⟨rfl, hostWrite_busy s f h⟩

/-- A predicate the state satisfies holds behind the gate if a write performed with `busy` = 0 brings it about. -/
theorem hostWrite_keeps {P : State → Prop} {s : State} {f : State → State} (hs : P s) (hf : s.busy = false → P (f s)) :
    P (s.hostWrite f) := by
  obtain ⟨-, e⟩ | ⟨hb, e⟩ := hostWrite_cases s f <;> rw [e]
  · exact hs
  · exact hf hb

theorem en_of_engineEnabled {s : State} (h : s.engineEnabled = true) : s.en = true := ((engineEnabled_iff s).mp h).1

theorem si_of_engineEnabled {s : State} (h : s.engineEnabled = true) : s.si = true := ((engineEnabled_iff s).mp h).2

theorem en_of_lineMayStep {s : State} (h : s.lineMayStep = true) : s.en = true := ((lineMayStep_iff s).mp h).1

theorem si_of_lineMayStep {s : State} (h : s.lineMayStep = true) : s.si = false := ((lineMayStep_iff s).mp h).2

/-- A flag is not both 1 and 0. -/
theorem flag_conflict {b : Bool} {p : Prop} (h1 : b = true) (h0 : b = false) : p := absurd (h1.symm.trans h0) (by decide)

/-- The two rows of LU_TXBYTE in 30_encoding R75, together: their conditions differ in the phase alone. -/
theorem luTxbyte_enabled {s : State} {row : TxRow} {a : Ack} (hi : s.enables (.luTxbyte row a)) :
    s.lineFree ∧ s.sto = false ∧ s.sta = false ∧ (s.luPhase = .addr ∨ s.luPhase = .tx) ∧ s.luDatFull = true := by
  cases row
  · obtain ⟨-, hf, hsto, hsta, hp, hd⟩ := hi
    exact ⟨hf, hsto, hsta, .inl hp, hd⟩
  · obtain ⟨-, hf, hsto, hsta, hp, hd⟩ := hi
    exact ⟨hf, hsto, hsta, .inr hp, hd⟩

/-- The failure handler has already cleared `SI`, so the end of an event step (41_engine_events R137) adds nothing. -/
theorem exec_evOther (code : BitVec 3) (s : State) : exec (.evOther code) s = .next (s.raiseFailure causeBusError) := by
  show Host.Outcome.next (s.raiseFailure causeBusError).eventDone = _
  rw [raiseFailure_eq]
  rfl

/-- Only an acknowledged read address turns the line unit into a receiver (42_line_unit R156). -/
theorem phaseAfterTx_cases (s : State) (a : Ack) :
    s.phaseAfterTx a = .tx ∨
      (s.phaseAfterTx a = .rx ∧ s.luPhase = .addr ∧ s.dat.getLsbD 0 = true ∧ a = .ack) := by
  unfold State.phaseAfterTx
  split
  · next h => exact .inr ⟨rfl, h⟩
  · exact .inl rfl

/-- Bit 0 of the address byte is its R/W bit (30_encoding R78). -/
theorem addrByte_rwBit (s : State) : s.addrByte.getLsbD 0 = s.rwBit :=
  BitVec.getLsbD_append.trans (by simp)

/-- The address byte says READ only in a read with no sub-address due. -/
theorem rwBit_read {s : State} (h : s.rwBit = true) : s.direction = true ∧ s.sendSubAddress = false := by
  unfold State.rwBit at h
  split at h
  · cases h
  · next hn => exact ⟨h, by simpa using hn⟩

/-- The watchdog's period is a positive number (00_scope R8). -/
theorem wdtPeriodTicks_pos (c : Config) : 0 < c.wdtPeriodTicks := Nat.succ_pos _

end Sys2Proof.Machine
end

section
/-! THEOREMS. The invariants of 10_state R48 that hold under every `LU_MODE`. -/

namespace Sys2Proof.Machine

/-- With `EN` = 1 only the watchdog's counter and the two shadows are left to check. -/
theorem controlOk_of_enabled {t : State} (hen : t.en = true) (hbelow : t.wdtCount < t.cfg.wdtPeriodTicks)
    (hidle : t.busy = false → t.wdtCount = 0) (hfsm : t.fsm ≠ 7)
    (hresult : t.result ≠ 5 ∧ t.result ≠ 6 ∧ t.result ≠ 7) : t.ControlOk where
  busy_enabled _ := hen
  disabled_clear h := flag_conflict hen h
  count_below := hbelow
  idle_count := hidle
  fsm_named := hfsm
  result_named := hresult
  pending_enabled _ := hen

/-- The same where the counter is 0: a transfer has just started or has just ended. -/
theorem controlOk_of_count_zero {t : State} (hen : t.en = true) (hcount : t.wdtCount = 0) (hfsm : t.fsm ≠ 7)
    (hresult : t.result ≠ 5 ∧ t.result ≠ 6 ∧ t.result ≠ 7) : t.ControlOk :=
  controlOk_of_enabled hen (hcount ▸ wdtPeriodTicks_pos _) (fun _ => hcount) hfsm hresult

/-- RESET (70_reset_and_hazards R220) leaves nothing but zeros. -/
theorem hardReset_controlOk (s : State) : s.hardReset.ControlOk where
  busy_enabled := nofun
  disabled_clear _ := by simp
  count_below := wdtPeriodTicks_pos _
  idle_count _ := rfl
  fsm_named := by simp
  result_named := by simp
  pending_enabled := nofun

/-- The failure handler (60_exceptions R192) and the watchdog abort (R196), whatever the state before. -/
theorem raiseFailure_controlOk (s : State) {cause : BitVec 3} (hc : cause ≠ 5 ∧ cause ≠ 6 ∧ cause ≠ 7) :
    (s.raiseFailure cause).ControlOk :=
  controlOk_of_count_zero rfl rfl (by simp) hc

/-- DISABLE (40_host_access R102) clears all that `EN` = 0 asks for; the gate has made sure that no transfer runs. -/
theorem disable_controlOk {s : State} (hs : s.ControlOk) (hb : s.busy = false) : (s.setEn false).periphReset.ControlOk where
  busy_enabled h := absurd h (by simp [hb])
  disabled_clear _ := by simp
  count_below := by simpa using hs.count_below
  idle_count _ := by simpa using hs.idle_count hb
  fsm_named := by simpa using hs.fsm_named
  result_named := by simpa using hs.result_named
  pending_enabled h := absurd h (by simp)

/-- A counting tick stays below the period: the last tick is the abort's (60_exceptions R195). -/
theorem wdtTickCount_controlOk {s : State} (hs : s.ControlOk) (hb : s.busy = true) (hl : s.wdtLast = false) :
    State.ControlOk { s with wdtCount := s.wdtCount + 1 } where
  __ := hs
  count_below := by
    have below := hs.count_below
    have notLast : s.wdtCount + 1 ≠ s.cfg.wdtPeriodTicks := fun h => by simp [(wdtLast_iff s).mpr h] at hl
    show s.wdtCount + 1 < s.cfg.wdtPeriodTicks
    omega
  idle_count h := flag_conflict hb h

/-- What an operation that runs with `EN` = 1 keeps by leaving the counter, `busy` and `result`, and naming a state in `fsm`. -/
theorem State.ControlOk.of_enabled {s t : State} (hs : s.ControlOk) (hen : s.en = true) (hfsm : t.fsm ≠ 7)
    (hframe : t.en = s.en ∧ t.cfg = s.cfg ∧ t.wdtCount = s.wdtCount ∧ t.busy = s.busy ∧ t.result = s.result) : t.ControlOk := by
  obtain ⟨een, ecfg, ecount, ebusy, eresult⟩ := hframe
  refine controlOk_of_enabled (een.trans hen) ?_ ?_ hfsm ?_
  · rw [ecount, ecfg]; exact hs.count_below
  · rw [ecount, ebusy]; exact hs.idle_count
  · rw [eresult]; exact hs.result_named

theorem evTxAck_controlOk {s t : State} (hs : s.ControlOk) (hen : s.en = true) (h : exec .evTxAck s = .next t) :
    t.ControlOk := by
  obtain ⟨-, e⟩ | ⟨-, -, e⟩ | ⟨-, -, -, e⟩ | ⟨-, -, -, -, e⟩ | ⟨-, -, -, -, e⟩ := evTxAck_cases s <;>
    cases e.symm.trans h
  case inr.inr.inr.inr => exact controlOk_of_count_zero hen rfl (by simp) (by simp)
  all_goals
    refine hs.of_enabled hen ?_ ⟨rfl, rfl, rfl, rfl, rfl⟩
    simp [State.txAckRestart, State.txAckSubAddress, State.txAckRead, State.txAckData]

theorem evRx_controlOk {s t : State} (hs : s.ControlOk) (hen : s.en = true) (h : exec .evRx s = .next t) : t.ControlOk := by
  obtain ⟨-, e⟩ | ⟨-, e⟩ | ⟨-, -, -, e⟩ := evRx_cases s <;> cases e.symm.trans h
  case inr.inr => exact hs.of_enabled hen hs.fsm_named ⟨rfl, rfl, rfl, rfl, rfl⟩
  all_goals exact controlOk_of_count_zero hen rfl (by simp) (by simp)

theorem evTxNack_controlOk {s t : State} (hs : s.ControlOk) (hen : s.en = true) (h : exec .evTxNack s = .next t) :
    t.ControlOk := by
  obtain ⟨-, e⟩ | ⟨-, e⟩ := evTxNack_cases s <;> cases e.symm.trans h
  · exact hs.of_enabled hen (by simp) ⟨rfl, rfl, rfl, rfl, rfl⟩
  · exact raiseFailure_controlOk s (by decide)

/-- Every enabled operation keeps the invariants. -/
theorem exec_controlOk {i : Instr} {s t : State} (hs : s.ControlOk) (hi : s.enables i) (h : exec i s = .next t) :
    t.ControlOk := by
  cases i
  case hwrCtlDisable => cases h; exact hostWrite_keeps hs (disable_controlOk hs)
  case hwrCtlEnable =>
    cases h
    exact hostWrite_keeps hs fun _ =>
      controlOk_of_enabled rfl hs.count_below hs.idle_count hs.fsm_named hs.result_named
  case hwrCtlGo => cases h; exact hostWrite_keeps hs fun _ => controlOk_of_count_zero rfl rfl (by simp) (by simp)
  case hwrTaddr | hwrSubaddr | hwrFlags | hwrCursor | hwrRemain => cases h; exact hostWrite_keeps hs fun _ => { hs with }
  case evStart =>
    cases h
    have named : (if s.fsm = 3 then 3 else 1 : BitVec 3) ≠ 7 := by split <;> decide
    exact hs.of_enabled (en_of_engineEnabled hi.1) named ⟨rfl, rfl, rfl, rfl, rfl⟩
  case evTxAck => exact evTxAck_controlOk hs (en_of_engineEnabled hi.1) h
  case evTxNack => exact evTxNack_controlOk hs (en_of_engineEnabled hi.1) h
  case evRx => exact evRx_controlOk hs (en_of_engineEnabled hi.1) h
  case evOther => cases (exec_evOther _ s).symm.trans h; exact raiseFailure_controlOk s (by decide)
  case luAck => cases h; exact hs.of_enabled (en_of_lineMayStep hi.2.1) hs.fsm_named ⟨rfl, rfl, rfl, rfl, rfl⟩
  case luStop | luStart | luRxbyte =>
    cases h
    exact hs.of_enabled (en_of_lineMayStep hi.2.1.1) hs.fsm_named ⟨rfl, rfl, rfl, rfl, rfl⟩
  case luTxbyte =>
    obtain ⟨⟨hr, -⟩, -⟩ := luTxbyte_enabled hi
    cases h
    exact hs.of_enabled (en_of_lineMayStep hr) hs.fsm_named ⟨rfl, rfl, rfl, rfl, rfl⟩
  case luFault => cases h; exact hs.of_enabled (en_of_lineMayStep hi.2) hs.fsm_named ⟨rfl, rfl, rfl, rfl, rfl⟩
  case wdtTickCount => cases h; exact wdtTickCount_controlOk hs hi.1 hi.2
  case wdtTickAbort => cases h; exact raiseFailure_controlOk s (by decide)
  case reset => cases h; exact hardReset_controlOk s
  all_goals cases h; exact { hs with }

/-- Settles O50: every enabled operation keeps the invariants, and so does the unconstrained line unit's, which runs only with
`EN` = 1. -/
theorem controlInvariantIsKept : Obligations.ControlInvariantIsKept := by
  intro s t hs h
  exact step_keeps (P := State.ControlOk)
    (fun _ _ _ _ _ hs => { hs with })
    (fun _ _ _ hs hi he => exec_controlOk hs hi he)
    (fun _ _ _ _ hs _ hr => hs.of_enabled (en_of_lineMayStep hr) hs.fsm_named ⟨rfl, rfl, rfl, rfl, rfl⟩)
    hs h

/-- Settles O49: the reset state is one RESET leaves. -/
theorem controlInvariantAtReset : Obligations.ControlInvariantAtReset :=
  fun c => hardReset_controlOk (State.resetWith c)

end Sys2Proof.Machine
end

section
/-! THEOREMS. All of 10_state R48 under the nominal line unit: the third item rests on how status, requests, sequencer and phase go
together (`State.NominalOk`). -/

namespace Sys2Proof.Machine

/-! ### What the invariant says in the states an agent steps in -/

namespace State.NominalOk

variable {s : State} (hs : s.NominalOk)
include hs

/-- A pending status other than a fault belongs to a running transfer. -/
theorem busy_of_event (hsi : s.si = true) (h5 : s.status ≠ 5) (h6 : s.status ≠ 6) : s.busy = true := by
  cases hb : s.busy
  · exact ((hs.idle_event hb hsi).elim h5 h6).elim
  · rfl

/-- A line unit that owns the bus with no STOP requested serves a running transfer. -/
theorem busy_of_owned (hsto : s.sto = false) (hp : s.luPhase ≠ .idle) : s.busy = true := by
  cases hb : s.busy
  · exact ((hs.idle_bus hb).elim (by simp [hsto]) hp).elim
  · rfl

/-- Outside RX no acknowledge is owed. -/
theorem ackPend_of_not_rx (hp : s.luPhase ≠ .rx) : s.luAckPend = false := by
  cases ha : s.luAckPend
  · rfl
  · exact absurd (hs.ack_owed ha) hp

/-- An acknowledged byte was sent in TX or, if it was a read address, turned the line unit to RX; nothing is owed or requested. -/
theorem acked (hsi : s.si = true) (hst : s.status = 2) :
    (s.luPhase = .tx ∨ s.luPhase = .rx) ∧ s.sta = false ∧ s.sto = false ∧ s.busy = true ∧ s.luAckPend = false := by
  obtain ⟨hp, hsta, hsto⟩ := hs.byte_event hsi (by simp [byteStatus, hst])
  refine ⟨hp, hsta, hsto, hs.busy_of_event hsi (by simp [hst]) (by simp [hst]), ?_⟩
  obtain hp | hp := hp
  · exact hs.ackPend_of_not_rx (by simp [hp])
  · exact hs.ack_event hp hsi hst

end State.NominalOk

/-! ### Four kinds of state in which little of the invariant is left to check -/

section
variable {t : State} (hc : t.ControlOk)
include hc

/-- The line unit is at rest and no status is pending. -/
theorem nominalOk_of_bus_idle (hq : t.IdleQuiet) (hsi : t.si = false) (hsto : t.sto = false) (hp : t.luPhase = .idle)
    (ha : t.luAckPend = false) : t.NominalOk := by
  constructor <;> simp_all

/-- A transfer has just ended: its STOP is requested on a bus the line unit still owns. -/
theorem nominalOk_of_ended (hq : t.sta = false ∧ t.sendStartNext = false) (hsi : t.si = false) (hsto : t.sto = true)
    (hp : t.luPhase = .tx ∨ t.luPhase = .rx) (ha : t.luAckPend = true → t.luPhase = .rx ∧ t.ackrq = false) : t.NominalOk := by
  constructor
  case idle_quiet => exact fun _ => hq
  all_goals grind

/-- A running transfer with no status pending and no acknowledge owed. -/
theorem nominalOk_of_running (hb : t.busy = true) (hsi : t.si = false) (ha : t.luAckPend = false)
    (hstop : t.sto = true → t.luPhase = .tx ∨ t.luPhase = .rx)
    (hread : t.luPhase = .addr → t.luDatFull = true → t.dat.getLsbD 0 = true → t.direction = true ∧ t.sendSubAddress = false)
    (hrx : t.luPhase = .rx → t.sta = false → t.sto = false → t.sendStartNext = false) : t.NominalOk := by
  constructor
  case idle_quiet => exact flag_conflict hb
  all_goals simp_all

/-- A running transfer in which the line unit has just latched a status of its own. -/
theorem nominalOk_of_latched (hb : t.busy = true) (hsi : t.si = true) (hsta : byteStatus t.status = true → t.sta = false)
    (hsto : t.sto = false) (ha : t.luAckPend = true → t.luPhase = .rx)
    (hbyte : byteStatus t.status = true → t.luPhase = .tx ∨ t.luPhase = .rx)
    (hfull : t.luPhase = .addr → t.luDatFull = false)
    (hread : t.luPhase = .rx → t.status = 2 → t.luAckPend = false ∧ t.direction = true ∧ t.sendSubAddress = false)
    (hgot : t.status = 4 → t.luPhase = .rx ∧ t.luAckPend = true ∧ t.sendStartNext = false)
    (hnack : t.status = 3 → t.luPhase = .tx) (hstart : t.status = 1 → t.luPhase = .addr) : t.NominalOk := by
  constructor
  case idle_quiet => exact flag_conflict hb
  all_goals simp_all

end

/-! ### The host and the failure paths -/

/-- The failure handler (60_exceptions R192) and the watchdog abort (R196), whatever the state before. -/
theorem raiseFailure_nominalOk (s : State) {cause : BitVec 3} (hc : cause ≠ 5 ∧ cause ≠ 6 ∧ cause ≠ 7) :
    (s.raiseFailure cause).NominalOk :=
  nominalOk_of_bus_idle (raiseFailure_controlOk s hc) (fun _ => ⟨rfl, rfl⟩) rfl rfl rfl rfl

/-- RESET (70_reset_and_hazards R220). -/
theorem hardReset_nominalOk (s : State) : s.hardReset.NominalOk :=
  nominalOk_of_bus_idle (hardReset_controlOk s) (fun _ => ⟨rfl, rfl⟩) rfl rfl rfl rfl

section
variable {s : State} (hs : s.NominalOk)
include hs

/-- DISABLE (40_host_access R102). -/
theorem disable_nominalOk (hb : s.busy = false) : (s.setEn false).periphReset.NominalOk :=
  nominalOk_of_bus_idle (disable_controlOk hs.control hb) (fun _ => ⟨rfl, rfl⟩) rfl rfl rfl rfl

/-- ENABLE (40_host_access R103). -/
theorem enable_nominalOk : (s.setEn true).NominalOk :=
  { hs with
    control := controlOk_of_enabled rfl hs.control.count_below hs.control.idle_count hs.control.fsm_named
      hs.control.result_named }

/-- GO (40_host_access R104): while idle no byte is pending and no further byte has been asked for. -/
theorem startTransfer_nominalOk (hb : s.busy = false) : s.startTransfer.NominalOk :=
  { hs with
    control := controlOk_of_count_zero rfl rfl (by simp) (by simp)
    idle_quiet := nofun
    idle_bus := nofun
    idle_event := nofun
    byte_event := fun hsi hst => by
      obtain h | h := hs.idle_event hb hsi <;> simp [State.startTransfer, byteStatus, h] at hst
    receiving := nofun
    more_wanted := fun ha hsi hr => by
      obtain ⟨-, -, running⟩ := hs.more_wanted ha hsi hr
      exact flag_conflict running hb }

/-- `FLAGS` (40_host_access R108): while idle no address byte is due and none has just been acknowledged. -/
theorem setFlags_nominalOk (hb : s.busy = false) (d ssa rsr apn : Bool) : State.NominalOk { s with
    direction := d, sendSubAddress := ssa, repeatedStartForRead := rsr, ackPollOnAddressNack := apn } :=
  { hs with
    control := { hs.control with }
    read_address := fun (hp : s.luPhase = .addr) _ _ => by
      have notOwned : s.sto = false := by simpa [hp] using hs.stop_owned
      exact flag_conflict (hs.busy_of_owned notOwned (by simp [hp])) hb
    read_acked := fun _ hsi (hst : s.status = 2) =>
      flag_conflict (hs.busy_of_event hsi (by simp [hst]) (by simp [hst])) hb }

/-! ### The line unit -/

/-- LU_ACK (42_line_unit R152). -/
theorem luAck_nominalOk (hi : s.enables .luAck) {t : State} (h : exec .luAck s = .next t) : t.NominalOk := by
  have hc := exec_controlOk hs.control hi h
  have hsi : s.si = false := si_of_lineMayStep hi.2.1
  cases h
  exact { hs with
    control := hc
    ack_owed := nofun
    received := fun h => flag_conflict h hsi
    more_wanted := nofun
    last_refused := nofun
    ack_event := fun _ _ _ => rfl }

/-- LU_STOP (42_line_unit R153). -/
theorem luStop_nominalOk (hi : s.enables .luStop) {t : State} (h : exec .luStop s = .next t) : t.NominalOk := by
  have hc := exec_controlOk hs.control hi h
  obtain ⟨-, ⟨hr, ha⟩, -⟩ := hi
  cases h
  exact nominalOk_of_bus_idle hc hs.idle_quiet (si_of_lineMayStep hr) rfl rfl ha

/-- LU_START (42_line_unit R154): only a running transfer has requested it. -/
theorem luStart_nominalOk (hi : s.enables .luStart) {t : State} (h : exec .luStart s = .next t) : t.NominalOk := by
  have hc := exec_controlOk hs.control hi h
  obtain ⟨-, ⟨-, ha⟩, hsto, hsta⟩ := hi
  have hb : s.busy = true := by
    cases hb : s.busy
    · exact flag_conflict hsta (hs.idle_quiet hb).1
    · rfl
  cases h
  exact nominalOk_of_latched hc hb rfl nofun hsto (by simp [ha]) nofun (fun _ => rfl) nofun
    (by simp) (by simp) (fun _ => rfl)

/-- LU_RXBYTE (42_line_unit R155). -/
theorem luRxbyte_nominalOk {b : Byte} (hi : s.enables (.luRxbyte b)) {t : State} (h : exec (.luRxbyte b) s = .next t) :
    t.NominalOk := by
  have hc := exec_controlOk hs.control hi h
  obtain ⟨-, ⟨hr, ha⟩, hsto, hsta, hp⟩ := hi
  have hb : s.busy = true := hs.busy_of_owned hsto (by simp [hp])
  have hn : s.sendStartNext = false := hs.receiving hp (si_of_lineMayStep hr) hsta hsto
  cases h
  exact nominalOk_of_latched hc hb rfl (fun _ => hsta) hsto (fun _ => hp) (fun _ => .inr hp)
    (by simp [hp]) (by simp) (fun _ => ⟨hp, rfl, hn⟩) (by simp) (by simp)

/-- LU_TXBYTE (42_line_unit R156). -/
theorem luTxbyte_nominalOk {row : TxRow} {a : Ack} (hi : s.enables (.luTxbyte row a)) {t : State}
    (h : exec (.luTxbyte row a) s = .next t) : t.NominalOk := by
  have hc := exec_controlOk hs.control hi h
  obtain ⟨⟨-, ha⟩, hsto, hsta, hp, hd⟩ := luTxbyte_enabled hi
  have hb : s.busy = true := hs.busy_of_owned hsto (by obtain hp | hp := hp <;> simp [hp])
  cases h
  obtain hp' | ⟨hp', hpa, h0, rfl⟩ := phaseAfterTx_cases s a
  · refine nominalOk_of_latched hc hb rfl (fun _ => hsta) hsto (by simp [ha]) (fun _ => .inl hp') (fun _ => rfl) (by simp [hp'])
      ?_ (fun _ => hp') ?_ <;> cases a <;> simp [txStatus]
  · exact nominalOk_of_latched hc hb rfl (fun _ => hsta) hsto (by simp [ha]) (fun _ => .inr hp') (fun _ => rfl)
      (fun _ _ => ⟨ha, hs.read_address hpa hd h0⟩) (by simp [txStatus]) (by simp [txStatus]) (by simp [txStatus])

/-- LU_FAULT (42_line_unit R157) latches a status of which no other item of the invariant speaks. -/
theorem luFault_nominalOk {f : FaultStatus} (hi : s.enables (.luFault f)) {t : State} (h : exec (.luFault f) s = .next t) :
    t.NominalOk := by
  have hc := exec_controlOk hs.control hi h
  cases h
  exact { hs with
    control := hc
    idle_event := fun _ _ => by cases f <;> simp [faultCode]
    byte_event := fun _ => by cases f <;> simp [faultCode, byteStatus]
    read_acked := fun _ _ => by cases f <;> simp [faultCode]
    received := fun _ => by cases f <;> simp [faultCode]
    receiving := nofun
    more_wanted := nofun
    last_refused := nofun
    ack_event := fun _ _ => by cases f <;> simp [faultCode]
    nack_event := fun _ => by cases f <;> simp [faultCode]
    start_event := fun _ => by cases f <;> simp [faultCode] }

/-! ### The engine -/

/-- EV_START (41_engine_events R132) puts the address byte into `DAT`. -/
theorem evStart_nominalOk (hi : s.enables .evStart) {t : State} (h : exec .evStart s = .next t) : t.NominalOk := by
  have hc := exec_controlOk hs.control hi h
  obtain ⟨he, hst⟩ := hi
  have hsi := si_of_engineEnabled he
  have hp : s.luPhase = .addr := hs.start_event hsi hst
  have hb := hs.busy_of_event hsi (by simp [hst]) (by simp [hst])
  cases h
  exact nominalOk_of_running hc hb rfl (hs.ackPend_of_not_rx (by simp [hp])) hs.stop_owned
    (fun _ _ h0 => rwBit_read ((addrByte_rwBit s).symm.trans h0)) (by simp [hp])

/-- EV_TX_ACK (41_engine_events R133): four branches go on with the transfer, the last ends it. -/
theorem evTxAck_nominalOk (hi : s.enables .evTxAck) {t : State} (h : exec .evTxAck s = .next t) : t.NominalOk := by
  have hc := exec_controlOk hs.control hi h
  obtain ⟨he, hst⟩ := hi
  have hsi := si_of_engineEnabled he
  obtain ⟨hp, hsta, hsto, hb, ha⟩ := hs.acked hsi hst
  have hna : s.luPhase ≠ .addr := by obtain hp | hp := hp <;> simp [hp]
  obtain ⟨-, e⟩ | ⟨hn, hd, e⟩ | ⟨hn, -, -, e⟩ | ⟨hn, -, -, -, e⟩ | ⟨hn, -, -, -, e⟩ := evTxAck_cases s <;>
    cases e.symm.trans h
  · exact nominalOk_of_running hc hb rfl ha hs.stop_owned (fun h => absurd h hna) nofun
  · have htx : s.luPhase ≠ .rx := fun h => flag_conflict hd (hs.read_acked h hsi hst).2
    exact nominalOk_of_running hc hb rfl ha hs.stop_owned (fun h => absurd h hna) (fun h => absurd h htx)
  · exact nominalOk_of_running hc hb rfl ha hs.stop_owned (fun h => absurd h hna) (fun _ _ _ => hn)
  · exact nominalOk_of_running hc hb rfl ha hs.stop_owned (fun h => absurd h hna) (fun _ _ _ => hn)
  · exact nominalOk_of_ended hc ⟨hsta, hn⟩ rfl rfl hp (by simp [ha])

/-- EV_TX_NACK (41_engine_events R134): the retry requests a START, the failure leaves the bus. -/
theorem evTxNack_nominalOk (hi : s.enables .evTxNack) {t : State} (h : exec .evTxNack s = .next t) : t.NominalOk := by
  have hc := exec_controlOk hs.control hi h
  obtain ⟨he, hst⟩ := hi
  have hsi := si_of_engineEnabled he
  have hp : s.luPhase = .tx := hs.nack_event hsi hst
  have hb := hs.busy_of_event hsi (by simp [hst]) (by simp [hst])
  obtain ⟨-, e⟩ | ⟨-, e⟩ := evTxNack_cases s <;> cases e.symm.trans h
  · exact nominalOk_of_running hc hb rfl (hs.ackPend_of_not_rx (by simp [hp])) hs.stop_owned (by simp [hp]) nofun
  · exact raiseFailure_nominalOk s (by decide)

/-- EV_RX (41_engine_events R135): the last byte is refused and ends the transfer, an earlier one is acknowledged. -/
theorem evRx_nominalOk (hi : s.enables .evRx) {t : State} (h : exec .evRx s = .next t) : t.NominalOk := by
  have hc := exec_controlOk hs.control hi h
  obtain ⟨he, hst⟩ := hi
  have hsi := si_of_engineEnabled he
  obtain ⟨hp, ha, hn⟩ := hs.received hsi hst
  obtain ⟨-, hsta, hsto⟩ := hs.byte_event hsi (by simp [hst, byteStatus])
  have hb := hs.busy_of_event hsi (by simp [hst]) (by simp [hst])
  obtain ⟨-, e⟩ | ⟨-, e⟩ | ⟨-, -, -, e⟩ := evRx_cases s <;> cases e.symm.trans h
  · exact nominalOk_of_ended hc ⟨hsta, hn⟩ rfl rfl (.inr hp) (fun _ => ⟨hp, rfl⟩)
  · exact nominalOk_of_ended hc ⟨hsta, hn⟩ rfl rfl (.inr hp) (fun _ => ⟨hp, rfl⟩)
  · exact { hs with
      control := hc
      idle_event := nofun
      byte_event := nofun
      read_acked := nofun
      received := nofun
      receiving := fun _ _ _ _ => hn
      more_wanted := fun _ _ _ => ⟨hsto, hsta, hb⟩
      last_refused := nofun
      ack_event := nofun
      nack_event := nofun
      start_event := nofun }

/-! ### All operations -/

/-- Every operation the nominal line unit, the engine, the host or the watchdog is enabled to run keeps the invariant. -/
theorem exec_nominalOk {i : Instr} {t : State} (hi : s.enables i) (h : exec i s = .next t) : t.NominalOk := by
  cases i
  case hwrCtlDisable => cases h; exact hostWrite_keeps hs (disable_nominalOk hs)
  case hwrCtlEnable => cases h; exact hostWrite_keeps hs fun _ => enable_nominalOk hs
  case hwrCtlGo => cases h; exact hostWrite_keeps hs (startTransfer_nominalOk hs)
  case hwrFlags => cases h; exact hostWrite_keeps hs fun hb => setFlags_nominalOk hs hb _ _ _ _
  case hwrTaddr | hwrSubaddr | hwrCursor | hwrRemain =>
    cases h
    exact hostWrite_keeps hs fun _ => { hs with control := { hs.control with } }
  case evStart => exact evStart_nominalOk hs hi h
  case evTxAck => exact evTxAck_nominalOk hs hi h
  case evTxNack => exact evTxNack_nominalOk hs hi h
  case evRx => exact evRx_nominalOk hs hi h
  case evOther => cases (exec_evOther _ s).symm.trans h; exact raiseFailure_nominalOk s (by decide)
  case luAck => exact luAck_nominalOk hs hi h
  case luStop => exact luStop_nominalOk hs hi h
  case luStart => exact luStart_nominalOk hs hi h
  case luRxbyte => exact luRxbyte_nominalOk hs hi h
  case luTxbyte => exact luTxbyte_nominalOk hs hi h
  case luFault => exact luFault_nominalOk hs hi h
  case wdtTickAbort => cases h; exact raiseFailure_nominalOk s (by decide)
  case reset => cases h; exact hardReset_nominalOk s
  all_goals
    have hc := exec_controlOk hs.control hi h
    cases h
    exact { hs with control := hc }

end

/-- Settles O52: the invariant and the mode it needs are kept together, and the mode rules the unconstrained line unit out. -/
theorem nominalInvariantIsKept : Obligations.NominalInvariantIsKept := by
  intro s t hm hs h
  exact (step_keeps (P := fun x => x.cfg.luMode ≠ .unconstrained ∧ x.NominalOk)
    (fun _ _ _ _ _ ⟨hm, hs⟩ => ⟨hm, { hs with control := { hs.control with } }⟩)
    (fun _ i _ ⟨hm, hs⟩ hi he => ⟨by rw [exec_cfg i he]; exact hm, exec_nominalOk hs hi he⟩)
    (fun _ _ _ _ ⟨hm, _⟩ hu => absurd hu hm)
    ⟨hm, hs⟩ h).2

/-- Settles O51: the reset state is one RESET leaves. -/
theorem nominalInvariantAtReset : Obligations.NominalInvariantAtReset :=
  fun c => hardReset_nominalOk (State.resetWith c)

end Sys2Proof.Machine
end

section
/-! THEOREMS. The shadows steer nothing (10_state R31 to R33, R46): a step of the state with its shadows erased is the step of the
state itself, but for the shadows. -/

namespace Sys2Proof.Machine

/-- The state with the shadows, the wire trace and the register port's read data at a fixed value. -/
def State.erase (s : State) : State := { s with fsm := 0, result := 0, byteCount := 0, trace := [], regRdata := 0 }

/-- Two states are equal but for the shadows exactly when they are equal once erased. -/
theorem eqUpToShadows_iff (s t : State) : eqUpToShadows s t ↔ s.erase = t.erase := by
  constructor
  · intro h
    unfold eqUpToShadows at h
    rw [← h]
    rfl
  · intro h
    have overlay : ∀ u : State, { u.erase with
        fsm := t.fsm, result := t.result, byteCount := t.byteCount, trace := t.trace, regRdata := t.regRdata } =
      { u with fsm := t.fsm, result := t.result, byteCount := t.byteCount, trace := t.trace, regRdata := t.regRdata } :=
      fun _ => rfl
    exact (overlay s).symm.trans (h ▸ overlay t)

/-! ### What the agents test -/

@[simp] theorem State.erase_cfg (s : State) : s.erase.cfg = s.cfg := rfl
@[simp] theorem State.erase_inputs (s : State) : s.erase.inputs = s.inputs := rfl
@[simp] theorem State.erase_hostProg (s : State) : s.erase.hostProg = s.hostProg := rfl
@[simp] theorem State.erase_busy (s : State) : s.erase.busy = s.busy := rfl
@[simp] theorem State.erase_sendStartNext (s : State) : s.erase.sendStartNext = s.sendStartNext := rfl
@[simp] theorem State.erase_sendSubAddress (s : State) : s.erase.sendSubAddress = s.sendSubAddress := rfl
@[simp] theorem State.erase_direction (s : State) : s.erase.direction = s.direction := rfl
@[simp] theorem State.erase_bytesRemaining (s : State) : s.erase.bytesRemaining = s.bytesRemaining := rfl
@[simp] theorem State.erase_ackPollOnAddressNack (s : State) : s.erase.ackPollOnAddressNack = s.ackPollOnAddressNack := rfl
@[simp] theorem State.erase_engineYields (s : State) : s.erase.engineYields = s.engineYields := rfl
@[simp] theorem State.erase_tickYields (s : State) : s.erase.tickYields = s.tickYields := rfl
@[simp] theorem State.erase_lineMayStep (s : State) : s.erase.lineMayStep = s.lineMayStep := rfl

/-! ### The turn -/

theorem hostTurn_erase (s : State) : s.erase.hostTurn = (s.hostTurn.1, s.hostTurn.2.erase) := by
  unfold State.hostTurn
  rw [State.erase_hostProg, waitOver_eq, waitOver_eq, State.erase_busy]
  split <;> rfl

theorem engineTurn_erase (s : State) : s.erase.engineTurn = (s.engineTurn.1, s.engineTurn.2.erase) := by
  unfold State.engineTurn
  rw [State.erase_engineYields]
  split <;> rfl

theorem lineTurn_erase (s : State) (a : Answer) : s.erase.lineTurn a = ((s.lineTurn a).1, (s.lineTurn a).2.erase) := by
  unfold State.lineTurn
  rw [State.erase_cfg]
  split
  · rfl
  · cases a <;> rfl

theorem faultTurn_erase (s : State) (f : FaultStatus) : s.erase.faultTurn f = ((s.faultTurn f).1, (s.faultTurn f).2.erase) := by
  unfold State.faultTurn
  rw [State.erase_cfg]
  split <;> rfl

theorem freeTurn_erase (s : State) (st : BitVec 3) (l : Option Byte) (k : Bool) :
    s.erase.freeTurn st l k = ((s.freeTurn st l k).1, (s.freeTurn st l k).2.erase) := by
  unfold State.freeTurn
  rw [State.erase_cfg, State.erase_lineMayStep]
  split <;> rfl

theorem tickTurn_erase (s pending : State) :
    s.erase.tickTurn pending.erase = ((s.tickTurn pending).1, (s.tickTurn pending).2.erase) := by
  unfold State.tickTurn
  rw [State.erase_tickYields]
  split <;> rfl

/-- No agent sees a shadow: the word presented is the same, and the state the turn is taken in differs in the shadows alone. -/
theorem fetch_erase (s : State) : fetch s.erase = ((fetch s).1, (fetch s).2.erase) := by
  unfold fetch
  rw [State.erase_inputs]
  split
  · rfl
  · next rest _ => exact hostTurn_erase { s with inputs := rest }
  · next rest _ => exact engineTurn_erase { s with inputs := rest }
  · next a rest _ => exact lineTurn_erase { s with inputs := rest } a
  · next f rest _ => exact faultTurn_erase { s with inputs := rest } f
  · next st l k rest _ => exact freeTurn_erase { s with inputs := rest } st l k
  · next rest _ => exact tickTurn_erase { s with inputs := rest } s
  · rfl

/-! ### The operation -/

theorem periphReset_erase (s : State) : s.erase.periphReset.erase = s.periphReset.erase := by
  rw [periphReset_eq, periphReset_eq]
  rfl

theorem raiseFailure_erase (s : State) (c : BitVec 3) : (s.erase.raiseFailure c).erase = (s.raiseFailure c).erase := by
  rw [raiseFailure_eq, raiseFailure_eq]
  rfl

theorem hostWrite_erase {s : State} {f : State → State} (hf : (f s.erase).erase = (f s).erase) :
    (s.erase.hostWrite f).erase = (s.hostWrite f).erase := by
  unfold State.hostWrite
  rw [State.erase_busy]
  split
  · rfl
  · exact hf

theorem eventDone_erase (s : State) : s.eventDone.erase = s.erase.eventDone := rfl

theorem rxStore_erase (s : State) : s.erase.rxStore.erase = s.rxStore.erase := by
  unfold State.rxStore
  rw [State.erase_bytesRemaining]
  split <;> rfl

theorem rxFinish_erase (s : State) : s.erase.rxFinish.erase = s.rxFinish.erase := by
  unfold State.rxFinish
  rw [State.erase_bytesRemaining]
  split <;> rfl

theorem evTxAck_erase {s t : State} (h : exec .evTxAck s = .next t) :
    ∃ u, exec .evTxAck s.erase = .next u ∧ u.erase = t.erase := by
  cases h
  refine ⟨_, rfl, ?_⟩
  rw [State.erase_sendStartNext, State.erase_sendSubAddress, State.erase_direction, State.erase_bytesRemaining]
  split
  · rfl
  · split
    · rfl
    · split
      · rfl
      · split <;> rfl

theorem evTxNack_erase {s t : State} (h : exec .evTxNack s = .next t) :
    ∃ u, exec .evTxNack s.erase = .next u ∧ u.erase = t.erase := by
  cases h
  refine ⟨_, rfl, ?_⟩
  rw [State.erase_ackPollOnAddressNack]
  split
  · rfl
  · rw [eventDone_erase, eventDone_erase, raiseFailure_erase]

theorem evRx_erase {s t : State} (h : exec .evRx s = .next t) : ∃ u, exec .evRx s.erase = .next u ∧ u.erase = t.erase := by
  cases h
  refine ⟨s.erase.rxStore.rxFinish.eventDone, rfl, ?_⟩
  rw [eventDone_erase, eventDone_erase, ← rxFinish_erase s.erase.rxStore, rxStore_erase, rxFinish_erase]

/-- No operation reads a shadow but to write a shadow. -/
theorem exec_erase (i : Instr) {s t : State} (h : exec i s = .next t) :
    ∃ u, exec i s.erase = .next u ∧ u.erase = t.erase := by
  cases i
  case hwrCtlDisable => cases h; exact ⟨_, rfl, hostWrite_erase (periphReset_erase (s.setEn false))⟩
  case hwrCtlEnable | hwrCtlGo | hwrTaddr | hwrSubaddr | hwrFlags | hwrCursor | hwrRemain =>
    cases h
    exact ⟨_, rfl, hostWrite_erase rfl⟩
  case evTxAck => exact evTxAck_erase h
  case evTxNack => exact evTxNack_erase h
  case evRx => exact evRx_erase h
  case evOther =>
    cases (exec_evOther _ s).symm.trans h
    exact ⟨_, exec_evOther _ _, raiseFailure_erase s causeBusError⟩
  case wdtTickAbort => cases h; exact ⟨_, rfl, raiseFailure_erase s causeTimeout⟩
  all_goals cases h; exact ⟨_, rfl, rfl⟩

theorem perform_erase (turn : Turn) {s t : State} (h : perform turn s = .next t) :
    ∃ u, perform turn s.erase = .next u ∧ u.erase = t.erase := by
  cases turn with
  | pass => cases h; exact ⟨_, rfl, rfl⟩
  | word c =>
    simp only [perform] at h ⊢
    cases hd : decode c with
    | op i => rw [hd] at h; exact exec_erase i h
    | none r => rw [hd] at h; cases h; exact ⟨_, rfl, rfl⟩
  | free st l k => cases h; exact ⟨_, rfl, rfl⟩

/-- A step of the erased state is the step of the state itself, but for the shadows. -/
theorem step_erase {s t : State} (h : step s = .next t) : ∃ u, step s.erase = .next u ∧ u.erase = t.erase := by
  unfold step
  rw [fetch_erase]
  exact perform_erase (fetch s).1 h

/-- Settles O57: two states equal but for the shadows are the same state once erased, and both steps are that state's. -/
theorem shadowsDoNotSteer : Obligations.ShadowsDoNotSteer := by
  intro s t s' t' hst hs ht
  rw [eqUpToShadows_iff] at hst ⊢
  obtain ⟨u, hu, hus⟩ := step_erase hs
  obtain ⟨v, hv, hvt⟩ := step_erase ht
  rw [hst, hv] at hu
  cases hu
  exact hus.symm.trans hvt

end Sys2Proof.Machine
end

section
/-! THEOREMS. What each operation does to `busy` and to the data phase (10_state R21, R28, R29, R31). -/

namespace Sys2Proof.Machine

/-! ### `busy` -/

/-- Every operation but GO leaves an idle block idle (10_state R21). -/
theorem exec_idle_stays_idle {i : Instr} {s t : State} (h : exec i s = .next t) (hi : ∀ w, i ≠ .hwrCtlGo w)
    (hb : s.busy = false) : t.busy = false := by
  cases i
  case hwrCtlGo w => exact absurd rfl (hi w)
  case hwrCtlDisable => cases h; exact hostWrite_keeps (P := fun x => x.busy = false) hb fun _ => by simpa using hb
  case hwrCtlEnable | hwrTaddr | hwrSubaddr | hwrFlags | hwrCursor | hwrRemain =>
    cases h
    exact hostWrite_keeps (P := fun x => x.busy = false) hb fun _ => hb
  case evTxAck =>
    obtain ⟨-, e⟩ | ⟨-, -, e⟩ | ⟨-, -, -, e⟩ | ⟨-, -, -, -, e⟩ | ⟨-, -, -, -, e⟩ := evTxAck_cases s <;>
      cases e.symm.trans h
    case inr.inr.inr.inr => rfl
    all_goals exact hb
  case evTxNack =>
    obtain ⟨-, e⟩ | ⟨-, e⟩ := evTxNack_cases s <;> cases e.symm.trans h
    · exact hb
    · rfl
  case evRx =>
    obtain ⟨-, e⟩ | ⟨-, e⟩ | ⟨-, -, -, e⟩ := evRx_cases s <;> cases e.symm.trans h
    case inr.inr => exact hb
    all_goals rfl
  case evOther | wdtTickAbort | reset => cases h; rfl
  all_goals cases h; exact hb

/-- The operations that end a running transfer (10_state R21): the completions, the failures, the abort and reset. -/
theorem exec_running_ends {i : Instr} {s t : State} (h : exec i s = .next t) (hb : s.busy = true) (ht : t.busy = false) :
    (i = .evTxAck ∧ s.sendStartNext = false ∧ s.sendSubAddress = false ∧ s.direction = false ∧ s.bytesRemaining = 0) ∨
    (i = .evRx ∧ t.bytesRemaining = 0) ∨ (i = .evTxNack ∧ s.ackPollOnAddressNack = false) ∨
    (∃ c, i = .evOther c) ∨ i = .wdtTickAbort ∨ i = .reset := by
  have same {p : Prop} {u : State} (hu : u.busy = s.busy) (hf : u.busy = false) : p :=
    flag_conflict (hu.trans hb) hf
  have gated {p : Prop} {f : State → State} (hf : (s.hostWrite f).busy = false) : p :=
    same (congrArg State.busy (hostWrite_busy s f hb)) hf
  cases i
  case hwrCtlDisable | hwrCtlEnable | hwrCtlGo | hwrTaddr | hwrSubaddr | hwrFlags | hwrCursor | hwrRemain =>
    cases h
    exact gated ht
  case evTxAck =>
    obtain ⟨-, e⟩ | ⟨-, -, e⟩ | ⟨-, -, -, e⟩ | ⟨-, -, -, -, e⟩ | ⟨hn, hs, hd, hr, -⟩ := evTxAck_cases s
    case inr.inr.inr.inr => exact .inl ⟨rfl, hn, hs, hd, hr⟩
    all_goals cases e.symm.trans h; exact same rfl ht
  case evTxNack =>
    obtain ⟨-, e⟩ | ⟨ha, -⟩ := evTxNack_cases s
    · cases e.symm.trans h; exact same rfl ht
    · exact .inr (.inr (.inl ⟨rfl, ha⟩))
  case evRx =>
    obtain ⟨hr, e⟩ | ⟨hr, e⟩ | ⟨-, -, -, e⟩ := evRx_cases s <;> cases e.symm.trans h
    · exact .inr (.inl ⟨rfl, hr⟩)
    · exact .inr (.inl ⟨rfl, by simp [hr]⟩)
    · exact same rfl ht
  case evOther code => exact .inr (.inr (.inr (.inl ⟨code, rfl⟩)))
  case wdtTickAbort => exact .inr (.inr (.inr (.inr (.inl rfl))))
  case reset => exact .inr (.inr (.inr (.inr (.inr rfl))))
  all_goals cases h; exact same rfl ht

/-- Settles O41, one direction each. -/
theorem busyChangesOnlyByNamedSteps : Obligations.BusyChangesOnlyByNamedSteps := by
  intro i s t h
  refine ⟨fun hb ht => ?_, exec_running_ends h⟩
  by_contra notGo
  have idle : t.busy = false := exec_idle_stays_idle h (fun w hw => notGo ⟨w, hw⟩) hb
  exact flag_conflict ht idle

/-! ### The data phase -/

/-- A byte taken off a positive count is one less as a number, with no wrap (10_state R29). -/
theorem toNat_sub_one_add_one {b : Byte} (h : b ≠ 0) : (b - 1).toNat + 1 = b.toNat := by
  revert b
  decide

/-- The data phase of `t` is where that of `s` is: the remaining count, the cursor and the counter. -/
def State.sameDataPhase (s t : State) : Prop :=
  t.bytesRemaining = s.bytesRemaining ∧ t.dataCursor = s.dataCursor ∧ t.byteCount = s.byteCount

/-- The failure handler and the watchdog abort leave the data phase where it stopped (60_exceptions R191, R192, R196). -/
theorem raiseFailure_sameDataPhase (s : State) (c : BitVec 3) : s.sameDataPhase (s.raiseFailure c) :=
  ⟨State.raiseFailure_bytesRemaining s c, State.raiseFailure_dataCursor s c, State.raiseFailure_byteCount s c⟩

/-- What an operation does to the data phase: it leaves it, it is EV_START and zeroes the counter, or it is EV_TX_ACK or EV_RX and
moves one byte that was still wanted. -/
theorem exec_dataPhase_cases {i : Instr} {s t : State} (h : exec i s = .next t) (hremain : ∀ w, i ≠ .hwrRemain w)
    (hcursor : ∀ w, i ≠ .hwrCursor w) (hreset : i ≠ .reset) :
    s.sameDataPhase t ∨
    (i = .evStart ∧ t.bytesRemaining = s.bytesRemaining ∧ t.dataCursor = s.dataCursor ∧ t.byteCount = 0) ∨
    ((i = .evTxAck ∨ i = .evRx) ∧ s.bytesRemaining ≠ 0 ∧ t.bytesRemaining = s.bytesRemaining - 1 ∧
      t.dataCursor = s.dataCursor + 1 ∧ t.byteCount = s.byteCount + 1) := by
  have same : s.sameDataPhase s := ⟨rfl, rfl, rfl⟩
  cases i
  case hwrRemain w => exact absurd rfl (hremain w)
  case hwrCursor w => exact absurd rfl (hcursor w)
  case reset => exact absurd rfl hreset
  case hwrCtlDisable => cases h; exact .inl (hostWrite_keeps same fun _ => by simp [State.sameDataPhase])
  case hwrCtlEnable | hwrCtlGo | hwrTaddr | hwrSubaddr | hwrFlags => cases h; exact .inl (hostWrite_keeps same fun _ => same)
  case evStart => cases h; exact .inr (.inl ⟨rfl, rfl, rfl, rfl⟩)
  case evTxAck =>
    obtain ⟨-, e⟩ | ⟨-, -, e⟩ | ⟨-, -, -, e⟩ | ⟨-, -, -, hr, e⟩ | ⟨-, -, -, -, e⟩ := evTxAck_cases s <;>
      cases e.symm.trans h
    case inr.inr.inr.inl => exact .inr (.inr ⟨.inl rfl, hr, rfl, rfl, rfl⟩)
    all_goals exact .inl same
  case evTxNack =>
    obtain ⟨-, e⟩ | ⟨-, e⟩ := evTxNack_cases s <;> cases e.symm.trans h
    · exact .inl same
    · exact .inl (raiseFailure_sameDataPhase s causeNack)
  case evRx =>
    obtain ⟨-, e⟩ | ⟨hr, e⟩ | ⟨hr, -, -, e⟩ := evRx_cases s <;> cases e.symm.trans h
    · exact .inl same
    · exact .inr (.inr ⟨.inr rfl, by simp [hr], rfl, rfl, rfl⟩)
    · exact .inr (.inr ⟨.inr rfl, hr, rfl, rfl, rfl⟩)
  case evOther => cases (exec_evOther _ s).symm.trans h; exact .inl (raiseFailure_sameDataPhase s causeBusError)
  case wdtTickAbort => cases h; exact .inl (raiseFailure_sameDataPhase s causeTimeout)
  all_goals cases h; exact .inl same

/-- Settles O43: a byte is moved only where the count is positive, so the count goes down as a number. -/
theorem dataPhaseMovesOneByteAtATime : Obligations.DataPhaseMovesOneByteAtATime := by
  intro i s t h hremain hcursor hreset
  obtain ⟨hr, hc, hn⟩ | ⟨hi, hr, hc, hn⟩ | ⟨hi, hwanted, hr, hc, hn⟩ := exec_dataPhase_cases h hremain hcursor hreset
  · exact .inl ⟨hr, hc, .inl hn⟩
  · exact .inl ⟨hr, hc, .inr ⟨hi, hn⟩⟩
  · exact .inr ⟨hi, by rw [hr]; exact toNat_sub_one_add_one hwanted, hc, hn⟩

end Sys2Proof.Machine
end

section
/-! SUPPORT. Which operations store to buffer memory, and what they store (20_memory R51, 40_host_access R113, 41_engine_events R135);
what a host operation changes while a transfer runs (20_memory R59, 60_exceptions R203). -/

namespace Sys2Proof.Machine

/-! ### Buffer memory -/

/-- An operation other than MWR and EV_RX leaves buffer memory alone. -/
theorem exec_mem_of_no_store {i : Instr} {s t : State} (h : exec i s = .next t) (hmwr : ∀ a v, i ≠ .mwr a v)
    (hrx : i ≠ .evRx) : t.mem = s.mem := by
  have gated {f : State → State} (hf : (f s).mem = s.mem) : (s.hostWrite f).mem = s.mem :=
    hostWrite_keeps (P := fun x => x.mem = s.mem) rfl fun _ => hf
  cases i
  case mwr a v => exact absurd rfl (hmwr a v)
  case evRx => exact absurd rfl hrx
  case hwrCtlDisable => cases h; exact gated (State.periphReset_mem _)
  case hwrCtlEnable | hwrCtlGo | hwrTaddr | hwrSubaddr | hwrFlags | hwrCursor | hwrRemain => cases h; exact gated rfl
  case evTxAck =>
    obtain ⟨-, e⟩ | ⟨-, -, e⟩ | ⟨-, -, -, e⟩ | ⟨-, -, -, -, e⟩ | ⟨-, -, -, -, e⟩ := evTxAck_cases s <;>
      (cases e.symm.trans h; rfl)
  case evTxNack =>
    obtain ⟨-, e⟩ | ⟨-, e⟩ := evTxNack_cases s <;> cases e.symm.trans h
    · rfl
    · exact State.raiseFailure_mem s causeNack
  case evOther => cases h; exact State.raiseFailure_mem s causeBusError
  case wdtTickAbort => cases h; exact State.raiseFailure_mem s causeTimeout
  all_goals cases h; rfl

/-- EV_RX stores the byte of `DAT` at the cursor while bytes are wanted, and nothing otherwise (41_engine_events R135). -/
theorem evRx_mem_cases {s t : State} (h : exec .evRx s = .next t) :
    (s.bytesRemaining = 0 ∧ t.mem = s.mem) ∨
    (s.bytesRemaining ≠ 0 ∧ t.mem = (s.memWrite s.dataCursor s.dat).mem) := by
  obtain ⟨hr, e⟩ | ⟨hr, e⟩ | ⟨hr, -, -, e⟩ := evRx_cases s <;> cases e.symm.trans h
  · exact .inl ⟨hr, rfl⟩
  · exact .inr ⟨by simp [hr], rfl⟩
  · exact .inr ⟨hr, rfl⟩

/-- What any operation does to buffer memory: nothing, or one store, by MWR or by EV_RX. -/
theorem exec_mem_cases {i : Instr} {s t : State} (h : exec i s = .next t) :
    ((∀ a v, i ≠ .mwr a v) ∧ (i = .evRx → s.bytesRemaining = 0) ∧ t.mem = s.mem) ∨
    (∃ a v, i = .mwr a v ∧ t.mem = (s.memWrite a v).mem) ∨
    (i = .evRx ∧ s.bytesRemaining ≠ 0 ∧ t.mem = (s.memWrite s.dataCursor s.dat).mem) := by
  by_cases hrx : i = .evRx
  · subst hrx
    obtain ⟨hr, hm⟩ | ⟨hr, hm⟩ := evRx_mem_cases h
    · exact .inl ⟨nofun, fun _ => hr, hm⟩
    · exact .inr (.inr ⟨rfl, hr, hm⟩)
  · by_cases hmwr : ∃ a v, i = .mwr a v
    · obtain ⟨a, v, rfl⟩ := hmwr
      cases h
      exact .inr (.inl ⟨a, v, rfl, rfl⟩)
    · have noStore : ∀ a v, i ≠ .mwr a v := fun a v e => hmwr ⟨a, v, e⟩
      exact .inl ⟨noStore, fun e => absurd e hrx, exec_mem_of_no_store h noStore hrx⟩

/-- A byte of memory after a store: the byte stored at its own address, the old one at every other (20_memory R51). -/
theorem memRead_memWrite (s : State) (a b : Addr) (v : Byte) :
    (s.memWrite a v).memRead b = if b = a then v else s.memRead b := by
  split
  · next e => rw [e, memRead_memWrite_same]
  · next e => exact memRead_memWrite_other s a b v e

/-- Every operation keeps the canonical form of buffer memory, since a store does. -/
theorem exec_mem_wf {i : Instr} {s t : State} (hs : Memory.wf s.mem = true) (h : exec i s = .next t) :
    Memory.wf t.mem = true := by
  obtain ⟨-, -, hm⟩ | ⟨a, v, -, hm⟩ | ⟨-, -, hm⟩ := exec_mem_cases h <;> rw [hm]
  · exact hs
  · exact memWrite_wf s a v hs
  · exact memWrite_wf s s.dataCursor s.dat hs

/-! ### The host's operations while a transfer runs -/

/-- Every register write is dropped while `busy` = 1 (40_host_access R100); those of `DAT`, `STAT`, `COUNT` and the reserved
indices always are (R105, R111, R126). -/
theorem hostWrite_dropped_while_busy {i : Instr} {s t : State} (hi : isHostWrite i = true) (hb : s.busy = true)
    (h : exec i s = .next t) : t = s := by
  cases i
  case hwrCtlDisable | hwrCtlEnable | hwrCtlGo | hwrTaddr | hwrSubaddr | hwrFlags | hwrCursor | hwrRemain =>
    cases h
    exact hostWrite_busy s _ hb
  case hwrDat | hwrStat | hwrCount | hwrRsv => cases h; rfl
  all_goals cases hi

/-- A register read changes the register port's read data alone, in every state. -/
theorem hostRead_changes_only_rdata {i : Instr} {s t : State} (hi : isHostRead i = true) (h : exec i s = .next t) :
    t = { s with regRdata := t.regRdata } := by
  cases i
  case hrdCtl | hrdDat | hrdTaddr | hrdSubaddr | hrdFlags | hrdCursor | hrdRemain | hrdStat | hrdCount | hrdRsv => cases h; rfl
  all_goals cases hi

/-- A memory access of the host changes the memory port's read data and buffer memory alone, in every state. -/
theorem hostMem_changes_only_memory {i : Instr} {s t : State} (hi : isHostMem i = true) (h : exec i s = .next t) :
    t = { s with memRdata := t.memRdata, mem := t.mem } := by
  cases i
  case mrd | mwr => cases h; rfl
  all_goals cases hi

end Sys2Proof.Machine
end

section
/-! THEOREMS. The statements of the family 20_memory: the canonical form of both memories, who owns the state while a transfer runs,
and the memory frame of every operation. -/

namespace Sys2Proof.Machine

/-- Settles O56: a turn may write the mock target's memory and an operation may write buffer memory, and each write keeps the form. -/
theorem canonicalMemoryIsKept : Obligations.CanonicalMemoryIsKept := by
  intro s t hmem hee h
  have turnMem : Memory.wf (fetch s).2.mem = true := by rw [fetch_mem]; exact hmem
  have turnEe : (fetch s).2.ee.wf = true := fetch_target_wf s hee
  obtain rfl | ⟨c, i, -, -, he⟩ | ⟨st, l, k, -, rfl⟩ := step_word_cases h
  · exact ⟨turnMem, turnEe⟩
  · obtain ⟨-, eeKept⟩ := exec_windows_ee i he
    exact ⟨exec_mem_wf turnMem he, by rw [eeKept]; exact turnEe⟩
  · exact ⟨turnMem, turnEe⟩

/-- Settles O44, by the three kinds of host operation: a write is dropped, a read and a memory access change no more than that. -/
theorem engineOwnsTheStateWhileBusy : Obligations.EngineOwnsTheStateWhileBusy := by
  intro i s t hi hb h
  rw [Bool.or_eq_true, Bool.or_eq_true] at hi
  obtain (hw | hr) | hm := hi
  · rw [hostWrite_dropped_while_busy hw hb h]
  · rw [hostRead_changes_only_rdata hr h]
  · rw [hostMem_changes_only_memory hm h]

/-- Settles O45, from the cases of an operation's effect on buffer memory and what a byte reads as after a store. -/
theorem memoryFrameOfEveryOperation : Obligations.MemoryFrameOfEveryOperation := by
  intro i s t h b
  obtain ⟨notMwr, notWanted, hm⟩ | ⟨a, v, rfl, hm⟩ | ⟨rfl, wanted, hm⟩ := exec_mem_cases h
  · cases i
    case mwr a v => exact absurd rfl (notMwr a v)
    case evRx => exact (memRead_congr hm b).trans (if_neg fun hc => hc.1 (notWanted rfl)).symm
    all_goals exact memRead_congr hm b
  · exact (memRead_congr hm b).trans (memRead_memWrite s a b v)
  · simp only [memRead_congr hm b, memRead_memWrite, ne_eq, wanted, not_false_eq_true, true_and]

end Sys2Proof.Machine
end

section
/-! SUPPORT. The two directions between words and operations, one lemma per decoder of 30_encoding R71 to R77, each reading the
decoder on the encoder's word or the encoder on the decoder's operation. -/

namespace Sys2Proof.Machine

/-! ### Format HOST (R71) -/

theorem decode_hostRead (reg : BitVec 4) (wdata : Word16) :
    decode (.host (hostWord false reg wdata)) = .op (decodeHostRead reg wdata) :=
  congrArg Decoded.op (decodeHost_hostWord false reg wdata)

theorem decode_hostWrite (reg : BitVec 4) (wdata : Word16) :
    decode (.host (hostWord true reg wdata)) = .op (decodeHostWrite reg wdata) :=
  congrArg Decoded.op (decodeHost_hostWord true reg wdata)

theorem decodeHostRead_reserved {reg : BitVec 4} (h : reservedReg reg = true) (wdata : Word16) :
    decodeHostRead reg wdata = .hrdRsv reg wdata := by
  have h9 := (reservedReg_iff reg).mp h
  unfold decodeHostRead
  split
  case h_10 => rfl
  all_goals omega

theorem decodeHostWrite_reserved {reg : BitVec 4} (h : reservedReg reg = true) (wdata : Word16) :
    decodeHostWrite reg wdata = .hwrRsv reg wdata := by
  have h9 := (reservedReg_iff reg).mp h
  unfold decodeHostWrite
  split
  case h_10 => rfl
  all_goals omega

/-- The writes of `CTL`: the bits of `WDATA` that well-formedness fixes are those the decoder chooses by. -/
theorem decodeHostWrite_ctl {i : Instr} {wdata : Word16} (wf : i.wellFormed = true)
    (hi : i = .hwrCtlDisable wdata ∨ i = .hwrCtlEnable wdata ∨ i = .hwrCtlGo wdata) : decodeHostWrite 0 wdata = i := by
  change decodeCtlWrite wdata = i
  obtain rfl | rfl | rfl := hi
  · have off : wdata.getLsbD 7 = false := by simpa [Instr.wellFormed] using wf
    simp only [decodeCtlWrite, off, Bool.false_eq_true, if_false]
  · obtain ⟨on, noGo⟩ : wdata.getLsbD 7 = true ∧ wdata.getLsbD 5 = false := by simpa [Instr.wellFormed] using wf
    simp only [decodeCtlWrite, on, noGo, Bool.false_eq_true, if_true, if_false]
  · obtain ⟨on, go⟩ : wdata.getLsbD 7 = true ∧ wdata.getLsbD 5 = true := by simpa [Instr.wellFormed] using wf
    simp only [decodeCtlWrite, on, go, if_true]

theorem encode_decodeHostRead (reg : BitVec 4) (wdata : Word16) :
    encode (decodeHostRead reg wdata) = .host (hostWord false reg wdata) := by
  unfold decodeHostRead
  split
  case h_10 => rfl
  all_goals
    next h => rw [(BitVec.toNat_eq_nat.mp h).2]; rfl

theorem encode_decodeCtlWrite (wdata : Word16) : encode (decodeCtlWrite wdata) = .host (hostWord true 0 wdata) := by
  unfold decodeCtlWrite
  split
  · split <;> rfl
  · rfl

theorem encode_decodeHostWrite (reg : BitVec 4) (wdata : Word16) :
    encode (decodeHostWrite reg wdata) = .host (hostWord true reg wdata) := by
  unfold decodeHostWrite
  split
  case h_1 h => rw [(BitVec.toNat_eq_nat.mp h).2]; exact encode_decodeCtlWrite wdata
  case h_10 => rfl
  all_goals
    next h => rw [(BitVec.toNat_eq_nat.mp h).2]; rfl

theorem encode_decodeHost (w : BitVec 21) : encode (decodeHost w) = .host w := by
  conv_rhs => rw [← hostWord_fields w]
  unfold decodeHost
  split
  · next h => rw [h, encode_decodeHostWrite]
  · next h => rw [Bool.eq_false_iff.mpr h, encode_decodeHostRead]

/-! ### Formats HMEM and STATUS (R72, R73) -/

theorem encode_decodeHmem (w : BitVec 25) : encode (decodeHmem w) = .hmem w := by
  conv_rhs => rw [← hmemWord_fields w]
  unfold decodeHmem
  split
  · next h => rw [h]; rfl
  · next h => rw [Bool.eq_false_iff.mpr h]; rfl

/-- The codes the table lists, in the order of 30_encoding R74. -/
theorem decodeStatusCode_eq (code : BitVec 3) :
    decodeStatusCode code =
      if code = 1 then .evStart else if code = 2 then .evTxAck else if code = 3 then .evTxNack else if code = 4 then .evRx
      else .evOther code := by
  revert code; decide

/-- Under the mask of a STATUS row, bits 5:3 left out, an enabled word is its code. -/
theorem statusRow_iff {w : BitVec 8} (h : w &&& 0xC0#8 = 0xC0#8) (code : BitVec 3) :
    w &&& 0xC7#8 = 0b11000#5 ++ code ↔ w.extractLsb' 0 3 = code := by
  revert w code; decide

theorem decodeStatus_statusWord (code : BitVec 3) : decodeStatus (0b11000#5 ++ code) = .op (decodeStatusCode code) := by
  revert code; decide

theorem decodeStatusCode_other {code : BitVec 3} (h : otherStatus code = true) : decodeStatusCode code = .evOther code := by
  revert code; decide

/-! ### Format LINE (R75) -/

/-- The rows of the nominal line unit: operation, mask and match. -/
def nominalRows (b : Byte) (a : Ack) : List (Instr × BitVec 8 × BitVec 8) :=
  [(.luAck, 0xE0#8, 0xA0#8), (.luStop, 0xF0#8, 0x90#8), (.luStart, 0xF8#8, 0x88#8), (.luRxbyte b, 0xFE#8, 0x86#8),
    (.luTxbyte .addressByte a, 0xFF#8, 0x83#8), (.luTxbyte .otherByte a, 0xFF#8, 0x85#8)]

/-- Why two rows are disjoint: under the bits both look at, their matches differ. -/
theorem not_in_row {w m p m' p' : BitVec 8} (h : w &&& m = p) (hm : m &&& m' = m') (hp : p &&& m' ≠ p') : w &&& m' ≠ p' := by
  rw [← hm, ← BitVec.and_assoc, h]
  exact hp

/-- The decoder takes the row a word lies in: each row looks at all the bits of the rows before it, and differs from them there. -/
theorem decodeLineNominal_of_row {w : BitVec 8} {b : Byte} {a : Ack} {i : Instr} {m p : BitVec 8}
    (hi : (i, m, p) ∈ nominalRows b a) (h : w &&& m = p) : decodeLineNominal w b a = .op i := by
  simp only [nominalRows, List.mem_cons, List.not_mem_nil, or_false, Prod.mk.injEq] at hi
  unfold decodeLineNominal
  obtain ⟨rfl, rfl, rfl⟩ | ⟨rfl, rfl, rfl⟩ | ⟨rfl, rfl, rfl⟩ | ⟨rfl, rfl, rfl⟩ | ⟨rfl, rfl, rfl⟩ | ⟨rfl, rfl, rfl⟩ := hi
  · rw [if_pos h]
  · rw [if_neg (not_in_row h (by decide) (by decide)), if_pos h]
  · rw [if_neg (not_in_row h (by decide) (by decide)), if_neg (not_in_row h (by decide) (by decide)), if_pos h]
  · rw [if_neg (not_in_row h (by decide) (by decide)), if_neg (not_in_row h (by decide) (by decide)),
      if_neg (not_in_row h (by decide) (by decide)), if_pos h]
  · obtain rfl : w = 0x83#8 := by rw [← h]; exact BitVec.and_allOnes.symm
    rfl
  · obtain rfl : w = 0x85#8 := by rw [← h]; exact BitVec.and_allOnes.symm
    rfl

end Sys2Proof.Machine
end

section
/-! SUPPORT. The words of the pseudo-operations and macros (30_encoding R83, 43_public_api R170 to R174), and the expansion of
WRITEBUF block by block. -/

namespace Sys2Proof.Machine

/-- Writing a byte to a register of 16 bits: the upper half of `WDATA` is 0. -/
theorem hwr_byte (reg : BitVec 4) (v : Byte) : hwr reg (v.setWidth 16) = .reg (1#1 ++ reg ++ 0#8 ++ v) := by
  have zeroHigh : v.setWidth 16 = 0#8 ++ v := BitVec.setWidth_eq_append (by decide)
  rw [hwr, zeroHigh, hostWord, BitVec.append_assoc (x₁ := 1#1 ++ reg)]
  rfl

/-- The words of a transfer, whatever it is filled with. -/
theorem apiTransfer_eq (fill : List HostCmd) (t s f : Byte) (c : Addr) (n : Byte) :
    apiTransfer fill t s f c n =
      .wait :: (fill ++ [.reg (1#1 ++ 2#4 ++ 0#8 ++ t), .reg (1#1 ++ 3#4 ++ 0#8 ++ s), .reg (1#1 ++ 4#4 ++ 0#8 ++ f),
        .reg (1#1 ++ 5#4 ++ c), .reg (1#1 ++ 6#4 ++ 0#8 ++ n), .reg 0x1000A0, .wait]) := by
  simp only [apiTransfer, hwr_byte, apiWait, apiGo, List.append_assoc, List.cons_append, List.nil_append]
  rfl

theorem apiTransfer_length (fill : List HostCmd) (t s f : Byte) (c : Addr) (n : Byte) :
    (apiTransfer fill t s f c n).length = fill.length + 8 := by
  simp [apiTransfer_eq]

/-- WRITEBUF of `k + 1` bytes is a transfer of one byte, then WRITEBUF of the rest. -/
theorem apiWriteBuf_succ (t s : Byte) (a : Addr) (k : Nat) :
    apiWriteBuf t s a (k + 1) = apiTransfer [] t s writeFlags a 1 ++ apiWriteBuf t (s + 1) (a + 1) k := rfl

theorem apiWriteBuf_drop_block (t s : Byte) (a : Addr) (k : Nat) :
    (apiWriteBuf t s a (k + 1)).drop 8 = apiWriteBuf t (s + 1) (a + 1) k := by
  rw [apiWriteBuf_succ]
  exact List.drop_left' (apiTransfer_length ..)

theorem apiWriteBuf_length (t s : Byte) (a : Addr) (k : Nat) : (apiWriteBuf t s a k).length = 8 * k := by
  induction k generalizing s a with
  | zero => rfl
  | succ k ih =>
    rw [apiWriteBuf_succ, List.length_append, apiTransfer_length, ih, List.length_nil]
    omega

/-- After `j` blocks of WRITEBUF what is left is the WRITEBUF of the rest, the sub-address modulo 256 and the buffer modulo 2^16. -/
theorem apiWriteBuf_drop_blocks (t s : Byte) (a : Addr) (j k : Nat) :
    (apiWriteBuf t s a (k + j)).drop (8 * j) = apiWriteBuf t (s + BitVec.ofNat 8 j) (a + BitVec.ofNat 16 j) k := by
  induction j generalizing k with
  | zero => simp
  | succ j ih =>
    rw [Nat.mul_succ, ← List.drop_drop, show k + (j + 1) = k + 1 + j by omega, ih, apiWriteBuf_drop_block, BitVec.add_assoc,
      BitVec.add_assoc, BitVec.ofNat_add, BitVec.ofNat_add]
    rfl

/-- Block `j` of WRITEBUF is a transfer of one byte, before the blocks that follow it. -/
theorem apiWriteBuf_block (t s : Byte) (a : Addr) {j k : Nat} (hj : j < k) :
    (apiWriteBuf t s a k).drop (8 * j) =
      apiTransfer [] t (s + BitVec.ofNat 8 j) writeFlags (a + BitVec.ofNat 16 j) 1 ++
        (apiWriteBuf t s a k).drop (8 * (j + 1)) := by
  obtain ⟨r, rfl⟩ : ∃ r, k = r + 1 + j := ⟨k - (j + 1), by omega⟩
  rw [Nat.mul_succ, ← List.drop_drop, apiWriteBuf_drop_blocks, apiWriteBuf_drop_block, apiWriteBuf_succ]

end Sys2Proof.Machine
end

section
/-! THEOREMS. The statements of the family 30_encoding: the round trips between words and operations, the rows of the formats, and
the expansions of the macros. -/

namespace Sys2Proof.Machine

/-- Settles O32, by the operation: its decoder reads the fields of the encoder's word, and well-formedness fixes the row. -/
theorem decodeOfEncodeIsTheOperation : Obligations.DecodeOfEncodeIsTheOperation := by
  intro i wf
  cases i
  case hrdRsv reg wdata => rw [encode, decode_hostRead, decodeHostRead_reserved wf]
  case hwrRsv reg wdata => rw [encode, decode_hostWrite, decodeHostWrite_reserved wf]
  case hwrCtlDisable wdata | hwrCtlEnable wdata | hwrCtlGo wdata => rw [encode, decode_hostWrite, decodeHostWrite_ctl wf (by simp)]
  case hrdCtl w | hrdDat w | hrdTaddr w | hrdSubaddr w | hrdFlags w | hrdCursor w | hrdRemain w | hrdStat w | hrdCount w =>
    exact decode_hostRead _ w
  case hwrDat w | hwrTaddr w | hwrSubaddr w | hwrFlags w | hwrCursor w | hwrRemain w | hwrStat w | hwrCount w =>
    exact decode_hostWrite _ w
  case mrd addr data | mwr addr data => rw [encode, decode, decodeHmem_hmemWord]; rfl
  case evOther code => rw [encode, decode, decodeStatus_statusWord, decodeStatusCode_other wf]
  case luTxbyte row a => cases row <;> rfl
  case evStart | evTxAck | evTxNack | evRx => rfl
  case luAck | luStop | luStart | luRxbyte | luFault => rfl
  case wdtTickIdle | wdtTickCount | wdtTickAbort | reset => rfl

/-- Settles O33, by decoding the word: the answer is well formed, and the encoder puts the word's fields together again. -/
theorem encodeOfDecodeIsTheWord : Obligations.EncodeOfDecodeIsTheWord :=
  ⟨fun w => ⟨decodeHost w, rfl, decodeHost_wellFormed w, encode_decodeHost w⟩,
    fun w => ⟨decodeHmem w, rfl, decodeHmem_wellFormed w, encode_decodeHmem w⟩⟩

/-- Settles O34, by the lemma of each format. -/
theorem decodedOperationsAreWellFormed : Obligations.DecodedOperationsAreWellFormed :=
  fun _ _ h => decode_wellFormed h

/-- Settles O60, from the words of a transfer and, for WRITEBUF, what is left of it after `j` blocks. -/
theorem macroExpansions : Obligations.MacroExpansions := by
  intro t s v a n k
  refine ⟨rfl, rfl, rfl, rfl, apiTransfer_eq .., apiTransfer_eq .., rfl, apiWriteBuf_length t s a k, fun j hj => ?_⟩
  rw [apiWriteBuf_block t s a hj, apiTransfer_eq]
  rfl

/-- Settles O29, by the enabling bits and then the rows of the codes. -/
theorem statusWordsSelectTheEvent : Obligations.StatusWordsSelectTheEvent := by
  intro w
  rw [decode, decodeStatus, decodeStatusCode_eq]
  by_cases enabled : w &&& 0xC0#8 = 0xC0#8
  · have start : w &&& 0xC7#8 = 0xC1#8 ↔ w.extractLsb' 0 3 = 1 := statusRow_iff enabled 1
    have txAck : w &&& 0xC7#8 = 0xC2#8 ↔ w.extractLsb' 0 3 = 2 := statusRow_iff enabled 2
    have txNack : w &&& 0xC7#8 = 0xC3#8 ↔ w.extractLsb' 0 3 = 3 := statusRow_iff enabled 3
    have rx : w &&& 0xC7#8 = 0xC4#8 ↔ w.extractLsb' 0 3 = 4 := statusRow_iff enabled 4
    rw [if_pos enabled, if_neg (not_not_intro enabled)]
    simp only [start, txAck, txNack, rx, apply_ite Decoded.op]
  · rw [if_neg enabled, if_pos enabled]

/-- Settles O30: the decoder answers the operation of each row the word lies in, so the two are one. -/
theorem lineRowsAreDisjoint : Obligations.LineRowsAreDisjoint := by
  rintro w b a i j - - ⟨m, p, hi, hw⟩ ⟨m', p', hj, hw'⟩
  have decodesI := decodeLineNominal_of_row hi hw
  have decodesJ := decodeLineNominal_of_row hj hw'
  exact ⟨Decoded.op.inj (decodesI.symm.trans decodesJ), decodesI⟩

/-- Settles O31, by running the decoders on the words. -/
theorem sampleWordsDecode : Obligations.SampleWordsDecode :=
  ⟨rfl, rfl, rfl, rfl, rfl, rfl, rfl, rfl⟩

end Sys2Proof.Machine
end

section
/-! SUPPORT. The host's register and memory ports: what each word of 40_host_access selects and what its operation answers, the
register views on the read data (10_state R34 to R42), and the host's discipline (93 U3, U4, U6, U16) operation by operation. -/

namespace Sys2Proof.Machine

/-! ### What the words select (30_encoding R71, R72) -/

/-- A reserved index is one from 9 on, as `reservedReg` reads the comparison. -/
theorem reservedReg_of_le {reg : BitVec 4} (h : 9#4 ≤ reg) : reservedReg reg = true := decide_eq_true h

theorem decode_hmemRead (a : Addr) (d : Byte) : decode (.hmem (hmemWord false a d)) = .op (.mrd a d) :=
  congrArg Decoded.op (decodeHmem_hmemWord false a d)

theorem decode_hmemWrite (a : Addr) (v : Byte) : decode (.hmem (hmemWord true a v)) = .op (.mwr a v) :=
  congrArg Decoded.op (decodeHmem_hmemWord true a v)

/-- A write of `CTL` selects the one of its three operations whose bits of `WDATA` it has. -/
theorem decode_ctlWrite {i : Instr} {wdata : Word16} (wf : i.wellFormed = true)
    (hi : i = .hwrCtlDisable wdata ∨ i = .hwrCtlEnable wdata ∨ i = .hwrCtlGo wdata) :
    decode (.host (hostWord true 0 wdata)) = .op i :=
  (decode_hostWrite 0 wdata).trans (congrArg Decoded.op (decodeHostWrite_ctl wf hi))

/-! ### The register views on the 16 bits of the read data -/

theorem hostRead8_eq (s : State) (v : Byte) : s.hostRead8 v = { s with regRdata := 0#8 ++ v } := by
  have zeroHigh : v.setWidth 16 = 0#8 ++ v := BitVec.setWidth_eq_append (by decide)
  rw [State.hostRead8, zeroHigh]

/-- A field at the low end of a view may be split off after the bits above the view are put on. -/
theorem append_extend {m n k : Nat} {z : BitVec m} {x : BitVec n} {l : BitVec (m + n)} (y : BitVec k) (h : z ++ x = l) :
    z ++ (x ++ y) = (l ++ y).cast (Nat.add_assoc m n k) := by
  rw [← h, BitVec.append_assoc, BitVec.cast_cast, BitVec.cast_eq]

/-- A read whose operation shows an 8-bit view answers with that view's bits under eight zeros. -/
theorem read_answers {i : Instr} {s : State} {v : Byte} {x : Word16} (h : exec i s = .next (s.hostRead8 v)) (hx : 0#8 ++ v = x) :
    exec i s = .next { s with regRdata := x } := by
  rw [h, hostRead8_eq, hx]

theorem zeroHigh_ctlView (s : State) :
    0#8 ++ s.ctlView = 0#8 ++ bit s.en ++ bit s.si ++ bit s.sta ++ bit s.sto ++ bit s.ackrq ++ s.status :=
  append_extend _ (append_extend _ (append_extend _ (append_extend _ (append_extend _ rfl))))

theorem zeroHigh_taddrView (s : State) : 0#8 ++ s.taddrView = 0#8 ++ s.targetAddress ++ 0#1 := append_extend _ rfl

theorem zeroHigh_flagsView (s : State) :
    0#8 ++ s.flagsView = 0#8 ++ 0#4 ++ bit s.ackPollOnAddressNack ++ bit s.repeatedStartForRead ++ bit s.sendSubAddress ++
      bit s.direction :=
  append_extend _ (append_extend _ (append_extend _ (append_extend _ rfl)))

theorem zeroHigh_statView (s : State) :
    0#8 ++ s.statView = 0#8 ++ s.result ++ s.fsm ++ bit s.sendStartNext ++ bit s.busy :=
  append_extend _ (append_extend _ (append_extend _ rfl))

/-- HRD.STAT (40_host_access R123), which WAIT repeats (R127). -/
theorem exec_hrdStat (w : Word16) (s : State) :
    exec (.hrdStat w) s = .next { s with regRdata := 0#8 ++ s.result ++ s.fsm ++ bit s.sendStartNext ++ bit s.busy } :=
  read_answers rfl (zeroHigh_statView s)

/-! ### What the operations answer -/

/-- No operation stops the machine (41_engine_events R141, 60_exceptions R200). -/
theorem exec_answers (i : Instr) (s : State) : ∃ t, exec i s = .next t := by
  cases i <;> exact ⟨_, rfl⟩

/-- A register write while `busy` = 1 answers the state it found (40_host_access R100). -/
theorem exec_hostWrite_busy {i : Instr} {s : State} (hi : isHostWrite i = true) (hb : s.busy = true) : exec i s = .next s := by
  obtain ⟨t, ht⟩ := exec_answers i s
  rw [ht, hostWrite_dropped_while_busy hi hb ht]

/-- A register read is performed in every state and moves the read data alone (40_host_access R100, 20_memory R55). -/
theorem exec_hostRead {i : Instr} (s : State) (hi : isHostRead i = true) : ∃ v, exec i s = .next { s with regRdata := v } := by
  obtain ⟨t, ht⟩ := exec_answers i s
  exact ⟨t.regRdata, ht.trans (congrArg _ (hostRead_changes_only_rdata hi ht))⟩

/-! ### The caller errors, operation by operation (log 19) -/

theorem callerError_hostWrite_busy {i : Instr} {s : State} (hi : isHostWrite i = true) (hb : s.busy = true) :
    callerError i s = some .writeWhileBusy := by
  simp only [callerError, hi, hb, Bool.and_self, if_true]

theorem hangingFlags_iff (s : State) :
    s.hangingFlags = true ↔ s.sendSubAddress = true ∧ s.repeatedStartForRead = false ∧ s.direction = true := by
  simp [State.hangingFlags, and_assoc]

theorem callerError_go {s : State} (w : Word16) (hb : s.busy = false) :
    callerError (.hwrCtlGo w) s =
      if s.sendSubAddress = true ∧ s.repeatedStartForRead = false ∧ s.direction = true then some .hangingFlags else none := by
  simp only [callerError, hb, Bool.and_false, Bool.false_eq_true, if_false, hangingFlags_iff]

theorem callerError_remain {s : State} (w : Word16) (hb : s.busy = false) :
    callerError (.hwrRemain w) s = if 255 < w.toNat then some .lengthAbove255 else none := by
  simp only [callerError, hb, Bool.and_false, Bool.false_eq_true, if_false]

/-- The other register writes break no rule while `busy` = 0. -/
theorem callerError_other_write {i : Instr} {s : State} (hi : isHostWrite i = true) (hb : s.busy = false)
    (notGo : ∀ w, i ≠ .hwrCtlGo w) (notRemain : ∀ w, i ≠ .hwrRemain w) : callerError i s = none := by
  have gateOpen : ¬(isHostWrite i && s.busy) = true := by simp [hb]
  cases i
  case hwrCtlGo w => exact absurd rfl (notGo w)
  case hwrRemain w => exact absurd rfl (notRemain w)
  case mrd | mwr => cases hi
  all_goals exact if_neg gateOpen

/-- The host's memory accesses are bound by the noted buffers alone, whatever `busy` is. -/
theorem callerError_hostMem {i : Instr} (s : State) {a : Addr} {d : Byte} (hi : i = .mrd a d ∨ i = .mwr a d) :
    callerError i s =
      if ∃ w ∈ s.windows, ∃ k < w.len.toNat, a = w.base + BitVec.ofNat 16 k then some .bufferOfRunningTransfer else none := by
  obtain rfl | rfl := hi
  all_goals exact (if_neg Bool.false_ne_true).trans (if_congr (inWindow_iff s a) rfl rfl)

/-- Only the host's writes and its memory accesses can break its discipline. -/
theorem callerError_of_not_host {i : Instr} {s : State} (hw : isHostWrite i = false) (hm : isHostMem i = false) :
    callerError i s = none := by
  have gateOpen : ¬(isHostWrite i && s.busy) = true := by simp [hw]
  cases i
  case hwrCtlGo | hwrRemain => cases hw
  case mrd | mwr => cases hm
  all_goals exact if_neg gateOpen

/-! ### The program-level step -/

theorem strictStep_refuses {s : State} {c : Code} {i : Instr} {e : CallerError} (hw : (fetch s).1 = .word c)
    (hd : decode c = .op i) (he : callerError i (fetch s).2 = some e) : strictStep s = .refused (.callerError e) := by
  simp only [strictStep, turnError, hw, hd, he]

theorem turnError_eq_none {t : Turn} {s : State} (h : ∀ c i, t = .word c → decode c = .op i → callerError i s = none) :
    turnError t s = none := by
  cases t with
  | pass => rfl
  | free => rfl
  | word c =>
    cases hd : decode c with
    | op i => simp only [turnError, hd, h c i rfl hd]
    | none r => simp only [turnError, hd]

theorem strictStep_eq_step {s : State}
    (h : ∀ c i, (fetch s).1 = .word c → decode c = .op i → callerError i (fetch s).2 = none) : strictStep s = step s := by
  simp only [strictStep, turnError_eq_none h]

/-! ### The noted buffers (log 12) -/

/-- A step leaves the noted buffers as the turn did: no operation touches them. -/
theorem step_windows {s t : State} (h : step s = .next t) : t.windows = (fetch s).2.windows := by
  obtain rfl | ⟨c, i, -, -, he⟩ | ⟨st, l, k, -, rfl⟩ := step_word_cases h
  · rfl
  · exact (exec_windows_ee i he).1
  · rfl

/-- Only the host's turn notes buffers. -/
theorem fetch_windows_of_not_host {s : State} (h : ∀ rest, s.inputs ≠ .host :: rest) : (fetch s).2.windows = s.windows := by
  unfold fetch
  split
  · rfl
  · next rest hi => exact absurd hi (h rest)
  · unfold State.engineTurn; split <;> rfl
  · unfold State.lineTurn
    split
    · rfl
    · split <;> rfl
  · unfold State.faultTurn; split <;> rfl
  · unfold State.freeTurn; split <;> rfl
  · unfold State.tickTurn; split <;> rfl
  · rfl

/-- A turn that changes the noted buffers is the host's, with a register word or WAIT to issue. -/
theorem fetch_windows_changed {s : State} (h : (fetch s).2.windows ≠ s.windows) :
    (∃ rest, s.inputs = .host :: rest) ∧ ((∃ w prog, s.hostProg = .reg w :: prog) ∨ ∃ prog, s.hostProg = .wait :: prog) := by
  have hostTurn : ∃ rest, s.inputs = .host :: rest := by
    by_contra notHost
    exact h (fetch_windows_of_not_host fun rest hi => notHost ⟨rest, hi⟩)
  obtain ⟨rest, hi⟩ := hostTurn
  refine ⟨⟨rest, hi⟩, ?_⟩
  cases hp : s.hostProg with
  | nil => exact absurd (by rw [fetch_host_nil hi hp]) h
  | cons c prog =>
    cases c with
    | reg w => exact .inl ⟨w, prog, rfl⟩
    | mem w => exact absurd (by rw [fetch_host_mem hi hp]) h
    | wait => exact .inr ⟨prog, rfl⟩

end Sys2Proof.Machine
end

section
/-! THEOREMS. The statements of the family 40_host_access: the host's register writes and reads, its accesses to buffer memory,
WAIT, and the program-level step. -/

namespace Sys2Proof.Machine

/-- Settles O8, from what a byte of memory reads as after a store. -/
theorem memoryWriteSetsOneByte : Obligations.MemoryWriteSetsOneByte := by
  intro s a v
  exact ⟨decode_hmemWrite a v, (s.memWrite a v).mem, rfl, memRead_memWrite_same s a v,
    fun b hb => memRead_memWrite_other s a b v hb⟩

/-- Settles O9: the read answers what the write of the same address stored. -/
theorem memoryReadReturnsTheByte : Obligations.MemoryReadReturnsTheByte := by
  intro s a v d
  exact ⟨decode_hmemRead a d, rfl, s.memWrite a v, _, rfl, rfl, memRead_memWrite_same s a v⟩

/-- Settles O1, register by register: the row of the decoder, then the view on the read data. -/
theorem hostReadsReturnTheirView : Obligations.HostReadsReturnTheirView := by
  intro s w reg
  refine ⟨⟨decode_hostRead 0 w, ?ctl⟩, ⟨decode_hostRead 1 w, ?dat⟩, ⟨decode_hostRead 2 w, ?taddr⟩,
    ⟨decode_hostRead 3 w, ?subaddr⟩, ⟨decode_hostRead 4 w, ?flags⟩, ⟨decode_hostRead 5 w, ?cursor⟩,
    ⟨decode_hostRead 6 w, ?remain⟩, ⟨decode_hostRead 7 w, ?stat⟩, ⟨decode_hostRead 8 w, ?count⟩, fun h => ?reservedRow, ?reserved⟩
  case ctl => exact read_answers rfl (zeroHigh_ctlView s)
  case taddr => exact read_answers rfl (zeroHigh_taddrView s)
  case flags => exact read_answers rfl (zeroHigh_flagsView s)
  case stat => exact exec_hrdStat w s
  case dat | subaddr | remain | count => exact read_answers rfl rfl
  case cursor | reserved => rfl
  case reservedRow => exact (decode_hostRead reg w).trans (congrArg _ (decodeHostRead_reserved (reservedReg_of_le h) w))

/-- Settles O2, from the gate of R100 and the frame of the reads. -/
theorem hostWritesDropWhileBusy : Obligations.HostWritesDropWhileBusy :=
  ⟨fun _ _ hi hb => ⟨exec_hostWrite_busy hi hb, callerError_hostWrite_busy hi hb⟩,
    fun _ s hi => exec_hostRead s hi,
    fun _ _ _ hw hd hi hb => strictStep_refuses hw hd (callerError_hostWrite_busy hi hb)⟩

/-- Settles O3: behind the gate of R100 stands the internal reset, with `EN` cleared. -/
theorem ctlDisableResetsTheController : Obligations.CtlDisableResetsTheController := by
  intro s w
  refine ⟨fun off => decode_ctlWrite (by simpa [Instr.wellFormed] using off) (.inl rfl), ?_⟩
  have gated : exec (.hwrCtlDisable w) s = .next (if s.busy = true then s else (s.setEn false).periphReset) := rfl
  rw [gated, periphReset_eq]
  rfl

/-- Settles O4: the row of the decoder, and the gate of R100. -/
theorem ctlEnableSetsEnOnly : Obligations.CtlEnableSetsEnOnly := by
  intro s w
  exact ⟨fun on noGo => decode_ctlWrite (by simpa [Instr.wellFormed] using And.intro on noGo) (.inr (.inl rfl)), rfl⟩

/-- Settles O5: the row of the decoder, and the gate of R100. -/
theorem ctlGoStartsATransfer : Obligations.CtlGoStartsATransfer := by
  intro s w
  exact ⟨fun on go => decode_ctlWrite (by simpa [Instr.wellFormed] using And.intro on go) (.inr (.inr rfl)), rfl⟩

/-- Settles O6, register by register: the row of the decoder, and the gate of R100. -/
theorem setUpWritesStoreTheirField : Obligations.SetUpWritesStoreTheirField := by
  intro s w
  exact ⟨⟨decode_hostWrite 2 w, rfl⟩, ⟨decode_hostWrite 3 w, rfl⟩, ⟨decode_hostWrite 4 w, rfl⟩, ⟨decode_hostWrite 5 w, rfl⟩,
    ⟨decode_hostWrite 6 w, rfl⟩⟩

/-- Settles O7, register by register: the operations of these rows are the identity. -/
theorem readOnlyWritesAreIgnored : Obligations.ReadOnlyWritesAreIgnored := by
  intro s w reg
  refine ⟨⟨decode_hostWrite 1 w, rfl⟩, ⟨decode_hostWrite 7 w, rfl⟩, ⟨decode_hostWrite 8 w, rfl⟩, fun h => ?_, rfl⟩
  exact (decode_hostWrite reg w).trans (congrArg _ (decodeHostWrite_reserved (reservedReg_of_le h) w))

/-- Settles O37: WAIT's turn presents the read of `STAT`, and the read moves the read data alone. -/
theorem waitRepeatsReadingStat : Obligations.WaitRepeatsReadingStat := by
  intro s rest prog hi hp
  have readStat : decode (.host 0x070000#21) = .op (.hrdStat 0) := rfl
  rw [step_of_op (fetch_host_wait hi hp) readStat, exec_hrdStat]

/-- Settles O47, from the caller errors operation by operation and what a turn does to the noted buffers. -/
theorem strictStepRefusesCallerErrors : Obligations.StrictStepRefusesCallerErrors := by
  intro s
  refine ⟨fun _ _ _ => strictStep_refuses, strictStep_eq_step, fun _ => callerError_hostWrite_busy, callerError_go,
    callerError_remain, fun _ => callerError_other_write, fun _ _ => callerError_hostMem s (.inl rfl),
    fun _ _ => callerError_hostMem s (.inr rfl), fun _ => callerError_of_not_host,
    ?afterWord, ?afterWait, ?changed⟩
  case afterWord =>
    intro t w rest prog h hi hp
    rw [step_windows h, fetch_host_reg hi hp, windowsAfter_eq]
  case afterWait =>
    intro t rest prog h hi hp
    rw [step_windows h, fetch_host_wait hi hp]
  case changed =>
    intro t h changed
    rw [step_windows h] at changed
    exact fetch_windows_changed changed

end Sys2Proof.Machine
end

section
/-! SUPPORT. The rows of the STATUS words that select an event step (30_encoding R73, R74), and the event steps a sequence of them is
run by (41_engine_events R132 to R137). -/

namespace Sys2Proof.Machine

/-! ### What the STATUS words select -/

/-- A word in a row of the STATUS table is enabled, and its low bits are the row's code. -/
theorem statusRow_code {w : BitVec 8} {code : BitVec 3} (h : w &&& 0xC7#8 = 0b11000#5 ++ code) :
    w &&& 0xC0#8 = 0xC0#8 ∧ w.extractLsb' 0 3 = code := by
  have rowEnabled : ∀ c : BitVec 3, (0b11000#5 ++ c : BitVec 8) &&& 0xC0#8 = 0xC0#8 := by decide
  have masked : (w &&& 0xC7#8) &&& 0xC0#8 = 0xC0#8 := by rw [h, rowEnabled]
  have enabled : w &&& 0xC0#8 = 0xC0#8 := (BitVec.and_assoc w 0xC7#8 0xC0#8).symm.trans masked
  exact ⟨enabled, (statusRow_iff enabled code).mp h⟩

theorem decode_statusRow {w : BitVec 8} {code : BitVec 3} (h : w &&& 0xC7#8 = 0b11000#5 ++ code) :
    decode (.status w) = .op (decodeStatusCode code) := by
  obtain ⟨enabled, hc⟩ := statusRow_code h
  rw [decode, decodeStatus, if_pos enabled, hc]

/-- EV_OTHER carries the code of the word that selected it (log 13). -/
theorem decode_statusRow_other {w : BitVec 8} {code : BitVec 3} (ho : otherStatus code = true)
    (h : w &&& 0xC7#8 = 0b11000#5 ++ code) : decode (.status w) = .op (.evOther (w.extractLsb' 0 3)) := by
  rw [decode_statusRow h, decodeStatusCode_other ho, (statusRow_code h).2]

/-- The event steps are told apart by the `STATUS` they are enabled at (41_engine_events R130). -/
theorem event_of_enables {s : State} {i : Instr} (hi : isEvent i = true) (h : s.enables i) : i = decodeStatusCode s.status := by
  cases i
  case evStart | evTxAck | evTxNack | evRx => obtain ⟨-, hc⟩ := h; rw [hc]; rfl
  case evOther code => obtain ⟨-, rfl, ho⟩ := h; exact (decodeStatusCode_other ho).symm
  all_goals cases hi

theorem isEvent_decodeStatusCode (code : BitVec 3) : isEvent (decodeStatusCode code) = true := by
  revert code; decide

/-! ### What the steps answer -/

/-- EV_START loads the address byte (R132). -/
theorem exec_evStart (s : State) :
    exec .evStart s = .next { s with
      dat := s.addrByte
      luDatFull := true
      sta := false
      byteCount := 0
      fsm := if s.fsm = 3 then 3 else 1
      si := false } := rfl

section TxAck

variable {s : State}

/-- EV_TX_ACK, branch (a) (R133). -/
theorem exec_evTxAck_restart (hn : s.sendStartNext = true) : exec .evTxAck s = .next { s.txAckRestart with si := false } := by
  obtain ⟨-, e⟩ | ⟨h, -⟩ | ⟨h, -⟩ | ⟨h, -⟩ | ⟨h, -⟩ := evTxAck_cases s
  · exact e
  all_goals exact flag_conflict hn h

/-- EV_TX_ACK, branch (b). -/
theorem exec_evTxAck_subAddress (hn : s.sendStartNext = false) (hs : s.sendSubAddress = true) :
    exec .evTxAck s = .next { s.txAckSubAddress with si := false } := by
  obtain ⟨h, -⟩ | ⟨-, -, e⟩ | ⟨-, h, -⟩ | ⟨-, h, -⟩ | ⟨-, h, -⟩ := evTxAck_cases s
  · exact flag_conflict h hn
  · exact e
  all_goals exact flag_conflict hs h

/-- EV_TX_ACK, branch (d). -/
theorem exec_evTxAck_read (hn : s.sendStartNext = false) (hs : s.sendSubAddress = false) (hd : s.direction = true) :
    exec .evTxAck s = .next { s with fsm := 5, si := false } := by
  obtain ⟨h, -⟩ | ⟨-, h, -⟩ | ⟨-, -, -, e⟩ | ⟨-, -, h, -⟩ | ⟨-, -, h, -⟩ := evTxAck_cases s
  · exact flag_conflict h hn
  · exact flag_conflict h hs
  · exact e
  all_goals exact flag_conflict hd h

end TxAck

/-- Every event step ends with `SI` cleared (R137). -/
theorem event_clears_si {i : Instr} {s t : State} (hi : isEvent i = true) (h : exec i s = .next t) : t.si = false := by
  cases i
  case evStart | evTxAck | evTxNack | evRx | evOther => cases h; rfl
  all_goals cases hi

/-- Nothing stops the machine (41_engine_events R141, 60_exceptions R200). -/
theorem step_answers (s : State) : ∃ t, step s = .next t := by
  generalize hf : fetch s = p
  obtain ⟨turn, u⟩ := p
  cases turn with
  | pass => exact ⟨u, step_of_pass hf⟩
  | free st l k => exact ⟨_, step_of_free hf⟩
  | word c =>
    cases hd : decode c with
    | none r => exact ⟨u, step_of_noOp hf hd⟩
    | op i => rw [step_of_op hf hd]; exact exec_answers i u

end Sys2Proof.Machine
end

section
/-! SUPPORT. The shadow `fsm` under the operations whose row in the table of 41_engine_events R140 has a condition. -/

namespace Sys2Proof.Machine

theorem evTxAck_fsm {s t : State} (h : exec .evTxAck s = .next t) :
    t.fsm =
      if s.sendStartNext = true then 3
      else if s.sendSubAddress = true then 2
      else if s.direction = true then 5
      else if s.bytesRemaining = 0 then 0 else 4 := by
  obtain ⟨hn, e⟩ | ⟨hn, hs, e⟩ | ⟨hn, hs, hd, e⟩ | ⟨hn, hs, hd, hr, e⟩ | ⟨hn, hs, hd, hr, e⟩ := evTxAck_cases s <;>
    cases e.symm.trans h
  · rw [if_pos hn]; rfl
  · rw [if_neg (by simp [hn]), if_pos hs]; rfl
  · rw [if_neg (by simp [hn]), if_neg (by simp [hs]), if_pos hd]; rfl
  · rw [if_neg (by simp [hn]), if_neg (by simp [hs]), if_neg (by simp [hd]), if_neg hr]; rfl
  · rw [if_neg (by simp [hn]), if_neg (by simp [hs]), if_neg (by simp [hd]), if_pos hr]; rfl

theorem evTxNack_fsm {s t : State} (h : exec .evTxNack s = .next t) :
    t.fsm = if s.ackPollOnAddressNack = true then 1 else 6 := by
  obtain ⟨ha, e⟩ | ⟨ha, e⟩ := evTxNack_cases s <;> cases e.symm.trans h
  · rw [if_pos ha]
  · rw [if_neg (by simp [ha])]; rfl

theorem evRx_fsm {s t : State} (h : exec .evRx s = .next t) : t.fsm = if t.bytesRemaining = 0 then 0 else s.fsm := by
  obtain ⟨hr, e⟩ | ⟨hr, e⟩ | ⟨-, -, hr, e⟩ := evRx_cases s <;> cases e.symm.trans h
  · exact (if_pos hr).symm
  · exact (if_pos (by simp [hr])).symm
  · exact (if_neg hr).symm

/-- GO sets `fsm` where it starts a transfer (40_host_access R104). -/
theorem go_fsm {w : Word16} {s t : State} (h : exec (.hwrCtlGo w) s = .next t) :
    t.fsm = if s.busy = true then s.fsm else 1 := by
  cases h
  obtain ⟨hb, e⟩ | ⟨hb, e⟩ := hostWrite_cases s State.startTransfer <;> rw [e]
  · rw [if_pos hb]
  · rw [if_neg (by simp [hb])]; rfl

end Sys2Proof.Machine
end

section
/-! SUPPORT. The request bits `STA`, `STO` and `ACKRQ` under each operation (41_engine_events R138). -/

namespace Sys2Proof.Machine

/-- The request bits, in the order of `CTL`. -/
def State.requests (s : State) : Bool × Bool × Bool := (s.sta, s.sto, s.ackrq)

/-- The steps that request a START: GO, the one-shot, the retry. -/
def requestsStart (i : Instr) (s : State) : Prop :=
  (∃ w, i = .hwrCtlGo w) ∨ (i = .evTxAck ∧ s.sendStartNext = true) ∨ (i = .evTxNack ∧ s.ackPollOnAddressNack = true)

/-- The steps that clear all three request bits: DISABLE, the failures, the watchdog abort, reset. -/
def clearsRequests (i : Instr) (s : State) : Prop :=
  (∃ w, i = .hwrCtlDisable w) ∨ (i = .evTxNack ∧ s.ackPollOnAddressNack = false) ∨ (∃ c, i = .evOther c) ∨
    i = .wdtTickAbort ∨ i = .reset

/-- What operation `i` may do to the request bits on its way from `s` to `t`. -/
inductive RequestsMove (i : Instr) (s t : State) : Prop
  | kept (bits : t.requests = s.requests)
  | startRequested (bits : t.requests = (true, s.sto, s.ackrq)) (writer : requestsStart i s)
  | startTaken (bits : t.requests = (false, s.sto, s.ackrq)) (writer : i = .evStart)
  | writeDone (bits : t.requests = (s.sta, true, s.ackrq)) (writer : i = .evTxAck ∧ t.busy = false)
  | readDone (bits : t.requests = (s.sta, true, false)) (writer : i = .evRx ∧ t.bytesRemaining = 0)
  | readGoesOn (bits : t.requests = (s.sta, s.sto, true)) (writer : i = .evRx ∧ t.bytesRemaining ≠ 0)
  | stopTaken (bits : t.requests = (s.sta, false, s.ackrq)) (writer : i = .luStop)
  | cleared (bits : t.requests = (false, false, false)) (writer : clearsRequests i s)

/-- Every operation that answers moves the request bits in one of these ways. -/
theorem exec_requests {i : Instr} {s t : State} (h : exec i s = .next t) : RequestsMove i s t := by
  cases i
  case hwrCtlDisable w =>
    cases h
    exact hostWrite_keeps (.kept rfl) fun _ => .cleared rfl (.inl ⟨w, rfl⟩)
  case hwrCtlGo w =>
    cases h
    exact hostWrite_keeps (.kept rfl) fun _ => .startRequested rfl (.inl ⟨w, rfl⟩)
  case hwrCtlEnable | hwrTaddr | hwrSubaddr | hwrFlags | hwrCursor | hwrRemain =>
    cases h
    exact hostWrite_keeps (.kept rfl) fun _ => .kept rfl
  case evStart => cases h; exact .startTaken rfl rfl
  case evTxAck =>
    obtain ⟨hn, e⟩ | ⟨-, -, e⟩ | ⟨-, -, -, e⟩ | ⟨-, -, -, -, e⟩ | ⟨-, -, -, -, e⟩ := evTxAck_cases s <;>
      cases e.symm.trans h
    · exact .startRequested rfl (.inr (.inl ⟨rfl, hn⟩))
    · exact .kept rfl
    · exact .kept rfl
    · exact .kept rfl
    · exact .writeDone rfl ⟨rfl, rfl⟩
  case evTxNack =>
    obtain ⟨ha, e⟩ | ⟨ha, e⟩ := evTxNack_cases s <;> cases e.symm.trans h
    · exact .startRequested rfl (.inr (.inr ⟨rfl, ha⟩))
    · exact .cleared rfl (.inr (.inl ⟨rfl, ha⟩))
  case evRx =>
    obtain ⟨hr, e⟩ | ⟨hr, e⟩ | ⟨-, -, hr, e⟩ := evRx_cases s <;> cases e.symm.trans h
    · exact .readDone rfl ⟨rfl, hr⟩
    · exact .readDone rfl ⟨rfl, by simp [hr]⟩
    · exact .readGoesOn rfl ⟨rfl, hr⟩
  case evOther code => cases h; exact .cleared rfl (.inr (.inr (.inl ⟨code, rfl⟩)))
  case luStop => cases h; exact .stopTaken rfl rfl
  case wdtTickAbort => cases h; exact .cleared rfl (.inr (.inr (.inr (.inl rfl))))
  case reset => cases h; exact .cleared rfl (.inr (.inr (.inr (.inr rfl))))
  all_goals cases h; exact .kept rfl

end Sys2Proof.Machine
end

section
/-! SUPPORT. The hung state (41_engine_events R143, 70_reset_and_hazards R231): which operations are enabled in it, and which keep
it. -/

namespace Sys2Proof.Machine

/-- In a hung state the engine has no pending status and the nominal line unit nothing to do: what is enabled is the host, the
watchdog and reset. -/
theorem State.hung.enables_cases {s : State} {i : Instr} (hs : s.hung) (hm : s.cfg.luMode = .nominal) (hi : s.enables i) :
    (isHostWrite i || isHostRead i || isHostMem i) = true ∨ i = .wdtTickCount ∨ (i = .wdtTickAbort ∧ s.wdtLast = true) ∨
      i = .reset := by
  obtain ⟨hb, -, hsi, hap, hsto, hsta, hp, hdf⟩ := hs
  cases i
  case evStart | evTxAck | evTxNack | evRx | evOther => exact flag_conflict (si_of_engineEnabled hi.1) hsi
  case luAck => obtain ⟨-, -, owed⟩ := hi; exact flag_conflict owed hap
  case luStop => obtain ⟨-, -, requested⟩ := hi; exact flag_conflict requested hsto
  case luStart => obtain ⟨-, -, -, requested⟩ := hi; exact flag_conflict requested hsta
  case luRxbyte => obtain ⟨-, -, -, -, receiver⟩ := hi; exact absurd (hp.symm.trans receiver) (by decide)
  case luTxbyte => obtain ⟨-, -, -, -, full⟩ := luTxbyte_enabled hi; exact flag_conflict full hdf
  case luFault => obtain ⟨faults, -⟩ := hi; exact absurd (hm.symm.trans faults) (by decide)
  case wdtTickIdle => exact flag_conflict hb hi
  case wdtTickCount => exact .inr (.inl rfl)
  case wdtTickAbort => exact .inr (.inr (.inl ⟨rfl, hi.2⟩))
  case reset => exact .inr (.inr (.inr rfl))
  all_goals exact .inl rfl

/-- The host cannot end a hang: its writes are dropped, and its reads and memory accesses move nothing the hang is made of. -/
theorem State.hung.of_host {s t : State} {i : Instr} (hs : s.hung) (hi : (isHostWrite i || isHostRead i || isHostMem i) = true)
    (h : exec i s = .next t) : t.hung := by
  have busy : s.busy = true := hs.1
  rw [engineOwnsTheStateWhileBusy i s t hi busy h]
  exact hs

end Sys2Proof.Machine
end

section
/-! SUPPORT. The repeated-START sequencer (41_engine_events R139): what the other agents leave alone between two event steps, and the
address bytes of the two STARTs. -/

namespace Sys2Proof.Machine

/-- Between two event steps the flags of the sequencer, the direction and the addresses stay, and no STOP is requested
(41_engine_events R138). -/
theorem State.betweenEvents.frame {s t : State} (h : s.betweenEvents t) (hsto : s.sto = false) :
    t.sendSubAddress = s.sendSubAddress ∧ t.sendStartNext = s.sendStartNext ∧ t.direction = s.direction ∧
      t.repeatedStartForRead = s.repeatedStartForRead ∧ t.targetAddress = s.targetAddress ∧ t.subAddress = s.subAddress ∧
      t.sto = false := by
  obtain ⟨e, stoFalls⟩ := h
  refine ⟨?_, ?_, ?_, ?_, ?_, ?_, stoFalls hsto⟩
  all_goals rw [e]

/-- While a sub-address is due the address byte says WRITE, else it follows the direction (30_encoding R78). -/
theorem addrByte_write {s : State} (h : s.sendSubAddress = true) : s.addrByte = s.targetAddress ++ 0#1 := by
  simp [State.addrByte, State.rwBit, h]

theorem addrByte_read {s : State} (hs : s.sendSubAddress = false) (hd : s.direction = true) :
    s.addrByte = s.targetAddress ++ 1#1 := by
  simp [State.addrByte, State.rwBit, hs, hd]

end Sys2Proof.Machine
end

section
/-! THEOREMS. The statements of the family 41_engine_events: the event steps one by one, the sequencer, the hang, and what the engine
does to `fsm` and to the request bits. -/

namespace Sys2Proof.Machine

/-- Settles O13, by the three cases of EV_RX; the memory it leaves is that of one store at the cursor. -/
theorem evRxStoresAndEnds : Obligations.EvRxStoresAndEnds := by
  intro s
  refine ⟨fun w => decode_statusRow (code := 4), fun none => ?_, fun wanted => ?_⟩
  · obtain ⟨-, e⟩ | ⟨h, -⟩ | ⟨h, -⟩ := evRx_cases s
    · exact e
    · exact absurd (none.symm.trans h) (by decide)
    · exact absurd none h
  · refine ⟨(s.memWrite s.dataCursor s.dat).mem, memRead_memWrite_same s _ _,
      fun b hb => memRead_memWrite_other s _ b _ hb, ?_⟩
    obtain ⟨h, -⟩ | ⟨h, e⟩ | ⟨-, h, -, e⟩ := evRx_cases s
    · exact absurd h wanted
    · have last : s.bytesRemaining - 1 = 0 := by rw [h]; rfl
      rw [if_pos h, e, ← last]
      rfl
    · rw [if_neg h, e]
      rfl

/-- Settles O15: the arbiter reads `EN`, `SI` and the code, and one event step is enabled at each code. -/
theorem engineIsTotalWhereEnabled : Obligations.EngineIsTotalWhereEnabled := by
  intro s
  have arbiter := decodeStatus_ctlView s
  refine ⟨fun hen hsi => ?_, fun off => ?_⟩
  · have on : s.engineEnabled = true := (engineEnabled_iff s).mpr ⟨hen, hsi⟩
    have isEv := isEvent_decodeStatusCode s.status
    obtain ⟨t, ht⟩ := exec_answers (decodeStatusCode s.status) s
    exact ⟨_, t, arbiter.trans (if_pos on), isEv, decodeStatusCode_enables s on, ht, event_clears_si isEv ht,
      fun j => event_of_enables⟩
  · refine arbiter.trans (if_neg fun on => ?_)
    obtain ⟨hen, hsi⟩ := (engineEnabled_iff s).mp on
    exact off.elim (flag_conflict hen) (flag_conflict hsi)

/-- Settles O10, by what EV_START answers. -/
theorem evStartLoadsTheAddressByte : Obligations.EvStartLoadsTheAddressByte :=
  fun s => ⟨fun _ => decode_statusRow (code := 1), exec_evStart s⟩

/-- Settles O11, branch by branch. -/
theorem evTxAckTakesItsBranch : Obligations.EvTxAckTakesItsBranch := by
  intro s
  refine ⟨fun w => decode_statusRow (code := 2), ?_⟩
  obtain ⟨hn, e⟩ | ⟨hn, hs, e⟩ | ⟨hn, hs, hd, e⟩ | ⟨hn, hs, hd, hr, e⟩ | ⟨hn, hs, hd, hr, e⟩ := evTxAck_cases s <;> rw [e]
  · rw [if_pos hn]; rfl
  · rw [if_neg (by simp [hn]), if_pos hs]; simp [State.txAckSubAddress, hn, State.loadDat]
  · rw [if_neg (by simp [hn]), if_neg (by simp [hs]), if_neg (by simp [hd])]; rfl
  · rw [if_neg (by simp [hn]), if_neg (by simp [hs]), if_pos hd, if_pos hr]; rfl
  · rw [if_neg (by simp [hn]), if_neg (by simp [hs]), if_pos hd, if_neg (by simp [hr])]; rfl

/-- Settles O12, by the two branches of EV_TX_NACK and the failure handler field by field. -/
theorem evTxNackRetriesOrFails : Obligations.EvTxNackRetriesOrFails := by
  intro s
  refine ⟨fun w => decode_statusRow (code := 3), ?_⟩
  obtain ⟨ha, e⟩ | ⟨ha, e⟩ := evTxNack_cases s
  · rw [e, if_pos ha]
  · rw [e, if_neg (by simp [ha]), raiseFailure_eq]
    rfl

/-- Settles O14, by the row of each code and the failure handler field by field. -/
theorem evOtherFailsWithBusError : Obligations.EvOtherFailsWithBusError := by
  intro s code
  refine ⟨?_, (exec_evOther code s).trans (by rw [raiseFailure_eq]; rfl)⟩
  rintro w (h | h | h | h)
  · exact decode_statusRow_other (code := 0) rfl h
  · exact decode_statusRow_other (code := 5) rfl h
  · exact decode_statusRow_other (code := 6) rfl h
  · exact decode_statusRow_other (code := 7) rfl h

/-- Settles O18, operation by operation: the rows of the table by their lemmas, and every other operation leaves `fsm` alone. -/
theorem fsmFollowsTheTransitionTable : Obligations.FsmFollowsTheTransitionTable := by
  intro i s t h
  cases i <;> simp only [Instr.hwrCtlGo.injEq, Instr.evOther.injEq, exists_eq', reduceCtorEq, exists_false, if_true, if_false]
  case hwrCtlGo w => exact go_fsm h
  case evTxAck => exact evTxAck_fsm h
  case evTxNack => exact evTxNack_fsm h
  case evRx => exact evRx_fsm h
  case hwrCtlDisable => cases h; exact hostWrite_keeps (P := fun x => x.fsm = s.fsm) rfl fun _ => by simp
  case hwrCtlEnable | hwrTaddr | hwrSubaddr | hwrFlags | hwrCursor | hwrRemain =>
    cases h
    exact hostWrite_keeps (P := fun x => x.fsm = s.fsm) rfl fun _ => rfl
  all_goals cases h; rfl

/-- Settles O42, by how the operation moves the request bits: each bit that changes names its writer. -/
theorem requestBitsHaveTheirWriters : Obligations.RequestBitsHaveTheirWriters := by
  intro i s t h
  cases exec_requests h
  case kept | startTaken | writeDone | readDone | readGoesOn | stopTaken => simp_all [State.requests]
  case startRequested => simp_all [State.requests, requestsStart]
  case cleared => simp_all [State.requests, clearsRequests]

/-- Settles O17, step by step: what each event step answers, and the flags the other agents leave until the next. -/
theorem sequencerRunsTheRandomRead : Obligations.SequencerRunsTheRandomRead := by
  intro s ssa rsr ssn sto
  refine ⟨_, exec_evStart s, addrByte_write ssa, rfl, sto, ssa, ssn, rfl, fun a' ha => ?_⟩
  obtain ⟨ssaA, ssnA, dirA, rsrA, taA, saA, stoA⟩ := ha.frame sto
  refine ⟨_, exec_evTxAck_subAddress (ssnA.trans ssn) (ssaA.trans ssa), saA, rfl, stoA, rfl, if_pos (rsrA.trans rsr), dirA,
    fun b' hb => ?_⟩
  obtain ⟨ssaB, ssnB, -, -, taB, -, stoB⟩ := hb.frame stoA
  have armed : b'.sendStartNext = true := ssnB.trans (if_pos (rsrA.trans rsr))
  refine ⟨_, exec_evTxAck_restart armed, rfl, rfl, stoB, ssaB, rfl, rfl, fun c' hc => ?_⟩
  obtain ⟨ssaC, ssnC, dirC, -, taC, -, stoC⟩ := hc.frame stoB
  have spent : c'.sendSubAddress = false := ssaC.trans ssaB
  have readByte : c'.addrByte = s.targetAddress ++ 1#1 := by
    rw [addrByte_read spent dirC, taC]
    exact congrArg (· ++ 1#1) (taB.trans taA)
  refine ⟨_, exec_evStart c', readByte, rfl, rfl, stoC, spent, ssnC, dirC, fun d' hd => ?_⟩
  obtain ⟨ssaD, ssnD, dirD, -⟩ := hd.frame stoC
  exact exec_evTxAck_read (ssnD.trans ssnC) (ssaD.trans spent) (dirD.trans dirC)

/-- Settles O48: the acknowledge takes the branch of a read, and in the state it leaves only the host, the watchdog and reset have a
step. -/
theorem hangEndsOnlyByTheWatchdogOrReset : Obligations.HangEndsOnlyByTheWatchdogOrReset := by
  refine ⟨fun s hn hs hd hb hen hap hsto hsta hp hdf => ?_, fun s t hm hung h => ?_⟩
  · exact ⟨_, exec_evTxAck_read hn hs hd, hb, hen, rfl, hap, hsto, hsta, hp, hdf⟩
  · obtain ⟨is, hp, ws, e, u, rfl, hu, rfl | ⟨i, hi, he⟩ | ⟨-, -, -, hfree, -⟩⟩ := step_cases h
    · exact .inl hung
    · have hungTurn : State.hung { s with inputs := is, hostProg := hp, windows := ws, ee := e } := hung
      rw [← hu]
      obtain hhost | rfl | ⟨rfl, hl⟩ | rfl := hungTurn.enables_cases hm hi
      · exact .inl (hungTurn.of_host hhost he)
      · cases he; exact .inl hung
      · have ended : t.busy = false := by cases he; rfl
        exact .inr (.inl ⟨(wdtLast_iff s).mp hl, he, ended⟩)
      · have ended : t.busy = false := by cases he; rfl
        exact .inr (.inr ⟨he, ended⟩)
    · exact absurd (hm.symm.trans hfree) (by decide)

/-- Settles O39: every operation answers, so every turn does. -/
theorem everyStepGoesOn : Obligations.EveryStepGoesOn := ⟨exec_answers, step_answers⟩

end Sys2Proof.Machine
end

section
/-! SUPPORT. The grammar of the wire trace (42_line_unit R161): what a symbol more does to the point a trace stands at, and which
points fit each phase of the line unit. -/

namespace Sys2Proof.Machine

/-! ### The trace and its point -/

/-- One symbol more moves the point by that symbol. -/
theorem wireRun_concat {w₀ w : WireState} {tr : List WireSym} (x : WireSym) (h : wireRun w₀ tr = some w) :
    wireRun w₀ (tr ++ [x]) = w.next x := by
  induction tr generalizing w₀ with
  | nil => cases h; simp only [List.nil_append, wireRun]; cases w.next x <;> rfl
  | cons y tr ih =>
    simp only [List.cons_append, wireRun] at h ⊢
    cases hy : w₀.next y with
    | none => rw [hy] at h; cases h
    | some w' => rw [hy] at h; exact ih h

/-- `X` may cut a transfer at any point of it. -/
theorem WireState.next_released {w : WireState} (h : w ≠ .idle) : w.next .released = some .idle := by
  cases w
  case idle => exact absurd rfl h
  all_goals rfl

/-- The step from `s` to `t` takes the trace from the point `w` to a point that fits `t`: the trace stays, or it gets one symbol. -/
inductive WireMove (s t : State) (w : WireState) : Prop
  | stays (same : t.trace = s.trace) (fits : t.wireFits w)
  | emits (x : WireSym) (w' : WireState) (grows : t.trace = s.trace ++ [x]) (next : w.next x = some w') (fits : t.wireFits w')

/-- A trace that moves along the grammar stays a word of it. -/
theorem WireMove.wireOk {s t : State} {w : WireState} (hr : wireRun .idle s.trace = some w) (h : WireMove s t w) : t.WireOk := by
  cases h with
  | stays same fits => exact ⟨w, by rw [same]; exact hr, fits⟩
  | emits x w' grows next fits => exact ⟨w', by rw [grows, wireRun_concat x hr]; exact next, fits⟩

/-- The fields of the state a point of the grammar is held against. -/
theorem wireFits_congr {s t : State} {w : WireState}
    (h : t.luPhase = s.luPhase ∧ t.si = s.si ∧ t.sta = s.sta ∧ t.sto = s.sto ∧ t.status = s.status ∧ t.luAckPend = s.luAckPend ∧
      t.busy = s.busy) : t.wireFits w ↔ s.wireFits w := by
  obtain ⟨hp, hsi, hsta, hsto, hst, ha, hb⟩ := h
  cases w <;> simp only [State.wireFits, hp, hsi, hsta, hsto, hst, ha, hb]

/-! ### Which points fit each phase -/

section
variable {s : State} {w : WireState} (hf : s.wireFits w)
include hf

/-- A transfer is open exactly where the line unit owns the bus. -/
theorem wireFits_idle_iff : w = .idle ↔ s.luPhase = .idle := by
  cases w <;> simp_all [State.wireFits]

/-- In ADDR the address byte is due. -/
theorem wireFits_addr (hp : s.luPhase = .addr) : w = .started ∧ (s.si = false → s.sta = false) := by
  cases w <;> simp_all [State.wireFits]

/-- In TX the last byte was acknowledged, or it was refused and the retry or the failure is to come. -/
theorem wireFits_tx (hp : s.luPhase = .tx) :
    (w = .sending ∧ ¬(s.si = true ∧ s.status = 3)) ∨
    (w = .refused ∧ s.sto = false ∧ ((s.si = true ∧ s.status = 3) ∨ s.sta = true)) := by
  cases w <;> simp_all [State.wireFits]

/-- In RX with no acknowledge owed and no STOP requested a byte is due, or the START of a retried random read (log 15). -/
theorem wireFits_rx_due (hp : s.luPhase = .rx) (ha : s.luAckPend = false) (hsto : s.sto = false) :
    w = .addressed ∨ (w = .receiving ∧ s.sta = false ∧ (s.si = true → byteStatus s.status = false)) := by
  cases w <;> simp_all [State.wireFits]

/-- While an acknowledge is owed it is the next symbol. -/
theorem wireFits_owed (hp : s.luPhase = .rx) (ha : s.luAckPend = true) : w = .received := by
  cases w <;> simp_all [State.wireFits]

/-- In RX with a STOP requested and no acknowledge owed the STOP is the next symbol. -/
theorem wireFits_rx_stop (hp : s.luPhase = .rx) (ha : s.luAckPend = false) (hsto : s.sto = true) : w = .finished := by
  cases w <;> simp_all [State.wireFits]

/-- The internal reset (60_exceptions R191) cuts an open transfer and leaves the line unit idle. -/
theorem wireMove_of_released {t : State} (ht : t.trace = if s.luPhase = .idle then s.trace else s.trace ++ [.released])
    (hp : t.luPhase = .idle) : WireMove s t w := by
  by_cases h : s.luPhase = .idle
  · obtain rfl := (wireFits_idle_iff hf).mpr h
    exact .stays (by rw [ht, if_pos h]) hp
  · have isOpen : w ≠ .idle := fun e => h ((wireFits_idle_iff hf).mp e)
    exact .emits .released .idle (by rw [ht, if_neg h]) (WireState.next_released isOpen) hp

end

end Sys2Proof.Machine
end

section
/-! THEOREMS. Under the nominal line unit the wire trace is a word of the grammar (42_line_unit R161), operation by operation. -/

namespace Sys2Proof.Machine

section
variable {s : State} {w : WireState} (hf : s.wireFits w)
include hf

/-! ### The line unit's operations that rest on the point of the grammar alone -/

/-- LU_START (42_line_unit R154): `S` from an idle line unit, `Sr` after written bytes, a refused byte or a read address. -/
theorem luStart_wireMove (hi : s.enables .luStart) {t : State} (h : exec .luStart s = .next t) : WireMove s t w := by
  obtain ⟨-, ⟨hr, ha⟩, hsto, hsta⟩ := hi
  have hsi := si_of_lineMayStep hr
  cases h
  cases hp : s.luPhase with
  | idle =>
    obtain rfl := (wireFits_idle_iff hf).mpr hp
    exact .emits .start .started rfl rfl ⟨rfl, nofun⟩
  | addr => exact flag_conflict hsta ((wireFits_addr hf hp).2 hsi)
  | tx =>
    refine .emits .repeatedStart .started rfl ?_ ⟨rfl, nofun⟩
    obtain ⟨rfl, -⟩ | ⟨rfl, -⟩ := wireFits_tx hf hp <;> rfl
  | rx =>
    refine .emits .repeatedStart .started rfl ?_ ⟨rfl, nofun⟩
    obtain rfl | ⟨-, noStart, -⟩ := wireFits_rx_due hf hp ha hsto
    · rfl
    · exact flag_conflict hsta noStart

/-- LU_RXBYTE (42_line_unit R155): the first byte after the read address, or one more after an acknowledged one. -/
theorem luRxbyte_wireMove {b : Byte} (hi : s.enables (.luRxbyte b)) {t : State} (h : exec (.luRxbyte b) s = .next t) :
    WireMove s t w := by
  obtain ⟨-, ⟨-, ha⟩, hsto, -, hp⟩ := hi
  cases h
  refine .emits (.rx b) .received rfl ?_ ⟨hp, rfl⟩
  obtain rfl | ⟨rfl, -⟩ := wireFits_rx_due hf hp ha hsto <;> rfl

/-- LU_TXBYTE (42_line_unit R156): an address byte after the START, or a byte after acknowledged written bytes. -/
theorem luTxbyte_wireMove {row : TxRow} {a : Ack} (hi : s.enables (.luTxbyte row a)) {t : State}
    (h : exec (.luTxbyte row a) s = .next t) : WireMove s t w := by
  obtain ⟨⟨hr, ha⟩, hsto, hsta, hp, -⟩ := luTxbyte_enabled hi
  have hsi := si_of_lineMayStep hr
  have point : (s.luPhase = .addr ∧ w = .started) ∨ (s.luPhase = .tx ∧ w = .sending) := by
    obtain hp | hp := hp
    · exact .inl ⟨hp, (wireFits_addr hf hp).1⟩
    · obtain ⟨hw, -⟩ | ⟨-, -, ⟨pending, -⟩ | retry⟩ := wireFits_tx hf hp
      · exact .inr ⟨hp, hw⟩
      · exact flag_conflict pending hsi
      · exact flag_conflict retry hsta
  cases h
  cases a with
  | nack =>
    have toTx : s.phaseAfterTx .nack = .tx := if_neg fun ⟨_, _, acked⟩ => absurd acked (by decide)
    refine .emits (.tx s.dat .nack) .refused rfl ?_ ⟨toTx, hsto, .inl ⟨rfl, rfl⟩⟩
    obtain ⟨-, rfl⟩ | ⟨-, rfl⟩ := point <;> rfl
  | ack =>
    have notRefused : ¬(true = true ∧ txStatus .ack = 3) := by decide
    obtain ⟨hp, rfl⟩ | ⟨hp, rfl⟩ := point
    · by_cases read : s.dat.getLsbD 0 = true
      · have toRx : s.phaseAfterTx .ack = .rx := if_pos ⟨hp, read, rfl⟩
        exact .emits (.tx s.dat .ack) .addressed rfl (congrArg some (if_pos read)) ⟨toRx, ha, hsto⟩
      · have toTx : s.phaseAfterTx .ack = .tx := if_neg fun ⟨_, isRead, _⟩ => read isRead
        exact .emits (.tx s.dat .ack) .sending rfl (congrArg some (if_neg read)) ⟨toTx, notRefused⟩
    · have toTx : s.phaseAfterTx .ack = .tx := if_neg fun ⟨addr, _⟩ => absurd (hp.symm.trans addr) (by decide)
      exact .emits (.tx s.dat .ack) .sending rfl rfl ⟨toTx, notRefused⟩

/-- LU_FAULT (42_line_unit R157) latches a status no byte brings, and no point asks for. -/
theorem luFault_wireMove {f : FaultStatus} (hi : s.enables (.luFault f)) {t : State} (h : exec (.luFault f) s = .next t) :
    WireMove s t w := by
  have hsi := si_of_lineMayStep hi.2
  have notByte : byteStatus (faultCode f) = false ∧ faultCode f ≠ 3 := by cases f <;> decide
  cases h
  refine .stays rfl ?_
  cases w <;> simp_all [State.wireFits, State.latch]

/-! ### The operations that rest on the nominal invariant too -/

variable (hs : s.NominalOk)
include hs

/-- GO (40_host_access R104): a bus still owned has its STOP requested, so no point at hand forbids the START request. -/
theorem startTransfer_wireMove (hb : s.busy = false) : WireMove s s.startTransfer w := by
  refine .stays rfl ?_
  have bus := hs.idle_bus hb
  have owned := hs.stop_owned
  cases w
  case idle | sending | received | finished => exact hf
  all_goals simp_all [State.wireFits]

/-- LU_ACK (42_line_unit R152): `A` where more is wanted, `N` where the STOP is requested. -/
theorem luAck_wireMove (hi : s.enables .luAck) {t : State} (h : exec .luAck s = .next t) : WireMove s t w := by
  obtain ⟨-, hr, ha⟩ := hi
  have hsi := si_of_lineMayStep hr
  have hp := hs.ack_owed ha
  obtain rfl := wireFits_owed hf hp ha
  cases h
  cases hq : s.ackrq
  · exact .emits .masterNack .finished rfl rfl ⟨hp, rfl, hs.last_refused ha hsi hq⟩
  · obtain ⟨hsto, hsta, hb⟩ := hs.more_wanted ha hsi hq
    exact .emits .masterAck .receiving rfl rfl ⟨hp, rfl, hsto, hsta, hb, flag_conflict (h0 := hsi)⟩

/-- LU_STOP (42_line_unit R153): after acknowledged written bytes or after the refused last byte. -/
theorem luStop_wireMove (hi : s.enables .luStop) {t : State} (h : exec .luStop s = .next t) : WireMove s t w := by
  obtain ⟨-, ⟨-, ha⟩, hsto⟩ := hi
  cases h
  obtain hp | hp := hs.stop_owned hsto
  · obtain ⟨rfl, -⟩ | ⟨-, noStop, -⟩ := wireFits_tx hf hp
    · exact .emits .stop .idle rfl rfl rfl
    · exact flag_conflict hsto noStop
  · obtain rfl := wireFits_rx_stop hf hp ha hsto
    exact .emits .stop .idle rfl rfl rfl

/-- EV_START (41_engine_events R132) takes the START request back. -/
theorem evStart_wireMove (hi : s.enables .evStart) {t : State} (h : exec .evStart s = .next t) : WireMove s t w := by
  obtain ⟨he, hst⟩ := hi
  have hp : s.luPhase = .addr := hs.start_event (si_of_engineEnabled he) hst
  obtain ⟨rfl, -⟩ := wireFits_addr hf hp
  cases h
  exact .stays rfl ⟨hp, fun _ => rfl⟩

/-- EV_TX_ACK (41_engine_events R133): written bytes may be followed by anything the branches request; a read address is
acknowledged in a read only, which does not end here. -/
theorem evTxAck_wireMove (hi : s.enables .evTxAck) {t : State} (h : exec .evTxAck s = .next t) : WireMove s t w := by
  obtain ⟨he, hst⟩ := hi
  have hsi := si_of_engineEnabled he
  obtain ⟨hp, hsta, hsto, -, ha⟩ := hs.acked hsi hst
  obtain hp | hp := hp
  · obtain ⟨rfl, -⟩ | ⟨-, -, ⟨-, refused⟩ | retry⟩ := wireFits_tx hf hp
    · obtain ⟨-, e⟩ | ⟨-, -, e⟩ | ⟨-, -, -, e⟩ | ⟨-, -, -, -, e⟩ | ⟨-, -, -, -, e⟩ := evTxAck_cases s <;>
        (cases e.symm.trans h; exact .stays rfl ⟨hp, nofun⟩)
    · exact absurd (hst.symm.trans refused) (by decide)
    · exact flag_conflict retry hsta
  · obtain rfl | ⟨-, -, noByte⟩ := wireFits_rx_due hf hp ha hsto
    · obtain ⟨reading, -⟩ := hs.read_acked hp hsi hst
      obtain ⟨-, e⟩ | ⟨-, -, e⟩ | ⟨-, -, -, e⟩ | ⟨-, -, writing, -⟩ | ⟨-, -, writing, -⟩ := evTxAck_cases s
      · cases e.symm.trans h; exact .stays rfl ⟨hp, ha, hsto⟩
      · cases e.symm.trans h; exact .stays rfl ⟨hp, ha, hsto⟩
      · cases e.symm.trans h; exact .stays rfl ⟨hp, ha, hsto⟩
      · exact flag_conflict reading writing
      · exact flag_conflict reading writing
    · exact flag_conflict (b := byteStatus s.status) (by rw [hst]; rfl) (noByte hsi)

/-- EV_TX_NACK (41_engine_events R134): the retry requests the `Sr` that may follow a refused byte, the failure cuts the
transfer. -/
theorem evTxNack_wireMove (hi : s.enables .evTxNack) {t : State} (h : exec .evTxNack s = .next t) : WireMove s t w := by
  obtain ⟨he, hst⟩ := hi
  have hsi := si_of_engineEnabled he
  have hp : s.luPhase = .tx := hs.nack_event hsi hst
  obtain ⟨-, e⟩ | ⟨-, e⟩ := evTxNack_cases s <;> cases e.symm.trans h
  · obtain ⟨-, notRefused⟩ | ⟨rfl, hsto, -⟩ := wireFits_tx hf hp
    · exact absurd ⟨hsi, hst⟩ notRefused
    · exact .stays rfl ⟨hp, hsto, .inr rfl⟩
  · exact wireMove_of_released hf (State.raiseFailure_trace s causeNack) rfl

/-- EV_RX (41_engine_events R135) leaves the acknowledge owed. -/
theorem evRx_wireMove (hi : s.enables .evRx) {t : State} (h : exec .evRx s = .next t) : WireMove s t w := by
  obtain ⟨he, hst⟩ := hi
  obtain ⟨hp, ha, -⟩ := hs.received (si_of_engineEnabled he) hst
  obtain rfl := wireFits_owed hf hp ha
  obtain ⟨-, e⟩ | ⟨-, e⟩ | ⟨-, -, -, e⟩ := evRx_cases s <;> (cases e.symm.trans h; exact .stays rfl ⟨hp, ha⟩)

/-! ### All operations -/

/-- Every operation but RESET moves the trace along the grammar. -/
theorem exec_wireMove {i : Instr} {t : State} (hi : s.enables i) (hreset : i ≠ .reset) (h : exec i s = .next t) :
    WireMove s t w := by
  have stays : WireMove s s w := .stays rfl hf
  cases i
  case reset => exact absurd rfl hreset
  case hwrCtlDisable =>
    cases h
    exact hostWrite_keeps (P := fun x => WireMove s x w) stays fun _ =>
      wireMove_of_released hf (State.periphReset_trace (s.setEn false)) rfl
  case hwrCtlGo => cases h; exact hostWrite_keeps (P := fun x => WireMove s x w) stays (startTransfer_wireMove hf hs)
  case hwrCtlEnable | hwrTaddr | hwrSubaddr | hwrFlags | hwrCursor | hwrRemain =>
    cases h
    exact hostWrite_keeps (P := fun x => WireMove s x w) stays fun _ =>
      .stays rfl ((wireFits_congr ⟨rfl, rfl, rfl, rfl, rfl, rfl, rfl⟩).mpr hf)
  case evStart => exact evStart_wireMove hf hs hi h
  case evTxAck => exact evTxAck_wireMove hf hs hi h
  case evTxNack => exact evTxNack_wireMove hf hs hi h
  case evRx => exact evRx_wireMove hf hs hi h
  case evOther =>
    cases (exec_evOther _ s).symm.trans h
    exact wireMove_of_released hf (State.raiseFailure_trace s causeBusError) rfl
  case luAck => exact luAck_wireMove hf hs hi h
  case luStop => exact luStop_wireMove hf hs hi h
  case luStart => exact luStart_wireMove hf hi h
  case luRxbyte => exact luRxbyte_wireMove hf hi h
  case luTxbyte => exact luTxbyte_wireMove hf hi h
  case luFault => exact luFault_wireMove hf hi h
  case wdtTickAbort => cases h; exact wireMove_of_released hf (State.raiseFailure_trace s causeTimeout) rfl
  all_goals cases h; exact .stays rfl ((wireFits_congr ⟨rfl, rfl, rfl, rfl, rfl, rfl, rfl⟩).mpr hf)

end

/-- RESET (70_reset_and_hazards R220) empties the trace, which then stands where the idle line unit stands. -/
theorem hardReset_wireOk (s : State) : s.hardReset.WireOk := ⟨.idle, rfl, rfl⟩

/-- Every enabled operation keeps the trace a word of the grammar. -/
theorem exec_wireOk {i : Instr} {s t : State} (hs : s.NominalOk) (ho : s.WireOk) (hi : s.enables i) (h : exec i s = .next t) :
    t.WireOk := by
  obtain ⟨w, hr, hf⟩ := ho
  by_cases hreset : i = .reset
  · subst hreset; cases h; exact hardReset_wireOk s
  · exact (exec_wireMove hf hs hi hreset h).wireOk hr

/-- The wire trace looks at none of the environment's data. -/
theorem wireOk_env {s : State} (is : List Input) (hp : List HostCmd) (ws : List BufWindow) (e : Target) (h : s.WireOk) :
    State.WireOk { s with inputs := is, hostProg := hp, windows := ws, ee := e } := by
  obtain ⟨w, hr, hf⟩ := h
  exact ⟨w, hr, (wireFits_congr ⟨rfl, rfl, rfl, rfl, rfl, rfl, rfl⟩).mpr hf⟩

/-- Settles O54: the trace, the nominal invariant and the mode it needs are kept together, operation by operation. -/
theorem wireGrammarIsKept : Obligations.WireGrammarIsKept := by
  intro s t hm hs ho h
  exact (step_keeps (P := fun x => x.cfg.luMode ≠ .unconstrained ∧ x.NominalOk ∧ x.WireOk)
    (fun _ _ _ _ _ ⟨hm, hs, ho⟩ => ⟨hm, { hs with control := { hs.control with } }, wireOk_env _ _ _ _ ho⟩)
    (fun _ i _ ⟨hm, hs, ho⟩ hi he => ⟨by rw [exec_cfg i he]; exact hm, exec_nominalOk hs hi he, exec_wireOk hs ho hi he⟩)
    (fun _ _ _ _ ⟨hm, _⟩ hu => absurd hu hm)
    ⟨hm, hs, ho⟩ h).2.2

/-- Settles O53: the reset state is one RESET leaves. -/
theorem wireGrammarAtReset : Obligations.WireGrammarAtReset :=
  fun c => hardReset_wireOk (State.resetWith c)

end Sys2Proof.Machine
end

section
/-! SUPPORT. The line unit's turns, one lemma per kind of input (42_line_unit R150, R157, R160), and what its condition word decodes to
(R151). -/

namespace Sys2Proof.Machine

/-! ### The turns -/

section
variable {s : State} {rest : List Input}

theorem fetch_line {t : Answer} (h : s.inputs = .line t :: rest) : fetch s = ({ s with inputs := rest } : State).lineTurn t := by
  simp only [fetch, h]

theorem fetch_lineFault {f : FaultStatus} (h : s.inputs = .lineFault f :: rest) :
    fetch s = ({ s with inputs := rest } : State).faultTurn f := by
  simp only [fetch, h]

theorem fetch_lineFree {st : BitVec 3} {l : Option Byte} {k : Bool} (h : s.inputs = .lineFree st l k :: rest) :
    fetch s = ({ s with inputs := rest } : State).freeTurn st l k := by
  simp only [fetch, h]

/-- Under `unconstrained` the nominal line unit has no turn, whoever answers. -/
theorem fetch_line_unconstrained {t : Answer} (h : s.inputs = .line t :: rest) (hm : s.cfg.luMode = .unconstrained) :
    fetch s = (.pass, { s with inputs := rest }) :=
  (fetch_line h).trans (if_pos hm)

/-- The turn the mock target answers presents the line condition word with the target's draw, and the target moves. -/
theorem fetch_line_mock (h : s.inputs = .line .mock :: rest) (hm : s.cfg.luMode ≠ .unconstrained) :
    fetch s = (.word (.line s.lineWord s.mockAnswer.1), { s with inputs := rest, ee := s.mockAnswer.2 }) :=
  (fetch_line h).trans (if_neg hm)

end

/-- The mock target answers with draws and reports no fault. -/
theorem mockAnswer_nominal (s : State) : ∃ b a, s.mockAnswer.1 = .nominal b a := by
  unfold State.mockAnswer
  split <;> exact ⟨_, _, rfl⟩

/-! ### The word -/

theorem lineMayStep_eq_false_iff (s : State) : s.lineMayStep = false ↔ s.en = false ∨ s.si = true := by
  simp only [State.lineMayStep, Bool.and_eq_false_iff, Bool.not_eq_false']

/-- Where neither an acknowledge nor a STOP nor a START comes first, the line unit's operation is the byte's (42_line_unit R151). -/
theorem decode_lineWord_byte {s : State} (hen : s.en = true) (hsi : s.si = false) (ha : s.luAckPend = false) (hsto : s.sto = false)
    (hsta : s.sta = false) (b : Byte) (a : Ack) :
    decode (.line s.lineWord (.nominal b a)) =
      if s.luPhase = .rx then .op (.luRxbyte b)
      else if s.luPhase = .addr ∧ s.luDatFull = true then .op (.luTxbyte .addressByte a)
      else if s.luPhase = .tx ∧ s.luDatFull = true then .op (.luTxbyte .otherByte a)
      else .none .lineNoOperation := by
  simp only [decode, decodeLine, decodeLineNominal_lineWord, (lineMayStep_iff s).mpr ⟨hen, hsi⟩, ha, hsto, hsta,
    Bool.true_eq_false, Bool.false_eq_true, if_false]

end Sys2Proof.Machine
end

section
/-! SUPPORT. The mock target EE (42_line_unit R159): its memory read back after a write, and when the line unit asks it. -/

namespace Sys2Proof.Machine

/-! ### Its memory -/

theorem cellAt_below {m : List Host.Cell} {lo hi x : Nat} (hm : cellsFrom lo hi m = true) (hx : x < lo) : cellAt m x = none := by
  induction m generalizing lo with
  | nil => rfl
  | cons c m ih =>
    obtain ⟨a, w⟩ := c
    simp only [cellsFrom, Bool.and_eq_true, decide_eq_true_eq] at hm
    obtain ⟨⟨hlo, -⟩, hrest⟩ := hm
    rw [cellAt, if_neg (by omega), ih hrest (by omega)]

/-- Where the addresses rise strictly, dropping an address leaves no entry at it. -/
theorem cellAt_dropCell_same {m : List Host.Cell} {lo hi : Nat} (x : Nat) (hm : cellsFrom lo hi m = true) :
    cellAt (dropCell m x) x = none := by
  induction m generalizing lo with
  | nil => rfl
  | cons c m ih =>
    obtain ⟨a, w⟩ := c
    simp only [cellsFrom, Bool.and_eq_true, decide_eq_true_eq] at hm
    obtain ⟨-, hrest⟩ := hm
    rw [dropCell]
    split
    · exact cellAt_below hrest (by omega)
    · next h => rw [cellAt, if_neg h, ih hrest]

theorem cellAt_dropCell_other (m : List Host.Cell) (x y : Nat) (h : y ≠ x) : cellAt (dropCell m x) y = cellAt m y := by
  induction m with
  | nil => rfl
  | cons c m ih =>
    obtain ⟨a, w⟩ := c
    rw [dropCell]
    split
    · rw [cellAt, if_neg (by omega)]
    · rw [cellAt, cellAt, ih]

/-- What the target's memory reads as after a write: the byte at its own address, the old one at every other. -/
theorem target_read_write (t : Target) (p q b : Byte) (h : t.wf = true) :
    (t.write p b).read q = if q = p then b else t.read q := by
  obtain ⟨rising, -⟩ : cellsFrom 0 256 t.mem = true ∧ _ := Bool.and_eq_true_iff.mp h
  unfold Target.read Target.write
  by_cases hq : q = p
  · rw [if_pos hq, hq]
    split
    · next hb => simp only [cellAt_dropCell_same _ rising, hb, Option.getD_none]
    · simp only [cellAt_setCell_same, Option.getD_some]
  · have other : q.toNat ≠ p.toNat := fun e => hq (BitVec.eq_of_toNat_eq e)
    rw [if_neg hq]
    split
    · simp only [cellAt_dropCell_other _ _ _ other]
    · simp only [cellAt_setCell_other _ _ _ _ other]

/-! ### When it is asked -/

/-- The target moves only where the line unit has a byte to send or to receive (42_line_unit R155, R156). -/
theorem mockAnswer_moves {s : State} (h : s.mockAnswer.2 ≠ s.ee) :
    s.en = true ∧ s.si = false ∧ s.luAckPend = false ∧ s.sto = false ∧ s.sta = false ∧
      (s.luPhase = .rx ∨ (s.luPhase ≠ .idle ∧ s.luDatFull = true)) := by
  rw [mockAnswer_eq] at h
  split at h
  · next free =>
    obtain ⟨may, ha, hsto, hsta⟩ := free
    obtain ⟨hen, hsi⟩ := (lineMayStep_iff s).mp may
    refine ⟨hen, hsi, ha, hsto, hsta, ?_⟩
    split at h
    · next hp => exact .inl hp
    split at h
    · next hp => exact .inr ⟨by simp [hp], hp.2⟩
    split at h
    · next hp => exact .inr ⟨by simp [hp], hp.2⟩
    · exact absurd rfl h
  · exact absurd rfl h

/-- Only the turn the schedule lets the target answer moves it. -/
theorem fetch_target_moves {s : State} (h : (fetch s).2.ee ≠ s.ee) :
    (∃ rest, s.inputs = .line .mock :: rest) ∧ s.cfg.luMode ≠ .unconstrained ∧ s.mockAnswer.2 ≠ s.ee := by
  revert h
  unfold fetch
  split
  · exact fun h => absurd rfl h
  · unfold State.hostTurn
    split <;> exact fun h => absurd rfl h
  · unfold State.engineTurn; split <;> exact fun h => absurd rfl h
  · next a rest hi =>
    unfold State.lineTurn
    split
    · exact fun h => absurd rfl h
    · next hm =>
      cases a with
      | drawn b a => exact fun h => absurd rfl h
      | mock => exact fun h => ⟨⟨rest, hi⟩, hm, h⟩
  · unfold State.faultTurn; split <;> exact fun h => absurd rfl h
  · unfold State.freeTurn; split <;> exact fun h => absurd rfl h
  · unfold State.tickTurn; split <;> exact fun h => absurd rfl h
  · exact fun h => absurd rfl h

/-- A step leaves the target as the turn did: no operation touches it. -/
theorem step_target {s t : State} (h : step s = .next t) : t.ee = (fetch s).2.ee := by
  obtain rfl | ⟨c, i, -, -, he⟩ | ⟨st, l, k, -, rfl⟩ := step_word_cases h
  · rfl
  · exact (exec_windows_ee i he).2
  · rfl

/-- The step in which the target answers: the draw and the target's next state are those of the operation the line unit has. -/
theorem step_line_mock {s : State} {rest : List Input} {d : Draw} {e : Target} {i : Instr} (h : s.inputs = .line .mock :: rest)
    (hm : s.cfg.luMode ≠ .unconstrained) (ha : s.mockAnswer = (d, e)) (hd : decode (.line s.lineWord d) = .op i) :
    step s = exec i { s with inputs := rest, ee := e } := by
  have turn := fetch_line_mock h hm
  rw [ha] at turn
  exact step_of_op turn hd

end Sys2Proof.Machine
end

section
/-! THEOREMS. The statements of the family 42_line_unit: the line unit's operations and their priority, the environment `LU_MODE`
selects, and the mock target. -/

namespace Sys2Proof.Machine

/-- Settles O21: the rows of the LINE word, read off the flags it is made of. -/
theorem linePriority : Obligations.LinePriority := by
  intro s b a f
  constructor
  · rw [decode, decodeLine, decodeLineNominal_lineWord]
    simp only [lineMayStep_eq_false_iff]
  · obtain ⟨faultRow, -⟩ := lineWord_rows s
    rw [decode, decodeLine]
    simp only [faultRow, ← lineMayStep_eq_false_iff]
    cases s.lineMayStep <;> rfl

/-- Settles O24: the target's own answers, then the turn it answers, and the frame of every other step. -/
theorem mockTargetAnswers : Obligations.MockTargetAnswers := by
  refine ⟨fun _ => ⟨rfl, rfl⟩, fun t b => ?address, fun t b => ?byte, fun _ => rfl, ?asked, ?frame⟩
  case address =>
    unfold Target.onAddress
    cases b.getLsbD 0 <;> rfl
  case byte =>
    unfold Target.onByte
    cases hfirst : t.first
    · exact ⟨rfl, nofun, fun _ => ⟨rfl, hfirst, rfl, fun wf p => target_read_write t t.ptr p b wf⟩⟩
    · exact ⟨rfl, fun _ => rfl, nofun⟩
  case asked =>
    intro s rest hi hm hen hsi ha hsto hsta
    have free : s.lineMayStep = true ∧ s.luAckPend = false ∧ s.sto = false ∧ s.sta = false :=
      ⟨(lineMayStep_iff s).mpr ⟨hen, hsi⟩, ha, hsto, hsta⟩
    have answers := (mockAnswer_eq s).trans (if_pos free)
    have selects := decode_lineWord_byte hen hsi ha hsto hsta
    refine ⟨fun hp hd => ?_, fun hp hd => ?_, fun hp => ?_⟩
    · have notRx : s.luPhase ≠ .rx := by simp [hp]
      rw [if_neg notRx, if_pos ⟨hp, hd⟩] at answers
      refine step_line_mock hi hm answers ?_
      rw [selects, if_neg notRx, if_pos ⟨hp, hd⟩]
    · have notRx : s.luPhase ≠ .rx := by simp [hp]
      have notAddr : ¬(s.luPhase = .addr ∧ s.luDatFull = true) := by simp [hp]
      rw [if_neg notRx, if_neg notAddr, if_pos ⟨hp, hd⟩] at answers
      refine step_line_mock hi hm answers ?_
      rw [selects, if_neg notRx, if_neg notAddr, if_pos ⟨hp, hd⟩]
    · rw [if_pos hp] at answers
      refine step_line_mock hi hm answers ?_
      rw [selects, if_pos hp]
  case frame =>
    intro s t h moved
    rw [step_target h] at moved
    obtain ⟨turn, hm, asked⟩ := fetch_target_moves moved
    exact ⟨turn, hm, mockAnswer_moves asked⟩

/-- Settles O19, by the row of each operation and what it answers. -/
theorem lineAckStopStart : Obligations.LineAckStopStart := by
  intro s b a
  exact ⟨⟨fun _ => decodeLineNominal_of_row (by simp [nominalRows]), rfl⟩,
    ⟨fun _ => decodeLineNominal_of_row (by simp [nominalRows]), rfl⟩,
    ⟨fun _ => decodeLineNominal_of_row (by simp [nominalRows]), rfl⟩⟩

/-- Settles O20, by the row of each operation and what it answers. -/
theorem lineBytesAndFaults : Obligations.LineBytesAndFaults := by
  intro s b a row f
  refine ⟨⟨fun _ => decodeLineNominal_of_row (by simp [nominalRows]), rfl⟩, ⟨rfl, rfl, ?_⟩, fun _ h => if_pos h, ?_⟩
  · cases a <;> rfl
  · cases f <;> rfl

/-- Settles O22, turn by turn; the mock target answers with draws. -/
theorem luModeSelectsTheEnvironment : Obligations.LuModeSelectsTheEnvironment := by
  intro s rest
  refine ⟨fun b a => fetch_line, fun hi => ⟨fetch_line_unconstrained hi, fun hm => ?_⟩, fun f => fetch_lineFault,
    fun st l k hi => ?_⟩
  · obtain ⟨b, a, draws⟩ := mockAnswer_nominal s
    exact ⟨b, a, _, draws ▸ fetch_line_mock hi hm⟩
  · rw [fetch_lineFree hi]
    simp only [State.freeTurn, lineMayStep_iff]

/-- Settles O23: the turn is offered, and its operation writes the fields drawn. -/
theorem unconstrainedLineUnitStep : Obligations.UnconstrainedLineUnitStep := by
  intro s rest st l k hi hm hen hsi
  have offered : fetch s = (.free st l k, { s with inputs := rest }) :=
    (fetch_lineFree hi).trans (if_pos ⟨hm, (lineMayStep_iff s).mpr ⟨hen, hsi⟩⟩)
  rw [step_of_free offered]
  cases l <;> rfl

end Sys2Proof.Machine
end

section
/-! SUPPORT. The writes of `FLAGS` in a list of host operations (43_public_api R175): which words they are, and those of the four macros
(R171 to R174). -/

namespace Sys2Proof.Machine

/-- A register write is fixed by its register and its data. -/
theorem hwr_inj {r r' : BitVec 4} {v v' : Word16} : hwr r v = hwr r' v' ↔ r = r' ∧ v = v' := by
  refine ⟨fun h => ?_, fun ⟨hr, hv⟩ => hr ▸ hv ▸ rfl⟩
  have words : hostWord true r v = hostWord true r' v' := HostCmd.reg.inj h
  constructor
  · rw [← hostReg_hostWord true r v, words, hostReg_hostWord]
  · rw [← hostWdata_hostWord true r v, words, hostWdata_hostWord]

theorem hwr_ne_wait (r : BitVec 4) (v : Word16) : hwr r v ≠ .wait := nofun

/-- The only word that decodes to a write of `FLAGS` is the one `HWR FLAGS` places. -/
theorem hwr_of_decode_hwrFlags {w : BitVec 21} {d : Word16} (h : decode (.host w) = .op (.hwrFlags d)) : .reg w = hwr 4 d := by
  have selects : decodeHost w = .hwrFlags d := Decoded.op.inj h
  have word : Code.host w = .host (hostWord true 4 d) := by rw [← encode_decodeHost, selects]; rfl
  rw [Code.host.inj word, hwr]

/-- Every write of `FLAGS` in the list sets `ackPollOnAddressNack`. -/
def flagsWritesPoll (p : List HostCmd) : Prop := ∀ d, hwr 4 d ∈ p → d.getLsbD 3 = true

theorem flagsWritesPoll_nil : flagsWritesPoll [] := nofun

theorem flagsWritesPoll_append {p q : List HostCmd} : flagsWritesPoll (p ++ q) ↔ flagsWritesPoll p ∧ flagsWritesPoll q := by
  simp only [flagsWritesPoll, List.mem_append, or_imp, forall_and]

/-- An access to buffer memory is no write of `FLAGS`. -/
theorem flagsWritesPoll_mem (w : BitVec 25) : flagsWritesPoll [.mem w] := by
  simp [flagsWritesPoll, hwr]

/-- The writes of `FLAGS` in a transfer are those it is filled with and its own. -/
theorem hwrFlags_mem_apiTransfer {fill : List HostCmd} {t s f : Byte} {c : Addr} {n : Byte} {d : Word16} :
    hwr 4 d ∈ apiTransfer fill t s f c n ↔ hwr 4 d ∈ fill ∨ d = f.setWidth 16 := by
  simp [apiTransfer, apiWait, apiGo, hwr_inj, hwr_ne_wait]

/-- A transfer polls when what it is filled with does and bit 3 of its flags is set. -/
theorem flagsWritesPoll_apiTransfer {fill : List HostCmd} {f : Byte} (hfill : flagsWritesPoll fill) (hf : f.getLsbD 3 = true)
    (t s : Byte) (c : Addr) (n : Byte) : flagsWritesPoll (apiTransfer fill t s f c n) := by
  intro d hd
  obtain filled | rfl := hwrFlags_mem_apiTransfer.mp hd
  · exact hfill d filled
  · rw [BitVec.getLsbD_setWidth, hf]
    rfl

theorem flagsWritesPoll_apiWriteByte (t s v : Byte) (a : Addr) : flagsWritesPoll (apiWriteByte t s v a) :=
  flagsWritesPoll_apiTransfer (flagsWritesPoll_mem _) rfl t s a 1

theorem flagsWritesPoll_apiWriteBuf (t s : Byte) (a : Addr) (n : Nat) : flagsWritesPoll (apiWriteBuf t s a n) := by
  induction n generalizing s a with
  | zero => exact flagsWritesPoll_nil
  | succ n ih =>
    rw [apiWriteBuf_succ]
    exact flagsWritesPoll_append.mpr ⟨flagsWritesPoll_apiTransfer flagsWritesPoll_nil rfl t s a 1, ih (s + 1) (a + 1)⟩

theorem flagsWritesPoll_apiReadBuf (t s : Byte) (a : Addr) (n : Byte) : flagsWritesPoll (apiReadBuf t s a n) :=
  flagsWritesPoll_apiTransfer flagsWritesPoll_nil rfl t s a n

theorem flagsWritesPoll_apiReadByte (t s : Byte) (a : Addr) : flagsWritesPoll (apiReadByte t s a) :=
  flagsWritesPoll_append.mpr ⟨flagsWritesPoll_apiReadBuf t s a 1, flagsWritesPoll_mem _⟩

end Sys2Proof.Machine
end

section
/-! THEOREMS. The statement of the family 43_public_api: the four macros always poll for the acknowledge. -/

namespace Sys2Proof.Machine

/-- Settles O59: the word is that of `HWR FLAGS`, and every such word of the four macros sets bit 3. -/
theorem macrosAlwaysPollAcks : Obligations.MacrosAlwaysPollAcks := by
  rintro t s v a n m _ hc w d rfl selects
  have polls : flagsWritesPoll (apiWriteByte t s v a ++ apiWriteBuf t s a n ++ apiReadByte t s a ++ apiReadBuf t s a m) := by
    simp only [flagsWritesPoll_append]
    exact ⟨⟨⟨flagsWritesPoll_apiWriteByte t s v a, flagsWritesPoll_apiWriteBuf t s a n⟩, flagsWritesPoll_apiReadByte t s a⟩,
      flagsWritesPoll_apiReadBuf t s a m⟩
  exact polls d (hwr_of_decode_hwrFlags selects ▸ hc)

end Sys2Proof.Machine
end

section
/-! SUPPORT. The race of 60_exceptions R199 turn by turn: what the tick's turn and the engine's turn run, and what an event step
leaves for a tick still pending. -/

namespace Sys2Proof.Machine

/-! ### The timer word (R195, 30_encoding R76) -/

section TimerWord

variable {s : State}

theorem decodeTimer_idle (hb : s.busy = false) : decodeTimer s.timerWord = .wdtTickIdle := by
  rw [decodeTimer_timerWord, if_neg (by simp [hb])]

theorem decodeTimer_count (hb : s.busy = true) (hl : s.wdtLast = false) : decodeTimer s.timerWord = .wdtTickCount := by
  rw [decodeTimer_timerWord, if_pos hb, if_neg (by simp [hl])]

theorem decodeTimer_abort (hb : s.busy = true) (hl : s.wdtLast = true) : decodeTimer s.timerWord = .wdtTickAbort := by
  rw [decodeTimer_timerWord, if_pos hb, if_pos hl]

end TimerWord

theorem wdtLast_eq_false_iff (s : State) : s.wdtLast = false ↔ s.wdtCount + 1 ≠ s.cfg.wdtPeriodTicks := by
  rw [Bool.eq_false_iff, ne_eq, wdtLast_iff]

/-! ### The engine's turn and the tick's turn -/

section Turns

variable {s : State} {rest : List Input}

theorem decode_ctlView (h : s.engineEnabled = true) : decode (.status s.ctlView) = .op (decodeStatusCode s.status) :=
  (decodeStatus_ctlView s).trans (if_pos h)

/-- Under `wdt_first` the engine's turn passes while the abort is enabled too. -/
theorem step_engine_yields (hi : s.inputs = .engine :: rest) (hy : s.engineYields = true) :
    step s = .next { s with inputs := rest } :=
  step_of_pass ((fetch_engine hi).trans (if_pos hy))

/-- Else an enabled engine runs the event step of the pending status. -/
theorem step_engine_event (hi : s.inputs = .engine :: rest) (hy : s.engineYields = false) (he : s.engineEnabled = true) :
    step s = exec (decodeStatusCode s.status) { s with inputs := rest } :=
  step_of_op ((fetch_engine hi).trans (if_neg (by rw [Bool.not_eq_true]; exact hy))) (decode_ctlView he)

/-- A tick that lets the engine step first stays in the schedule. -/
theorem step_tick_yields (hi : s.inputs = .tick :: rest) (hy : s.tickYields = true) :
    step s = exec (decodeStatusCode s.status) s := by
  obtain ⟨-, hen, hsi, -⟩ := (tickYields_iff s).mp hy
  exact step_of_op ((fetch_tick hi).trans (if_pos hy)) (decode_ctlView ((engineEnabled_iff s).mpr ⟨hen, hsi⟩))

/-- Else the tick is taken, and the timer word says which tick it is. -/
theorem step_tick_taken (hi : s.inputs = .tick :: rest) (hy : s.tickYields = false) :
    step s = exec (decodeTimer s.timerWord) { s with inputs := rest } :=
  step_of_op ((fetch_tick hi).trans (if_neg (by rw [Bool.not_eq_true]; exact hy))) rfl

theorem step_tick_idle (hi : s.inputs = .tick :: rest) (hy : s.tickYields = false) (hb : s.busy = false) :
    step s = .next { s with inputs := rest } := by
  rw [step_tick_taken hi hy, decodeTimer_idle hb]
  rfl

theorem step_tick_count (hi : s.inputs = .tick :: rest) (hy : s.tickYields = false) (hb : s.busy = true)
    (hl : s.wdtLast = false) : step s = .next { s with inputs := rest, wdtCount := s.wdtCount + 1 } := by
  rw [step_tick_taken hi hy, decodeTimer_count hb hl]
  rfl

theorem step_tick_abort (hi : s.inputs = .tick :: rest) (hy : s.tickYields = false) (hb : s.busy = true)
    (hl : s.wdtLast = true) : step s = .next (State.raiseFailure { s with inputs := rest } causeTimeout) := by
  rw [step_tick_taken hi hy, decodeTimer_abort hb hl]
  rfl

/-- With no status pending a tick waits for nobody. -/
theorem tickYields_of_si (h : s.si = false) : s.tickYields = false := by
  rw [Bool.eq_false_iff, ne_eq, tickYields_iff]
  rintro ⟨-, -, hsi, -⟩
  exact flag_conflict hsi h

/-- A tick waits under `engine_first` alone. -/
theorem tickYields_of_order (h : s.cfg.eventOrder ≠ .engineFirst) : s.tickYields = false := by
  rw [Bool.eq_false_iff, ne_eq, tickYields_iff]
  rintro ⟨ho, -⟩
  exact h ho

/-- The engine waits under `wdt_first` alone. -/
theorem engineYields_of_order (h : s.cfg.eventOrder ≠ .wdtFirst) : s.engineYields = false := by
  rw [Bool.eq_false_iff, ne_eq, engineYields_iff]
  rintro ⟨ho, -⟩
  exact h ho

end Turns

/-! ### What an operation leaves of a running transfer -/

/-- No operation touches the schedule. -/
theorem exec_inputs (i : Instr) {s t : State} (h : exec i s = .next t) : t.inputs = s.inputs := by
  have gated {f : State → State} (hf : (f s).inputs = s.inputs) : (s.hostWrite f).inputs = s.inputs :=
    hostWrite_keeps (P := fun x => x.inputs = s.inputs) rfl fun _ => hf
  cases i
  case hwrCtlDisable => cases h; exact gated (State.periphReset_inputs _)
  case hwrCtlEnable | hwrCtlGo | hwrTaddr | hwrSubaddr | hwrFlags | hwrCursor | hwrRemain => cases h; exact gated rfl
  case evTxAck =>
    obtain ⟨-, e⟩ | ⟨-, -, e⟩ | ⟨-, -, -, e⟩ | ⟨-, -, -, -, e⟩ | ⟨-, -, -, -, e⟩ := evTxAck_cases s <;>
      (cases e.symm.trans h; rfl)
  case evTxNack =>
    obtain ⟨-, e⟩ | ⟨-, e⟩ := evTxNack_cases s <;> cases e.symm.trans h
    · rfl
    · exact State.raiseFailure_inputs s causeNack
  case evRx => obtain ⟨-, e⟩ | ⟨-, e⟩ | ⟨-, -, -, e⟩ := evRx_cases s <;> (cases e.symm.trans h; rfl)
  case evOther => cases h; exact State.raiseFailure_inputs s causeBusError
  case wdtTickAbort => cases h; exact State.raiseFailure_inputs s causeTimeout
  all_goals cases h; rfl

/-- While a transfer goes on, only a counting tick moves the watchdog's counter. -/
theorem exec_running_count {i : Instr} {s t : State} (h : exec i s = .next t) (hb : s.busy = true) (ht : t.busy = true) :
    t.wdtCount = s.wdtCount ∨ (i = .wdtTickCount ∧ t.wdtCount = s.wdtCount + 1) := by
  cases i
  case hwrCtlDisable | hwrCtlEnable | hwrCtlGo | hwrTaddr | hwrSubaddr | hwrFlags | hwrCursor | hwrRemain =>
    cases h
    exact .inl (congrArg State.wdtCount (hostWrite_busy s _ hb))
  case evTxAck =>
    obtain ⟨-, e⟩ | ⟨-, -, e⟩ | ⟨-, -, -, e⟩ | ⟨-, -, -, -, e⟩ | ⟨-, -, -, -, e⟩ := evTxAck_cases s <;>
      cases e.symm.trans h
    case inr.inr.inr.inr => exact flag_conflict ht rfl
    all_goals exact .inl rfl
  case evTxNack =>
    obtain ⟨-, e⟩ | ⟨-, e⟩ := evTxNack_cases s <;> cases e.symm.trans h
    · exact .inl rfl
    · exact flag_conflict ht rfl
  case evRx =>
    obtain ⟨-, e⟩ | ⟨-, e⟩ | ⟨-, -, -, e⟩ := evRx_cases s <;> cases e.symm.trans h
    case inr.inr => exact .inl rfl
    all_goals exact flag_conflict ht rfl
  case evOther | wdtTickAbort | reset => cases h; exact flag_conflict ht rfl
  case wdtTickCount => cases h; exact .inr ⟨rfl, rfl⟩
  all_goals cases h; exact .inl rfl

/-- An event step leaves the controller enabled: the failure handler sets `EN` again (60_exceptions R192). -/
theorem event_keeps_en {i : Instr} {s t : State} (hi : isEvent i = true) (hen : s.en = true) (h : exec i s = .next t) :
    t.en = true := by
  cases i
  case evStart => cases h; exact hen
  case evTxAck =>
    obtain ⟨-, e⟩ | ⟨-, -, e⟩ | ⟨-, -, -, e⟩ | ⟨-, -, -, -, e⟩ | ⟨-, -, -, -, e⟩ := evTxAck_cases s <;>
      (cases e.symm.trans h; exact hen)
  case evTxNack =>
    obtain ⟨-, e⟩ | ⟨-, e⟩ := evTxNack_cases s <;> cases e.symm.trans h
    · exact hen
    · rfl
  case evRx => obtain ⟨-, e⟩ | ⟨-, e⟩ | ⟨-, -, -, e⟩ := evRx_cases s <;> (cases e.symm.trans h; exact hen)
  case evOther => cases h; rfl
  all_goals cases hi

/-- An event step of a transfer that goes on leaves the watchdog where it was: a tick that would have aborted still does. -/
theorem event_keeps_wdtLast {i : Instr} {s t : State} (hi : isEvent i = true) (hb : s.busy = true) (ht : t.busy = true)
    (h : exec i s = .next t) : t.wdtLast = s.wdtLast := by
  obtain hc | ⟨rfl, -⟩ := exec_running_count h hb ht
  · simp only [State.wdtLast, hc, exec_cfg i h]
  · cases hi

/-- The tick an event step was taken ahead of: it finds the transfer ended and does nothing, or aborts it. -/
theorem step_tick_after_event {i : Instr} {s t : State} {rest : List Input} (hi : isEvent i = true) (hb : s.busy = true)
    (hl : s.wdtLast = true) (h : exec i s = .next t) (hin : t.inputs = .tick :: rest) :
    (t.busy = false ∧ step t = .next { t with inputs := rest }) ∨
    (t.busy = true ∧ step t = .next (State.raiseFailure { t with inputs := rest } causeTimeout)) := by
  have hy : t.tickYields = false := tickYields_of_si (event_clears_si hi h)
  by_cases ht : t.busy = true
  · exact .inr ⟨ht, step_tick_abort hin hy ht ((event_keeps_wdtLast hi hb ht h).trans hl)⟩
  · have idle : t.busy = false := Bool.eq_false_iff.mpr ht
    exact .inl ⟨idle, step_tick_idle hin hy idle⟩

end Sys2Proof.Machine
end

section
/-! SUPPORT. The watchdog's bound (60_exceptions R197, R209): what every step of a running transfer does to the counter and to the
schedule, and the induction along a run. -/

namespace Sys2Proof.Machine

/-! ### The schedule -/

/-- A step leaves the schedule as the turn did: no operation touches it. -/
theorem step_inputs {s t : State} (h : step s = .next t) : t.inputs = (fetch s).2.inputs := by
  obtain rfl | ⟨c, i, -, -, he⟩ | ⟨st, l, k, -, rfl⟩ := step_word_cases h
  · rfl
  · exact exec_inputs i he
  · rfl

/-- Every turn but a tick's uses up its entry of the schedule. -/
theorem fetch_inputs_of_not_tick {s : State} {x : Input} {rest : List Input} (hi : s.inputs = x :: rest) (hx : x ≠ .tick) :
    (fetch s).2.inputs = rest := by
  cases x with
  | host => rw [fetch_host hi]; unfold State.hostTurn; split <;> rfl
  | engine => rw [fetch_engine hi]; unfold State.engineTurn; split <;> rfl
  | line a =>
    rw [fetch_line hi]
    unfold State.lineTurn
    split
    · rfl
    · cases a <;> rfl
  | lineFault f => rw [fetch_lineFault hi]; unfold State.faultTurn; split <;> rfl
  | lineFree st l k => rw [fetch_lineFree hi]; unfold State.freeTurn; split <;> rfl
  | tick => exact absurd rfl hx
  | reset w => rw [fetch_reset hi]

/-- What a step does to the schedule: it uses up the entry at its head, or a tick waits while the pending status is handled. -/
theorem step_inputs_cases {s t : State} {x : Input} {rest : List Input} (hi : s.inputs = x :: rest) (h : step s = .next t) :
    t.inputs = rest ∨ (t.inputs = s.inputs ∧ s.si = true ∧ t.si = false) := by
  by_cases hx : x = .tick
  · subst hx
    cases hy : s.tickYields
    · rw [step_tick_taken hi hy] at h
      exact .inl (exec_inputs _ h)
    · obtain ⟨-, -, hsi, -⟩ := (tickYields_iff s).mp hy
      rw [step_tick_yields hi hy] at h
      exact .inr ⟨exec_inputs _ h, hsi, event_clears_si (isEvent_decodeStatusCode s.status) h⟩
  · exact .inl ((step_inputs h).trans (fetch_inputs_of_not_tick hi hx))

/-- How many steps the schedule still allows: two for each entry, since a tick may wait for one event step; the tick at the end
waits for one only if a status is pending. -/
def State.stepsLeft (s : State) : Nat := 2 * s.inputs.length + s.si.toNat

/-- Every step on a schedule that is not empty leaves fewer. -/
theorem step_stepsLeft_lt {s t : State} {x : Input} {rest : List Input} (hi : s.inputs = x :: rest) (h : step s = .next t) :
    t.stepsLeft < s.stepsLeft := by
  have atMostOne : t.si.toNat ≤ 1 := Bool.toNat_le t.si
  unfold State.stepsLeft
  obtain e | ⟨e, hsi, hti⟩ := step_inputs_cases hi h
  · rw [e, hi, List.length_cons]
    omega
  · rw [e, hsi, hti]
    exact Nat.lt_succ_self _

/-! ### The counter -/

/-- While a transfer goes on, the counter never falls and stays below the period. -/
theorem step_running_count {s t : State} (h : step s = .next t) (hb : s.busy = true) (ht : t.busy = true)
    (hbelow : s.wdtCount < s.cfg.wdtPeriodTicks) : s.wdtCount ≤ t.wdtCount ∧ t.wdtCount < s.cfg.wdtPeriodTicks := by
  obtain ⟨is, hp, ws, e, u, rfl, -, rfl | ⟨i, hi, he⟩ | ⟨st, l, k, -, -, rfl⟩⟩ := step_cases h
  · exact ⟨le_rfl, hbelow⟩
  · obtain hc | ⟨rfl, hc⟩ := exec_running_count he hb ht <;> rw [hc]
    · exact ⟨le_rfl, hbelow⟩
    · have notLast : s.wdtCount + 1 ≠ s.cfg.wdtPeriodTicks := (wdtLast_eq_false_iff s).mp hi.2
      exact ⟨Nat.le_succ _, Nat.lt_of_le_of_ne hbelow notLast⟩
  · exact ⟨le_rfl, hbelow⟩

/-- A tick that is taken and does not end the transfer counts. -/
theorem tick_taken_counts {s t : State} {rest : List Input} (hi : s.inputs = .tick :: rest) (hy : s.tickYields = false)
    (hb : s.busy = true) (h : step s = .next t) (ht : t.busy = true) : t.inputs = rest ∧ t.wdtCount = s.wdtCount + 1 := by
  cases hl : s.wdtLast
  · cases (step_tick_count hi hy hb hl).symm.trans h
    exact ⟨rfl, rfl⟩
  · cases (step_tick_abort hi hy hb hl).symm.trans h
    exact flag_conflict ht rfl

/-- While a transfer goes on, the ticks counted and the ticks still due never become fewer: no tick is lost. -/
theorem step_running_ticks {s t : State} (h : step s = .next t) (hb : s.busy = true) (ht : t.busy = true)
    (hbelow : s.wdtCount < s.cfg.wdtPeriodTicks) : s.wdtCount + s.ticksDue ≤ t.wdtCount + t.ticksDue := by
  obtain ⟨rises, -⟩ := step_running_count h hb ht hbelow
  unfold State.ticksDue
  cases hi : s.inputs with
  | nil => rw [List.countP_nil]; omega
  | cons x rest =>
    by_cases hx : x = .tick
    · subst hx
      cases hy : s.tickYields
      · obtain ⟨used, counted⟩ := tick_taken_counts hi hy hb h ht
        rw [used, counted, List.countP_cons_of_pos rfl]
        omega
      · rw [step_tick_yields hi hy] at h
        rw [exec_inputs _ h, hi]
        omega
    · rw [step_inputs h, fetch_inputs_of_not_tick hi hx, List.countP_cons_of_neg (by simpa using hx)]
      omega

/-- The counter is below the period, and the schedule holds at least the ticks that are left of it. -/
def State.periodCovered (s : State) : Prop :=
  s.wdtCount < s.cfg.wdtPeriodTicks ∧ s.cfg.wdtPeriodTicks ≤ s.wdtCount + s.ticksDue

/-- Such a schedule is not empty: a tick is left. -/
theorem inputs_cons_of_periodCovered {s : State} (hs : s.periodCovered) : ∃ x rest, s.inputs = x :: rest := by
  obtain ⟨below, covered⟩ := hs
  cases hi : s.inputs with
  | nil => simp only [State.ticksDue, hi, List.countP_nil] at covered; omega
  | cons x rest => exact ⟨x, rest, rfl⟩

/-- While a transfer goes on, every step keeps that. -/
theorem step_keeps_periodCovered {s t : State} (hs : s.periodCovered) (h : step s = .next t) (hb : s.busy = true)
    (ht : t.busy = true) : t.periodCovered := by
  obtain ⟨below, covered⟩ := hs
  obtain ⟨-, below'⟩ := step_running_count h hb ht below
  rw [State.periodCovered, parametersNeverChange s t h]
  exact ⟨below', covered.trans (step_running_ticks h hb ht below)⟩

/-! ### The run -/

/-- Within `n` steps a state with `busy` = 0 is reached. -/
def State.idleWithin (s : State) (n : Nat) : Prop :=
  ∃ (k : Nat) (t : State), k ≤ n ∧ Sys2Proof.core.run k s = .next t ∧ t.busy = false

theorem idleWithin_of_idle {s : State} (h : s.busy = false) (n : Nat) : s.idleWithin n := ⟨0, s, n.zero_le, rfl, h⟩

/-- One step more at the start of the run. -/
theorem idleWithin_of_step {s t : State} {n : Nat} (h : step s = .next t) (ht : t.idleWithin n) : s.idleWithin (n + 1) := by
  obtain ⟨k, u, hk, hrun, hu⟩ := ht
  have answered : Sys2Proof.core.step s = .next t := h
  have run_succ : Sys2Proof.core.run (k + 1) s = Sys2Proof.core.run k t := by simp only [Host.Core.run, answered]
  exact ⟨k + 1, u, Nat.succ_le_succ hk, run_succ.trans hrun, hu⟩

/-- Either the next step ends the transfer, or the state it leaves is covered again with fewer steps left. -/
theorem idleWithin_of_periodCovered {n : Nat} {s : State} (hs : s.periodCovered) (hn : s.stepsLeft ≤ n + 1) :
    s.idleWithin n := by
  induction n generalizing s with
  | zero =>
    obtain ⟨x, rest, hi⟩ := inputs_cons_of_periodCovered hs
    simp only [State.stepsLeft, hi, List.length_cons] at hn
    omega
  | succ n ih =>
    cases hb : s.busy
    · exact idleWithin_of_idle hb _
    · obtain ⟨x, rest, hi⟩ := inputs_cons_of_periodCovered hs
      obtain ⟨t, h⟩ := step_answers s
      have fewer := step_stepsLeft_lt hi h
      refine idleWithin_of_step h ?_
      cases ht : t.busy
      · exact idleWithin_of_idle ht n
      · exact ih (step_keeps_periodCovered hs h hb ht) (by omega)

end Sys2Proof.Machine
end

section
/-! THEOREMS. The statements of the family 60_exceptions: the failure handler, the watchdog's ticks and its abort, the race of R199,
and the bound on every transfer. -/

namespace Sys2Proof.Machine

/-- Settles O58: a covered state is idle within the steps its schedule allows, one less than `stepsLeft`, and that is at most two
per turn. -/
theorem watchdogBoundsEveryTransfer : Obligations.WatchdogBoundsEveryTransfer := by
  intro s below covered
  have bound : s.stepsLeft ≤ 2 * s.inputs.length + 1 := Nat.add_le_add_left (Bool.toNat_le s.si) _
  exact idleWithin_of_periodCovered ⟨below, covered⟩ bound

/-- Settles O38, turn by turn; under `engine_first` the event step leaves the pending tick a transfer that has ended or one it still
aborts. -/
theorem eventOrderDecidesTheRace : Obligations.EventOrderDecidesTheRace := by
  intro s rest hen hsi hb hl
  have on : s.engineEnabled = true := (engineEnabled_iff s).mpr ⟨hen, hsi⟩
  have last : s.wdtLast = true := (wdtLast_iff s).mpr hl
  have isEv := isEvent_decodeStatusCode s.status
  have enabled := decodeStatusCode_enables s on
  refine ⟨fun hi ho => ?_, fun hi ho => ?_, fun hi ho => ?_, fun hi ho => ?_, fun hi ho => ?_⟩
  · have yields : s.tickYields = true := (tickYields_iff s).mpr ⟨ho, hen, hsi, hb, hl⟩
    obtain ⟨t, he⟩ := exec_answers (decodeStatusCode s.status) s
    have pending : t.inputs = .tick :: rest := (exec_inputs _ he).trans hi
    have enAfter : t.en = true := event_keeps_en isEv hen he
    obtain ⟨ht, hu⟩ | ⟨ht, hu⟩ := step_tick_after_event isEv hb last he pending
    · exact ⟨_, t, _, isEv, enabled, he, (step_tick_yields hi yields).trans he, pending, hu, rfl, ht, enAfter, fun _ => rfl⟩
    · exact ⟨_, t, _, isEv, enabled, he, (step_tick_yields hi yields).trans he, pending, hu,
        State.raiseFailure_inputs _ _, rfl, rfl, fun idle => flag_conflict ht idle⟩
  · exact ⟨_, step_tick_abort hi (tickYields_of_order ho) hb last, rfl, rfl, rfl, rfl⟩
  · have yields : s.engineYields = true := (engineYields_iff s).mpr ⟨ho, hen, hsi, hb, hl⟩
    have tickGoes : ({ s with inputs := .tick :: rest } : State).tickYields = false := tickYields_of_order (by simp [ho])
    exact ⟨_, _, step_engine_yields hi yields, rfl, step_tick_abort rfl tickGoes hb last, rfl, rfl, rfl, rfl⟩
  · exact step_engine_yields hi ((engineYields_iff s).mpr ⟨ho, hen, hsi, hb, hl⟩)
  · obtain ⟨t, he⟩ := exec_answers (decodeStatusCode s.status) { s with inputs := rest }
    exact ⟨_, t, isEv, enabled, he, (step_engine_event hi (engineYields_of_order ho) on).trans he⟩

/-- Settles O16: the internal reset field by field, and the handler as R192 writes it. -/
theorem internalResetAndFailureHandler : Obligations.InternalResetAndFailureHandler :=
  fun s _ => ⟨periphReset_eq s, rfl⟩

/-- Settles O25, by the rows of the timer word; below the period, not being below it one tick later is being at the last. -/
theorem tickCountsOrAborts : Obligations.TickCountsOrAborts := by
  intro s below
  refine ⟨fun idle => ?_, fun running more => ?_, fun running noMore => ?_, rfl, rfl⟩
  · exact congrArg Decoded.op (decodeTimer_idle idle)
  · exact congrArg Decoded.op (decodeTimer_count running ((wdtLast_eq_false_iff s).mpr more.ne))
  · have last : s.wdtCount + 1 = s.cfg.wdtPeriodTicks := Nat.le_antisymm below (Nat.le_of_not_lt noMore)
    exact congrArg Decoded.op (decodeTimer_abort running ((wdtLast_iff s).mpr last))

/-- Settles O26: the abort is the failure handler with cause TIMEOUT (log 18), field by field. -/
theorem watchdogAbortReleasesTheBlock : Obligations.WatchdogAbortReleasesTheBlock :=
  fun s => congrArg Host.Outcome.next (raiseFailure_eq s causeTimeout)

end Sys2Proof.Machine
end

section
/-! SUPPORT. RESET (70_reset_and_hazards R220, R221): the two levels of the reset input, what the operation answers, and what the host
reads afterwards. -/

namespace Sys2Proof.Machine

/-- The reset input at 1 (30_encoding R77). -/
theorem decode_reset_high : decode (.reset 1) = .op .reset := by decide

/-- The reset input at 0. -/
theorem decode_reset_low : decode (.reset 0) = .none .resetInputLow := by decide

theorem exec_reset (s : State) : exec .reset s = .next s.hardReset := rfl

/-- The reset state is one RESET leaves, so what holds after RESET from every state holds of it. -/
theorem hardReset_resetWith (c : Config) : (State.resetWith c).hardReset = State.resetWith c := rfl

/-! ### The host's views made of several fields -/

@[simp] theorem hardReset_ctlView (s : State) : s.hardReset.ctlView = 0 := by
  simp [State.ctlView, bit]

@[simp] theorem hardReset_taddrView (s : State) : s.hardReset.taddrView = 0 := by
  simp [State.taddrView]

@[simp] theorem hardReset_flagsView (s : State) : s.hardReset.flagsView = 0 := by
  simp [State.flagsView, bit]

@[simp] theorem hardReset_statView (s : State) : s.hardReset.statView = 0 := by
  simp [State.statView, bit]

end Sys2Proof.Machine
end

section
/-! THEOREMS. The statements of the family 70_reset_and_hazards: what RESET does in any state, and what the reset state shows and
holds. -/

namespace Sys2Proof.Machine

/-- Settles O27: the two levels select RESET or nothing, and RESET answers `hardReset`, which is written field by field. -/
theorem resetZeroesTheBlock : Obligations.ResetZeroesTheBlock :=
  fun s => ⟨⟨decode_reset_high, decode_reset_low⟩, exec_reset s⟩

/-- Settles O28: the reset state is one RESET leaves, and after RESET every view and every hidden field is 0, whatever the state
before. -/
theorem resetStateViews : Obligations.ResetStateViews := by
  intro c
  rw [← hardReset_resetWith c]
  generalize State.resetWith c = s
  exact ⟨hardReset_ctlView s, s.hardReset_dat, hardReset_taddrView s, s.hardReset_subAddress, hardReset_flagsView s,
    s.hardReset_dataCursor, s.hardReset_bytesRemaining, hardReset_statView s, s.hardReset_byteCount, s.hardReset_wdtCount,
    s.hardReset_luPhase, s.hardReset_luDatFull, s.hardReset_luAckPend, s.hardReset_trace, rfl⟩

/-- Settles O55: at reset nothing of buffer memory is written and the mock target is fresh. -/
theorem canonicalMemoryAtReset : Obligations.CanonicalMemoryAtReset :=
  fun c => ⟨reset_mem_wf c, fresh_target_wf⟩

end Sys2Proof.Machine
end
